-- ==== Sys2Proof/Word.lean ====
section
/-! DEFINITION. The widths of the machine's values (spec/00_scope.md R5, R9). -/

namespace Sys2Proof

/-- A 32-bit register value, address or instruction word (R9). -/
abbrev Word := BitVec 32

/-- The smallest addressable unit of the bus (R60). -/
abbrev Byte := BitVec 8

/-- A general-register number, the content of a 5-bit field (R20). -/
abbrev Reg := BitVec 5

end Sys2Proof
end

