-- ==== Sys2Proof/Config.lean ====
section
/-! DEFINITION. What an implementation fixes: the parameters of spec/00_scope.md R6 at the spec's defaults, and the
values the spec leaves open, as uninterpreted constants with no body. -/

namespace Sys2Proof.Config

/-- The values of `BYTE_ORDER` (R6, D15): the end of a value whose byte lies at the lowest address. -/
inductive ByteOrder where
  | littleEndian
  | bigEndian
  deriving DecidableEq, Repr

/-- `BYTE_ORDER` (R6, R63, R64, R67): little-endian for data and for instruction fetch, and no instruction can switch it
(log entry 8). -/
def byteOrder : ByteOrder := .littleEndian

/-- `VEC_GENERAL`, the handler when Status bit 22 is 0 (R6, R338; log entry 8). -/
def vecGeneral : Word := 0x80000080#32

/-- `VEC_BOOT`, the handler when Status bit 22 is 1 (R6, R338; log entry 8). -/
def vecBoot : Word := 0xBFC00180#32

/-- `RESET_VECTOR` (R6, R380; log entry 8). -/
def resetVector : Word := 0xBFC00000#32

/-- `EXC_INT` (R6, R331; log entry 8). -/
def excInt : BitVec 5 := 0#5

/-- `EXC_ADEL` (R6, R331; log entry 8). -/
def excAdel : BitVec 5 := 4#5

/-- `EXC_ADES` (R6, R331; log entry 8). -/
def excAdes : BitVec 5 := 5#5

/-- `EXC_SYS` (R6, R331; log entry 8). -/
def excSys : BitVec 5 := 8#5

/-- `EXC_BP` (R6, R331; log entry 8). -/
def excBp : BitVec 5 := 9#5

/-- `EXC_RI` (R6, R331; log entry 8). -/
def excRi : BitVec 5 := 10#5

/-- `EXC_OV` (R6, R331; log entry 8). -/
def excOv : BitVec 5 := 12#5

/-- `EXT_IRQ_BIT`, the Cause bit that mirrors the interrupt line (R6, R345; log entry 8). -/
def extIrqBit : Nat := 10

/-- `PRID_VALUE` (R6, R39; log entry 8). -/
def pridValue : Word := 0x00000002#32

/-- `RESET_STATUS` (R6, R46): bit 22 set, bits 1 and 0 clear; the other bits are a DESIGN CHOICE (log entry 1). -/
def resetStatus : Word := 0x00400000#32

/-- `RESET_GPR[1..31]` (R6, R46): DESIGN CHOICE 0 (log entry 1); no statement may rest on it. Slot 0 is no register's
(R21). -/
def resetGpr : Vector Word 32 := Vector.replicate 32 0#32

/-- `RESET_HI` (R6, R46): DESIGN CHOICE 0 (log entry 1); no statement may rest on it. -/
def resetHi : Word := 0#32

/-- `RESET_LO` (R6, R46): DESIGN CHOICE 0 (log entry 1); no statement may rest on it. -/
def resetLo : Word := 0#32

/-- `RESET_CAUSE` (R6, R46): DESIGN CHOICE 0 (log entry 1); no statement may rest on it. -/
def resetCause : Word := 0#32

/-- `RESET_EPC` (R6, R46): DESIGN CHOICE 0 (log entry 1); no statement may rest on it. -/
def resetEpc : Word := 0#32

/-- `RESET_BADVADDR` (R6, R46): DESIGN CHOICE 0 (log entry 1); no statement may rest on it. -/
def resetBadVaddr : Word := 0#32

/-- The unspecified value that MFC0 delivers from a COP0 register number that names no state (R40, R312, U9), one for
each draw (log entry 7). Uninterpreted. -/
opaque freeValue : Nat → Word

/-- `BUS_INVALIDATION_POLICY` as the environment's function (R80): after a successful store of `n` bytes at `addr`,
with the cache's contents given, is the entry for `key` invalidated (log entry 6)? Uninterpreted. -/
opaque busInvalidates : (addr : Word) → (n : Nat) → (cache : List (Nat × Word)) → (key : Nat) → Bool

/-- `CYCLES_PER_STEP`, the count a single-step returns (R398, R401; log entry 11); no rule reads it. Uninterpreted. -/
opaque cyclesPerStep : Nat

end Sys2Proof.Config
end

