-- ==== Sys2Proof/WellFormed.lean ====
section
/-! DEFINITION. Which instructions have an encoding. Registers and immediates are bounded by their types; a shift amount
and a COP0 register number must fit their 5-bit fields (spec/30_encoding.md R105; spec/43_shift.md R200). -/

namespace Sys2Proof

/-- The instruction's operands fit the fields of its encoding (R101, R105): "a 5-bit literal shift count" and a COP0
register number "0 to 31" (log entry 16). -/
def Instr.wellFormed : Instr → Bool
  | .sll _ _ shamt => shamt < 32
  | .srl _ _ shamt => shamt < 32
  | .sra _ _ shamt => shamt < 32
  | .mfc0 _ rd => rd < 32
  | .mtc0 _ rd => rd < 32
  | .add .. | .addu .. | .sub .. | .subu .. | .slt .. | .sltu ..
  | .addi .. | .addiu .. | .slti .. | .sltiu ..
  | .and .. | .or .. | .xor .. | .nor .. | .andi .. | .ori .. | .xori .. | .lui ..
  | .sllv .. | .srlv .. | .srav ..
  | .mult .. | .multu .. | .div .. | .divu .. | .mfhi .. | .mflo .. | .mthi .. | .mtlo ..
  | .beq .. | .bne .. | .blez .. | .bgtz .. | .bltz .. | .bgez .. | .bltzal .. | .bgezal ..
  | .j .. | .jal .. | .jr .. | .jalr ..
  | .lb .. | .lbu .. | .lh .. | .lhu .. | .lw .. | .lwl .. | .lwr ..
  | .sb .. | .sh .. | .sw .. | .swl .. | .swr ..
  | .syscall .. | .brk .. | .rfe => true

end Sys2Proof
end

