-- ==== Sys2Proof/Decode.lean ====
section
/-! DEFINITION. Decoding, total on every 32-bit word (spec/30_encoding.md R100 to R112), and the encoder written from the
same maps. Every numeral here is from the maps R107 to R110. -/

namespace Sys2Proof

/-! ### Fields (R101 to R103) -/

/-- `word[31:26]`. -/
def opcodeField (w : Word) : BitVec 6 := w.extractLsb' 26 6
/-- `word[25:21]`. -/
def rsField (w : Word) : Reg := w.extractLsb' 21 5
/-- `word[20:16]`. -/
def rtField (w : Word) : Reg := w.extractLsb' 16 5
/-- `word[15:11]`. -/
def rdField (w : Word) : Reg := w.extractLsb' 11 5
/-- `word[10:6]`. -/
def shamtField (w : Word) : BitVec 5 := w.extractLsb' 6 5
/-- `word[5:0]`. -/
def functField (w : Word) : BitVec 6 := w.extractLsb' 0 6
/-- `word[15:0]`. -/
def immField (w : Word) : BitVec 16 := w.extractLsb' 0 16
/-- `word[25:0]`. -/
def targetField (w : Word) : BitVec 26 := w.extractLsb' 0 26
/-- `word[25:6]`, the code field of SYSCALL and BREAK (R105). -/
def codeField (w : Word) : BitVec 20 := w.extractLsb' 6 20

/-! ### Decoding -/

/-- "Every 32-bit word falls in exactly one of three classes" (R106). -/
inductive Decoded where
  /-- a defined instruction -/
  | instr (i : Instr)
  /-- a reserved encoding (R111): executing it raises the reserved-instruction exception -/
  | reserved
  /-- the refused coprocessor space (R112) -/
  | coprocessor
  deriving DecidableEq, Repr

/-- The SPECIAL map, opcode 0, by `word[5:0]` (R108). -/
def decodeSpecial (w : Word) : Decoded :=
  let rs := rsField w
  let rt := rtField w
  let rd := rdField w
  let sa := (shamtField w).toNat
  match (functField w).toNat with
  | 0x00 => .instr (.sll rd rt sa)
  | 0x02 => .instr (.srl rd rt sa)
  | 0x03 => .instr (.sra rd rt sa)
  | 0x04 => .instr (.sllv rd rt rs)
  | 0x06 => .instr (.srlv rd rt rs)
  | 0x07 => .instr (.srav rd rt rs)
  | 0x08 => .instr (.jr rs)
  | 0x09 => .instr (.jalr rd rs)
  | 0x0C => .instr (.syscall (codeField w))
  | 0x0D => .instr (.brk (codeField w))
  | 0x10 => .instr (.mfhi rd)
  | 0x11 => .instr (.mthi rs)
  | 0x12 => .instr (.mflo rd)
  | 0x13 => .instr (.mtlo rs)
  | 0x18 => .instr (.mult rs rt)
  | 0x19 => .instr (.multu rs rt)
  | 0x1A => .instr (.div rs rt)
  | 0x1B => .instr (.divu rs rt)
  | 0x20 => .instr (.add rd rs rt)
  | 0x21 => .instr (.addu rd rs rt)
  | 0x22 => .instr (.sub rd rs rt)
  | 0x23 => .instr (.subu rd rs rt)
  | 0x24 => .instr (.and rd rs rt)
  | 0x25 => .instr (.or rd rs rt)
  | 0x26 => .instr (.xor rd rs rt)
  | 0x27 => .instr (.nor rd rs rt)
  | 0x2A => .instr (.slt rd rs rt)
  | 0x2B => .instr (.sltu rd rs rt)
  | _ => .reserved

/-- The REGIMM map, opcode 1, by bits 20 and 16 of the word; bits 19 to 17 are ignored (R109). -/
def decodeRegimm (w : Word) : Decoded :=
  let rs := rsField w
  let imm := immField w
  match w.getLsbD 20, w.getLsbD 16 with
  | false, false => .instr (.bltz rs imm)
  | false, true => .instr (.bgez rs imm)
  | true, false => .instr (.bltzal rs imm)
  | true, true => .instr (.bgezal rs imm)

/-- The COP0 map, opcode 0x10 (R110). -/
def decodeCop0 (w : Word) : Decoded :=
  if rsField w = 0b00000#5 then .instr (.mfc0 (rtField w) (rdField w).toNat)
  else if rsField w = 0b00100#5 then .instr (.mtc0 (rtField w) (rdField w).toNat)
  else if w.getLsbD 25 = true ∧ functField w = 0x10#6 then .instr .rfe
  else .coprocessor

/-- The decoder (R106): the primary map by `word[31:26]` (R107). -/
def decode (w : Word) : Decoded :=
  let rs := rsField w
  let rt := rtField w
  let imm := immField w
  match (opcodeField w).toNat with
  | 0x00 => decodeSpecial w
  | 0x01 => decodeRegimm w
  | 0x02 => .instr (.j (targetField w))
  | 0x03 => .instr (.jal (targetField w))
  | 0x04 => .instr (.beq rs rt imm)
  | 0x05 => .instr (.bne rs rt imm)
  | 0x06 => .instr (.blez rs imm)
  | 0x07 => .instr (.bgtz rs imm)
  | 0x08 => .instr (.addi rt rs imm)
  | 0x09 => .instr (.addiu rt rs imm)
  | 0x0A => .instr (.slti rt rs imm)
  | 0x0B => .instr (.sltiu rt rs imm)
  | 0x0C => .instr (.andi rt rs imm)
  | 0x0D => .instr (.ori rt rs imm)
  | 0x0E => .instr (.xori rt rs imm)
  | 0x0F => .instr (.lui rt imm)
  | 0x10 => decodeCop0 w
  | 0x11 => .coprocessor
  | 0x12 => .coprocessor
  | 0x13 => .coprocessor
  | 0x20 => .instr (.lb rt rs imm)
  | 0x21 => .instr (.lh rt rs imm)
  | 0x22 => .instr (.lwl rt rs imm)
  | 0x23 => .instr (.lw rt rs imm)
  | 0x24 => .instr (.lbu rt rs imm)
  | 0x25 => .instr (.lhu rt rs imm)
  | 0x26 => .instr (.lwr rt rs imm)
  | 0x28 => .instr (.sb rt rs imm)
  | 0x29 => .instr (.sh rt rs imm)
  | 0x2A => .instr (.swl rt rs imm)
  | 0x2B => .instr (.sw rt rs imm)
  | 0x2E => .instr (.swr rt rs imm)
  | 0x30 => .coprocessor
  | 0x31 => .coprocessor
  | 0x32 => .coprocessor
  | 0x33 => .coprocessor
  | 0x38 => .coprocessor
  | 0x39 => .coprocessor
  | 0x3A => .coprocessor
  | 0x3B => .coprocessor
  | _ => .reserved

/-! ### Encoding -/

/-- An R-format word (R101). -/
def formatR (op : BitVec 6) (rs rt rd : Reg) (shamt : BitVec 5) (funct : BitVec 6) : Word :=
  op ++ rs ++ rt ++ rd ++ shamt ++ funct

/-- An I-format word (R102). -/
def formatI (op : BitVec 6) (rs rt : Reg) (imm : BitVec 16) : Word :=
  op ++ rs ++ rt ++ imm

/-- A J-format word (R103). -/
def formatJ (op : BitVec 6) (target : BitVec 26) : Word :=
  op ++ target

/-- A SPECIAL word with a code field (R105, R310, R311). -/
def formatCode (code : BitVec 20) (funct : BitVec 6) : Word :=
  (0x00#6) ++ code ++ funct

/-- The word of an instruction: the fields of its row of the maps, with every ignored bit 0 and the canonical rt of the
REGIMM group (R109). -/
def encode : Instr → Word
  | .add rd rs rt => formatR 0x00 rs rt rd 0 0x20
  | .addu rd rs rt => formatR 0x00 rs rt rd 0 0x21
  | .sub rd rs rt => formatR 0x00 rs rt rd 0 0x22
  | .subu rd rs rt => formatR 0x00 rs rt rd 0 0x23
  | .slt rd rs rt => formatR 0x00 rs rt rd 0 0x2A
  | .sltu rd rs rt => formatR 0x00 rs rt rd 0 0x2B
  | .addi rt rs imm => formatI 0x08 rs rt imm
  | .addiu rt rs imm => formatI 0x09 rs rt imm
  | .slti rt rs imm => formatI 0x0A rs rt imm
  | .sltiu rt rs imm => formatI 0x0B rs rt imm
  | .and rd rs rt => formatR 0x00 rs rt rd 0 0x24
  | .or rd rs rt => formatR 0x00 rs rt rd 0 0x25
  | .xor rd rs rt => formatR 0x00 rs rt rd 0 0x26
  | .nor rd rs rt => formatR 0x00 rs rt rd 0 0x27
  | .andi rt rs imm => formatI 0x0C rs rt imm
  | .ori rt rs imm => formatI 0x0D rs rt imm
  | .xori rt rs imm => formatI 0x0E rs rt imm
  | .lui rt imm => formatI 0x0F 0 rt imm
  | .sll rd rt shamt => formatR 0x00 0 rt rd (BitVec.ofNat 5 shamt) 0x00
  | .srl rd rt shamt => formatR 0x00 0 rt rd (BitVec.ofNat 5 shamt) 0x02
  | .sra rd rt shamt => formatR 0x00 0 rt rd (BitVec.ofNat 5 shamt) 0x03
  | .sllv rd rt rs => formatR 0x00 rs rt rd 0 0x04
  | .srlv rd rt rs => formatR 0x00 rs rt rd 0 0x06
  | .srav rd rt rs => formatR 0x00 rs rt rd 0 0x07
  | .mult rs rt => formatR 0x00 rs rt 0 0 0x18
  | .multu rs rt => formatR 0x00 rs rt 0 0 0x19
  | .div rs rt => formatR 0x00 rs rt 0 0 0x1A
  | .divu rs rt => formatR 0x00 rs rt 0 0 0x1B
  | .mfhi rd => formatR 0x00 0 0 rd 0 0x10
  | .mflo rd => formatR 0x00 0 0 rd 0 0x12
  | .mthi rs => formatR 0x00 rs 0 0 0 0x11
  | .mtlo rs => formatR 0x00 rs 0 0 0 0x13
  | .beq rs rt imm => formatI 0x04 rs rt imm
  | .bne rs rt imm => formatI 0x05 rs rt imm
  | .blez rs imm => formatI 0x06 rs 0 imm
  | .bgtz rs imm => formatI 0x07 rs 0 imm
  | .bltz rs imm => formatI 0x01 rs 0 imm
  | .bgez rs imm => formatI 0x01 rs 1 imm
  | .bltzal rs imm => formatI 0x01 rs 16 imm
  | .bgezal rs imm => formatI 0x01 rs 17 imm
  | .j target => formatJ 0x02 target
  | .jal target => formatJ 0x03 target
  | .jr rs => formatR 0x00 rs 0 0 0 0x08
  | .jalr rd rs => formatR 0x00 rs 0 rd 0 0x09
  | .lb rt base offset => formatI 0x20 base rt offset
  | .lbu rt base offset => formatI 0x24 base rt offset
  | .lh rt base offset => formatI 0x21 base rt offset
  | .lhu rt base offset => formatI 0x25 base rt offset
  | .lw rt base offset => formatI 0x23 base rt offset
  | .lwl rt base offset => formatI 0x22 base rt offset
  | .lwr rt base offset => formatI 0x26 base rt offset
  | .sb rt base offset => formatI 0x28 base rt offset
  | .sh rt base offset => formatI 0x29 base rt offset
  | .sw rt base offset => formatI 0x2B base rt offset
  | .swl rt base offset => formatI 0x2A base rt offset
  | .swr rt base offset => formatI 0x2E base rt offset
  | .syscall code => formatCode code 0x0C
  | .brk code => formatCode code 0x0D
  | .mfc0 rt rd => formatR 0x10 0b00000 rt (BitVec.ofNat 5 rd) 0 0
  | .mtc0 rt rd => formatR 0x10 0b00100 rt (BitVec.ofNat 5 rd) 0 0
  | .rfe => formatR 0x10 0b10000 0 0 0 0x10

/-! ### Words and bytes -/

/-- The halfword whose bytes, lowest address first, are `b0`, `b1`, assembled in `BYTE_ORDER` (R63). -/
def halfwordOfBytes (b0 b1 : Byte) : BitVec 16 :=
  match Config.byteOrder with
  | .littleEndian => b1 ++ b0
  | .bigEndian => b0 ++ b1

/-- The word whose bytes, lowest address first, are `b0`, `b1`, `b2`, `b3`, assembled in `BYTE_ORDER` (R63, R67). -/
def wordOfBytes (b0 b1 b2 b3 : Byte) : Word :=
  match Config.byteOrder with
  | .littleEndian => b3 ++ b2 ++ b1 ++ b0
  | .bigEndian => b0 ++ b1 ++ b2 ++ b3

/-- Byte `k` of a word, least significant first (R64). -/
def byteOfWord (w : Word) (k : Nat) : Byte := w.extractLsb' (8 * k) 8

/-- The byte of the low `8n` bits of a word that lies `k` bytes above the lowest address, in `BYTE_ORDER` (R64, R67). -/
def storedByte (n : Nat) (w : Word) (k : Nat) : Byte :=
  match Config.byteOrder with
  | .littleEndian => byteOfWord w k
  | .bigEndian => byteOfWord w (n - 1 - k)

/-- Decoding of a byte sequence, lowest address first: the class of the first word and the bytes after it; `none` when
fewer than four bytes are left (R100: every instruction is one 32-bit word). -/
def decodeBytes : List Byte → Option (Decoded × List Byte)
  | b0 :: b1 :: b2 :: b3 :: rest => some (decode (wordOfBytes b0 b1 b2 b3), rest)
  | _ => none

/-- The instruction the decoder reads from a table row's bits `w`, numbered as spec/opcode_table.json numbers them; the
word is laid out as the hardware stores it and given to the decoder. Every instruction is one 32-bit word (R100), so bits
from `nbits` up are 0. -/
def decodeTableWord (nbits w : Nat) : Option Instr :=
  let word : Word := BitVec.ofNat 32 (w % 2 ^ nbits)
  match decodeBytes [storedByte 4 word 0, storedByte 4 word 1, storedByte 4 word 2, storedByte 4 word 3] with
  | some (.instr i, _) => some i
  | _ => none

end Sys2Proof
end

