-- ==== Sys2Proof/Machine/State.lean ====
section
/-! DEFINITION. The machine's state as plain data (spec/10_state.md), the reasons a step can stop (spec/00_scope.md R13),
and the state after reset (spec/10_state.md R46, spec/70_reset_and_hazards.md R380). -/

namespace Sys2Proof.Machine

/-- The entry of the pending-load holder (R30). -/
structure PendingLoad where
  reg : Reg
  value : Word
  deriving DecidableEq, Repr

/-- The kind of a bus access (R65). -/
inductive AccessKind where
  | fetch
  | load
  | store
  deriving DecidableEq, Repr

/-- A range of `count` byte addresses from `first` at which the bus fails every access of one kind (R65: "Which
addresses fail is the bus's"; log entry 5). -/
structure BusFailureRange where
  kind : AccessKind
  first : Nat
  count : Nat
  deriving DecidableEq, Repr

/-- `BUS_INVALIDATION_POLICY` (R80; log entry 6). -/
inductive BusPolicy where
  /-- entries leave only by host action -/
  | never
  /-- every store invalidates the aligned word address it writes into -/
  | always
  /-- the environment's own function, `Config.busInvalidates`, of which nothing is known -/
  | environment
  deriving DecidableEq, Repr

/-- The bytes behind the bus that differ from what an unlisted address reads as, by rising address. -/
abbrev Memory := List Host.Cell

/-- The instruction cache, "a sparse mapping from instruction address to cached 32-bit word" (R41), by rising address. -/
abbrev ICache := List (Nat × Word)

/-- The state at a step boundary. The first group is the spec's (R20 to R41). The second is the environment's, held as
plain data so that a step is a function of the state (R43, R45; log entries 2 to 7). -/
structure State where
  /-- `x[0]` to `x[31]` (R20); slot 0 is never read and never written (R21) -/
  gpr : Vector Word 32
  /-- R29 -/
  hi : Word
  /-- R29 -/
  lo : Word
  /-- "address of the instruction about to execute" (R25) -/
  pc : Word
  /-- "address that will become pc after the current step" (R25) -/
  nextPc : Word
  /-- R32 -/
  inBranchDelay : Bool
  /-- R30 -/
  pendingLoad : Option PendingLoad
  /-- COP0 register 12 (R35) -/
  status : Word
  /-- COP0 register 13 (R36) -/
  cause : Word
  /-- COP0 register 14 (R37) -/
  epc : Word
  /-- COP0 register 8 (R38) -/
  badVaddr : Word
  /-- COP0 register 15 (R39) -/
  prid : Word
  /-- R41 -/
  icache : ICache
  /-- the memory behind the bus (R60, R63, R64) -/
  mem : Memory
  /-- where the bus fails (R65) -/
  busFailures : List BusFailureRange
  /-- what the bus invalidates after a store (R80) -/
  busPolicy : BusPolicy
  /-- the levels of `irq` at the coming steps, head first; low when none is left (R344, R345) -/
  irqInput : List Bool
  /-- how many free values have been drawn (R40) -/
  freeCount : Nat
  deriving DecidableEq, Repr

/-- Why a run ends with a fault. -/
inductive Fault where
  /-- `BusFailure(addr, kind)` (R13, R65, R283): raised by `busAccess`, for the fetch in `step` and for every load and
  store instruction. Safe: the spec's own hard error, with no state after it. -/
  | busFailure (addr : Word) (kind : AccessKind)
  deriving DecidableEq, Repr

/-- Why a step gives no meaning. -/
inductive Refusal where
  /-- an instruction without a meaning, by its mnemonic: raised by `exec` alone. Safe. No instruction is left so. -/
  | notModelled (mnemonic : String)
  /-- `Refused(word)` (R13, R112): raised by `step` for a word of the coprocessor space. Safe: the spec gives these words
  no meaning and asks a model to refuse them. -/
  | coprocessor (word : Word)
  deriving DecidableEq, Repr

/-- The machine right after reset with nothing placed in memory (R46, R380): fields the spec gives no value are named in
log entries 1 to 7. -/
def State.reset : State where
  gpr := Config.resetGpr
  hi := Config.resetHi
  lo := Config.resetLo
  pc := Config.resetVector
  nextPc := Config.resetVector + 4#32
  inBranchDelay := false
  pendingLoad := none
  status := Config.resetStatus
  cause := Config.resetCause
  epc := Config.resetEpc
  badVaddr := Config.resetBadVaddr
  prid := Config.pridValue
  icache := []
  mem := []
  busFailures := []
  busPolicy := .environment
  irqInput := []
  freeCount := 0

end Sys2Proof.Machine
end

