-- ==== Sys2Proof/Machine/Flags.lean ====
section
/-! DEFINITION. The fields of Status and Cause (spec/10_state.md R35, R36), the mode stack (spec/60_exceptions.md R336;
spec/48_system.md R314), the overflow condition and the set-less-than results (spec/41_arithmetic.md R161, R162). The
hardware has no condition flags (R33). -/

namespace Sys2Proof.Machine

/-! ### Bit fields -/

/-- `w` with bit `i` set to `b`. -/
def setBit (w : Word) (i : Nat) (b : Bool) : Word :=
  if b then w ||| (1#32 <<< i) else w &&& ~~~(1#32 <<< i)

/-- `w` with the bits that `mask` names taken from `v`. -/
def replaceBits (mask v w : Word) : Word := (w &&& ~~~mask) ||| (v &&& mask)

/-! ### Status (R35) -/

/-- IEc, bit 0: global interrupt enable. -/
def statusIEc (status : Word) : Bool := status.getLsbD 0

/-- KUc, bit 1: privilege, 0 is the privileged mode (R360). -/
def statusKUc (status : Word) : Bool := status.getLsbD 1

/-- IM, bits 15 to 8: the interrupt mask. -/
def statusIM (status : Word) : BitVec 8 := status.extractLsb' 8 8

/-- BEV, bit 22: boot-vector select (R338). -/
def statusBEV (status : Word) : Bool := status.getLsbD 22

/-- `Status[5:0] <- (Status[5:0] << 2) & 0x3F`: the mode push of exception entry (R335 step 1, R336). -/
def pushMode (status : Word) : Word := replaceBits 0x3F#32 (status <<< 2) status

/-- `Status[3:0] <- Status[5:2]`: the mode pop of RFE (R314). -/
def popMode (status : Word) : Word := replaceBits 0xF#32 (status >>> 2) status

/-! ### Cause (R36) -/

/-- ExcCode, bits 6 to 2. -/
def causeCode (cause : Word) : BitVec 5 := cause.extractLsb' 2 5

/-- IP, bits 15 to 8: the pending-interrupt field. -/
def causeIP (cause : Word) : BitVec 8 := cause.extractLsb' 8 8

/-- BD, bit 31: the branch-delay flag of the latest exception. -/
def causeBD (cause : Word) : Bool := cause.getLsbD 31

/-- `Cause[6:2] <- code`, "replaced not merged" (R335 step 2, R340). -/
def withCauseCode (code : BitVec 5) (cause : Word) : Word := replaceBits 0x7C#32 (code.setWidth 32 <<< 2) cause

/-- `Cause[31] <- bd` (R335 step 3, R337). -/
def withCauseBD (bd : Bool) (cause : Word) : Word := setBit cause 31 bd

/-- The part of Cause that MTC0 writes, bits 9 and 8 (R36, R313). -/
def softwareInterruptMask : Word := 0x300#32

/-- The delivery condition: `Status[0] = 1 and (Cause[15:8] & Status[15:8]) != 0` (R346). -/
def interruptEnabled (status cause : Word) : Bool :=
  statusIEc status && decide (causeIP cause &&& statusIM status ≠ 0#8)

/-! ### Arithmetic conditions -/

/-- A mathematical result outside -2^31 to 2^31 - 1 (R161). -/
def overflows (x : Int) : Bool := decide (x < -2147483648 ∨ 2147483647 < x)

/-- A comparison's result as the 32-bit value 1 or 0 (R162). -/
def boolWord (b : Bool) : Word := if b then 1#32 else 0#32

/-- `sint(a) < sint(b)` (R162, R167, R171). -/
def signedLess (a b : Word) : Bool := decide (a.toInt < b.toInt)

/-- `uint(a) < uint(b)` (R162, R168, R172). -/
def unsignedLess (a b : Word) : Bool := decide (a.toNat < b.toNat)

end Sys2Proof.Machine
end

