-- ==== Sys2Proof/Machine/Ops.lean ====
section
/-! DEFINITION. The shared operations: sparse lists in canonical form, memory and bus (spec/20_memory.md), the instruction
cache (R70 to R76), registers (spec/10_state.md R20 to R31), the parts of a step around an instruction's own effect
(spec/40_step_cycle.md R131 to R138), and exception entry and return (spec/60_exceptions.md R335 to R341). -/

namespace Sys2Proof.Machine

/-- What a step or a meaning answers. -/
abbrev Result := Host.Outcome State Fault Refusal

/-! ### Lists of key and value, by rising key -/

/-- The value listed for a key. -/
def lookupKey {α : Type} : List (Nat × α) → Nat → Option α
  | [], _ => none
  | (k, v) :: rest, key => if key = k then some v else lookupKey rest key

/-- The list with the key's value set, at the key's place in rising order. -/
def insertKey {α : Type} : List (Nat × α) → Nat → α → List (Nat × α)
  | [], key, value => [(key, value)]
  | (k, v) :: rest, key, value =>
    if key < k then (key, value) :: (k, v) :: rest
    else if key = k then (key, value) :: rest
    else (k, v) :: insertKey rest key value

/-- The list without the entries for which `drop` holds of the key. -/
def dropKeys {α : Type} (entries : List (Nat × α)) (drop : Nat → Bool) : List (Nat × α) :=
  entries.filter fun entry => !drop entry.1

/-- Keys strictly rising and below 2^32. -/
abbrev risingKeys {α : Type} (entries : List (Nat × α)) : Prop :=
  entries.Pairwise (fun p q => p.1 < q.1) ∧ ∀ p ∈ entries, p.1 < 4294967296

/-! ### Memory -/

/-- What an address that is not listed reads as (log entry 3: DESIGN CHOICE, unsafe). -/
def unlistedByte : Byte := 0#8

/-- The one canonical form: addresses strictly rising and inside the address space, no entry equal to what an unlisted
address reads as. -/
abbrev Memory.wf (m : Memory) : Prop := risingKeys m ∧ ∀ p ∈ m, p.2 ≠ unlistedByte

/-- One byte (R60). -/
def readByte (m : Memory) (addr : Nat) : Byte := (lookupKey m addr).getD unlistedByte

/-- One byte stored, keeping the canonical form. -/
def writeByte (m : Memory) (addr : Nat) (b : Byte) : Memory :=
  if b = unlistedByte then dropKeys m (fun key => key = addr) else insertKey m addr b

/-- The address of byte `k` of an access at `addr`; addresses are computed modulo 2^32 (R280, R27). -/
def byteAddress (addr : Word) (k : Nat) : Nat := (addr + BitVec.ofNat 32 k).toNat

/-- `MemRead(addr, 1)` (R63). -/
def memRead8 (m : Memory) (addr : Word) : Byte := readByte m (byteAddress addr 0)

/-- `MemRead(addr, 2)` in `BYTE_ORDER` (R63, R67). -/
def memRead16 (m : Memory) (addr : Word) : BitVec 16 :=
  halfwordOfBytes (readByte m (byteAddress addr 0)) (readByte m (byteAddress addr 1))

/-- `MemRead(addr, 4)` in `BYTE_ORDER` (R63, R67). -/
def memRead32 (m : Memory) (addr : Word) : Word :=
  wordOfBytes (readByte m (byteAddress addr 0)) (readByte m (byteAddress addr 1))
    (readByte m (byteAddress addr 2)) (readByte m (byteAddress addr 3))

/-- The first `count` bytes of a store, lowest address first, byte `k` of it being `bytes k`. -/
def writeBytes (m : Memory) (addr : Word) (bytes : Nat → Byte) : (count : Nat) → Memory
  | 0 => m
  | k + 1 => writeByte (writeBytes m addr bytes k) (byteAddress addr k) (bytes k)

/-- `MemWrite(addr, n, v)`: "byte k (k = 0 to n-1) of the low 8n bits of v, least significant first, is written to
address addr+k" (R64), which is `BYTE_ORDER` little-endian. -/
def memWrite (m : Memory) (addr : Word) (v : Word) (n : Nat) : Memory := writeBytes m addr (storedByte n v) n

/-! ### Instruction cache -/

/-- Keys strictly rising and inside the address space. -/
abbrev ICache.wf (c : ICache) : Prop := risingKeys c

/-- `icache.fetch(address)`: "cached word if present, else absent" (R70). -/
def icacheFetch (c : ICache) (addr : Word) : Option Word := lookupKey c addr.toNat

/-- `icache.store(address, word)`: "inserts if absent" (R71). -/
def icacheStore (c : ICache) (addr w : Word) : ICache :=
  match icacheFetch c addr with
  | some _ => c
  | none => insertKey c addr.toNat w

/-- `icache.prefill(address, word)`: "explicit external insert/overwrite" (R73). -/
def icachePrefill (c : ICache) (addr w : Word) : ICache := insertKey c addr.toNat w

/-- `icache.invalidate(address)` (R74). -/
def icacheInvalidate (c : ICache) (addr : Word) : ICache := dropKeys c (fun key => key = addr.toNat)

/-- `icache.invalidate_range(start, end)`: every entry with `start <= a < end`, unsigned (R75). -/
def icacheInvalidateRange (c : ICache) (first limit : Word) : ICache :=
  dropKeys c (fun key => decide (first.toNat ≤ key ∧ key < limit.toNat))

/-- What `BUS_INVALIDATION_POLICY` does after a successful `MemWrite` of `n` bytes at `addr` (R80; log entry 6). -/
def applyBusPolicy (policy : BusPolicy) (addr : Word) (n : Nat) (c : ICache) : ICache :=
  match policy with
  | .never => c
  | .always => icacheInvalidate c (addr &&& 0xFFFFFFFC#32)
  | .environment => dropKeys c (Config.busInvalidates addr n c)

/-! ### Bus -/

/-- One of the `n` bytes from `addr` lies in a range the bus fails for this kind of access (R65). -/
def busFails (ranges : List BusFailureRange) (kind : AccessKind) (addr : Word) (n : Nat) : Bool :=
  ranges.any fun r =>
    decide (r.kind = kind) &&
      (List.range n).any fun k => decide (r.first ≤ addr.toNat + k ∧ addr.toNat + k < r.first + r.count)

/-- One bus access: `BusFailure(addr, kind)` where the bus fails, otherwise what follows it (R65, R66, R283; log
entry 9). -/
def busAccess (kind : AccessKind) (addr : Word) (n : Nat) (s : State) (success : Result) : Result :=
  if busFails s.busFailures kind addr n then .fault (.busFailure addr kind) else success

/-- `MemWrite` and what the bus does after it (R64, R77, R80, R284). -/
def storeBytes (addr : Word) (n : Nat) (v : Word) (s : State) : State :=
  { s with
    mem := memWrite s.mem addr v n
    icache := applyBusPolicy s.busPolicy addr n s.icache }

/-! ### Registers -/

/-- `x[i]`: "returns 0 for index 0, else the stored value" (R21, R22). -/
def readReg (s : State) (i : Reg) : Word := if i = 0#5 then 0#32 else s.gpr[i.toNat]

/-- `x[i] <- v`: "no-op for index 0, else stores the value immediately" (R21, R23). -/
def writeReg (i : Reg) (v : Word) (s : State) : State :=
  if i = 0#5 then s else { s with gpr := s.gpr.set i.toNat v }

/-- `commit(retiring)`: the holder's entry is written with "an ordinary write" and the holder is emptied (R131, R138). -/
def commitRetiring (s : State) : State :=
  match s.pendingLoad with
  | none => s
  | some p => { writeReg p.reg p.value s with pendingLoad := none }

/-- `write_delayed(i, v)` (R31). -/
def writeDelayed (i : Reg) (v : Word) (s : State) : State :=
  if i = 0#5 then commitRetiring s else { commitRetiring s with pendingLoad := some ⟨i, v⟩ }

/-! ### The step around an instruction

A meaning is given the state `s` in which `pc` is `cur_pc`, `inBranchDelay` is `cur_in_delay` and `pendingLoad` is
`retiring` (R44; log entry 10). Its operand phase reads the registers of `s` (R137), its effect phase acts on
`advance s`. -/

/-- The PC advance `in_branch_delay <- false ; pc <- next_pc ; next_pc <- next_pc + 4` (R136) and the retiring commit
(R138). -/
def advance (s : State) : State :=
  { commitRetiring s with
    inBranchDelay := false
    pc := s.nextPc
    nextPc := s.nextPc + 4#32 }

/-- A branch or jump that takes effect sets `next_pc` and `in_branch_delay` (R32, R240). -/
def stageTarget (target : Word) (s : State) : State :=
  { s with nextPc := target, inBranchDelay := true }

/-- The link value `pc + 4` of the effect phase, the address after the delay slot (R248, R261, R263). -/
def linkAddress (s : State) : Word := s.pc + 4#32

/-! ### Exceptions -/

/-- The seven exceptions of R331. -/
inductive ExcCause where
  | interrupt
  | addressErrorLoad
  | addressErrorStore
  | syscall
  | breakpoint
  | reservedInstruction
  | overflow
  deriving DecidableEq, Repr

/-- The cause code of an exception (R331, R6). -/
def excCode : ExcCause → BitVec 5
  | .interrupt => Config.excInt
  | .addressErrorLoad => Config.excAdel
  | .addressErrorStore => Config.excAdes
  | .syscall => Config.excSys
  | .breakpoint => Config.excBp
  | .reservedInstruction => Config.excRi
  | .overflow => Config.excOv

/-- The handler's address (R338). -/
def excVector (status : Word) : Word := if statusBEV status then Config.vecBoot else Config.vecGeneral

/-- `Enter(code, addr, bd)` (R335), in the spec's order. -/
def enterException (cause : ExcCause) (addr : Word) (bd : Bool) (s : State) : State :=
  let status := pushMode s.status
  let handler := excVector status
  { s with
    status := status
    cause := withCauseBD bd (withCauseCode (excCode cause) s.cause)
    epc := if bd then addr - 4#32 else addr
    pc := handler
    nextPc := handler + 4#32
    inBranchDelay := false
    pendingLoad := none }

/-- `raise E` in an instruction: `Enter(E, cur_pc, cur_in_delay)` after the retiring commit (R130 lines 15 to 17). -/
def raiseException (cause : ExcCause) (s : State) : State :=
  enterException cause s.pc s.inBranchDelay (advance s)

/-- `BadVaddr <- addr ; raise E` (R281, R341). -/
def raiseAddressError (cause : ExcCause) (addr : Word) (s : State) : State :=
  enterException cause s.pc s.inBranchDelay { advance s with badVaddr := addr }

/-- The return's mode pop (R314, R350). -/
def returnFromException (s : State) : State := { s with status := popMode s.status }

/-! ### The step before dispatch -/

/-- The level of `irq` at this step (R345; log entry 2). -/
def irqLevel (s : State) : Bool := s.irqInput.headD false

/-- `Cause[EXT_IRQ_BIT] <- irq` (R130 line 3, R345). -/
def sampleIrq (s : State) : State :=
  { s with
    cause := setBit s.cause Config.extIrqBit (irqLevel s)
    irqInput := s.irqInput.tail }

/-- An interrupt is taken in this step (R130 line 4, R346). -/
def interruptTaken (s : State) : Bool := interruptEnabled s.status s.cause

/-- `commit(retiring) ; Enter(EXC_INT, pc, cur_in_delay)` (R130 lines 5 and 6, R133). -/
def takeInterrupt (s : State) : State :=
  enterException .interrupt s.pc s.inBranchDelay (commitRetiring s)

/-- `commit(retiring) ; BadVaddr <- cur_pc ; Enter(EXC_ADEL, cur_pc, cur_in_delay)` (R130 lines 9 and 10, R134). -/
def takeFetchAddressError (s : State) : State :=
  enterException .addressErrorLoad s.pc s.inBranchDelay { commitRetiring s with badVaddr := s.pc }

/-- `addr[1:0] = 0` (R68). -/
def wordAligned (addr : Word) : Bool := decide (addr.extractLsb' 0 2 = 0#2)

/-- `addr[0] = 0` (R68). -/
def halfwordAligned (addr : Word) : Bool := decide (addr.extractLsb' 0 1 = 0#1)

/-- `IFetch(pc)` (R72, R135): the word and the state with the cache filled; `none` where the bus fails. -/
def fetchWord (s : State) : Option (Word × State) :=
  match icacheFetch s.icache s.pc with
  | some w => some (w, s)
  | none =>
    if busFails s.busFailures .fetch s.pc 4 then none
    else
      let w := memRead32 s.mem s.pc
      some (w, { s with icache := icacheStore s.icache s.pc w })

end Sys2Proof.Machine
end

