-- ==== Sys2Proof/Machine/Operands.lean ====
section
/-! DEFINITION. Every operand form of spec/30_encoding.md R105, the effective address (spec/47_load_store.md R280), the
merge operand and the byte-lane tables of the unaligned accesses (R291 to R298), and the COP0 registers by number
(spec/48_system.md R312, R313). -/

namespace Sys2Proof.Machine

/-! ### Immediates (R105) -/

/-- `sext_32(imm)`: arithmetic immediates and load/store offsets. -/
def signedImm (imm : BitVec 16) : Word := imm.signExtend 32

/-- `zext_32(imm)`: logical immediates. -/
def unsignedImm (imm : BitVec 16) : Word := imm.setWidth 32

/-- `imm || 0x0000`: the upper immediate of LUI. -/
def upperImm (imm : BitVec 16) : Word := imm ++ 0#16

/-- `x[rs][4:0]`: the variable shift amount (R200). -/
def variableShift (a : Word) : Nat := (a.extractLsb' 0 5).toNat

/-- The branch target: delay-slot address plus `sext_32(imm) << 2` (R240), `slot` the post-advance pc. -/
def branchTarget (slot : Word) (imm : BitVec 16) : Word := slot + (signedImm imm <<< 2)

/-- `(pc & 0xF0000000) | (zext_32(target) << 2)` (R260), `slot` the post-advance pc. -/
def jumpTarget (slot : Word) (target : BitVec 26) : Word :=
  (slot &&& 0xF0000000#32) ||| (target.setWidth 32 <<< 2)

/-! ### Loads and stores -/

/-- `addr = (a + sext_32(imm)) mod 2^32` with `a = x[base]` read in the operand phase (R280). -/
def effectiveAddress (s : State) (base : Reg) (offset : BitVec 16) : Word :=
  readReg s base + signedImm offset

/-- `addr & 0xFFFFFFFC`, the aligned word that contains `addr` (R290, R297). -/
def wordAddress (addr : Word) : Word := addr &&& 0xFFFFFFFC#32

/-- `k = addr[1:0]` (R292). -/
def byteLane (addr : Word) : Nat := (addr.extractLsb' 0 2).toNat

/-- The merge operand of LWL and LWR: the retiring load's value when it names the same register, otherwise `x[rt]`
(R291). -/
def mergeOperand (s : State) (rt : Reg) : Word :=
  match s.pendingLoad with
  | some p => if p.reg = rt then p.value else readReg s rt
  | none => readReg s rt

/-- LWL's result for lane `k` of the aligned word `w` (R292). -/
def mergeLeft (old w : Word) : Nat → Word
  | 0 => (old &&& 0x00FFFFFF#32) ||| (w <<< 24)
  | 1 => (old &&& 0x0000FFFF#32) ||| (w <<< 16)
  | 2 => (old &&& 0x000000FF#32) ||| (w <<< 8)
  | _ => w

/-- LWR's result for lane `k` of the aligned word `w` (R293). -/
def mergeRight (old w : Word) : Nat → Word
  | 0 => w
  | 1 => (old &&& 0xFF000000#32) ||| (w >>> 8)
  | 2 => (old &&& 0xFFFF0000#32) ||| (w >>> 16)
  | _ => (old &&& 0xFFFFFF00#32) ||| (w >>> 24)

/-! ### COP0 registers -/

/-- The content of the COP0 register `rd`; `none` for a number that names no state of the block (R34, R40, R312). -/
def cop0Register (s : State) (rd : Nat) : Option Word :=
  match rd with
  | 8 => some s.badVaddr
  | 12 => some s.status
  | 13 => some s.cause
  | 14 => some s.epc
  | 15 => some s.prid
  | _ => none

/-- MTC0's effect on the COP0 registers: all of Status, bits 9 and 8 of Cause, nothing else (R313). -/
def writeCop0 (rd : Nat) (b : Word) (s : State) : State :=
  match rd with
  | 12 => { s with status := b }
  | 13 => { s with cause := replaceBits softwareInterruptMask b s.cause }
  | _ => s

end Sys2Proof.Machine
end

