-- ==== Sys2Proof/Machine/Arithmetic.lean ====
section
/-! DEFINITION. Arithmetic instructions (spec/41_arithmetic.md R160 to R172). -/

namespace Sys2Proof.Machine

/-- An immediate write of `v` to `x[rd]` in the effect phase (R23). -/
def writeResult (rd : Reg) (v : Word) (s : State) : Result := .next (writeReg rd v (advance s))

/-- The exact result `x` written, or the Overflow exception and no write (R161). -/
def writeChecked (rd : Reg) (x : Int) (s : State) : Result :=
  if overflows x then .next (raiseException .overflow s) else writeResult rd (BitVec.ofInt 32 x) s

/-- ADD (R163). -/
def execAdd (rd rs rt : Reg) (s : State) : Result :=
  writeChecked rd ((readReg s rs).toInt + (readReg s rt).toInt) s

/-- ADDU (R164). -/
def execAddu (rd rs rt : Reg) (s : State) : Result :=
  writeResult rd (readReg s rs + readReg s rt) s

/-- SUB (R165). -/
def execSub (rd rs rt : Reg) (s : State) : Result :=
  writeChecked rd ((readReg s rs).toInt - (readReg s rt).toInt) s

/-- SUBU (R166). -/
def execSubu (rd rs rt : Reg) (s : State) : Result :=
  writeResult rd (readReg s rs - readReg s rt) s

/-- SLT (R167). -/
def execSlt (rd rs rt : Reg) (s : State) : Result :=
  writeResult rd (boolWord (signedLess (readReg s rs) (readReg s rt))) s

/-- SLTU (R168). -/
def execSltu (rd rs rt : Reg) (s : State) : Result :=
  writeResult rd (boolWord (unsignedLess (readReg s rs) (readReg s rt))) s

/-- ADDI (R169). -/
def execAddi (rt rs : Reg) (imm : BitVec 16) (s : State) : Result :=
  writeChecked rt ((readReg s rs).toInt + (signedImm imm).toInt) s

/-- ADDIU (R170). -/
def execAddiu (rt rs : Reg) (imm : BitVec 16) (s : State) : Result :=
  writeResult rt (readReg s rs + signedImm imm) s

/-- SLTI (R171). -/
def execSlti (rt rs : Reg) (imm : BitVec 16) (s : State) : Result :=
  writeResult rt (boolWord (signedLess (readReg s rs) (signedImm imm))) s

/-- SLTIU (R172): the immediate is sign-extended, the comparison unsigned. -/
def execSltiu (rt rs : Reg) (imm : BitVec 16) (s : State) : Result :=
  writeResult rt (boolWord (unsignedLess (readReg s rs) (signedImm imm))) s

end Sys2Proof.Machine
end

