-- ==== Sys2Proof/Machine/Branch.lean ====
section
/-! DEFINITION. Branch instructions (spec/45_branch.md R240 to R252). Operands are read in the operand phase, targets and
link values from the post-advance pc. -/

namespace Sys2Proof.Machine

/-- A branch's effect on the effect-phase state `e`: taken, it stages its target and marks the delay slot; not taken, it
writes nothing (R240, R241). -/
def branchIf (taken : Bool) (imm : BitVec 16) (e : State) : State :=
  if taken then stageTarget (branchTarget e.pc imm) e else e

/-- A branch without link. -/
def execBranch (taken : Bool) (imm : BitVec 16) (s : State) : Result :=
  .next (branchIf taken imm (advance s))

/-- A branch that saves `pc + 4` in register 31, taken or not (R248). -/
def execBranchLink (taken : Bool) (imm : BitVec 16) (s : State) : Result :=
  .next (branchIf taken imm (writeReg 31#5 (linkAddress (advance s)) (advance s)))

/-- BEQ (R244). -/
def execBeq (rs rt : Reg) (imm : BitVec 16) (s : State) : Result :=
  execBranch (decide (readReg s rs = readReg s rt)) imm s

/-- BNE (R245). -/
def execBne (rs rt : Reg) (imm : BitVec 16) (s : State) : Result :=
  execBranch (decide (readReg s rs ≠ readReg s rt)) imm s

/-- BLEZ (R246). -/
def execBlez (rs : Reg) (imm : BitVec 16) (s : State) : Result :=
  execBranch (decide ((readReg s rs).toInt ≤ 0)) imm s

/-- BGTZ (R247). -/
def execBgtz (rs : Reg) (imm : BitVec 16) (s : State) : Result :=
  execBranch (decide (0 < (readReg s rs).toInt)) imm s

/-- BLTZ (R249). -/
def execBltz (rs : Reg) (imm : BitVec 16) (s : State) : Result :=
  execBranch (decide ((readReg s rs).toInt < 0)) imm s

/-- BGEZ (R250). -/
def execBgez (rs : Reg) (imm : BitVec 16) (s : State) : Result :=
  execBranch (decide (0 ≤ (readReg s rs).toInt)) imm s

/-- BLTZAL (R251): with rs = 31 the test uses the old x[31] (R248). -/
def execBltzal (rs : Reg) (imm : BitVec 16) (s : State) : Result :=
  execBranchLink (decide ((readReg s rs).toInt < 0)) imm s

/-- BGEZAL (R252): with rs = 31 the test uses the old x[31] (R248). -/
def execBgezal (rs : Reg) (imm : BitVec 16) (s : State) : Result :=
  execBranchLink (decide (0 ≤ (readReg s rs).toInt)) imm s

end Sys2Proof.Machine
end

