-- ==== Sys2Proof/Machine/Jump.lean ====
section
/-! DEFINITION. Jump instructions (spec/46_jump.md R260 to R264). -/

namespace Sys2Proof.Machine

/-- J (R260). -/
def execJ (target : BitVec 26) (s : State) : Result :=
  let e := advance s
  .next (stageTarget (jumpTarget e.pc target) e)

/-- JAL (R261). -/
def execJal (target : BitVec 26) (s : State) : Result :=
  let e := advance s
  .next (stageTarget (jumpTarget e.pc target) (writeReg 31#5 (linkAddress e) e))

/-- JR (R262): no alignment or region constraint. -/
def execJr (rs : Reg) (s : State) : Result :=
  .next (stageTarget (readReg s rs) (advance s))

/-- JALR (R263): the link register is written before the target is read, so rs = rd jumps to the link value; otherwise
the target is the operand-phase value of rs. -/
def execJalr (rd rs : Reg) (s : State) : Result :=
  let e := advance s
  let link := linkAddress e
  let target := if rs = rd ∧ rd ≠ 0#5 then link else readReg s rs
  .next (stageTarget target (writeReg rd link e))

end Sys2Proof.Machine
end

