-- ==== Sys2Proof/Machine/LoadStore.lean ====
section
/-! DEFINITION. Load and store instructions (spec/47_load_store.md R280 to R298). -/

namespace Sys2Proof.Machine

/-- One load access of `n` bytes at `addr`, its result delivered one instruction late (R282, R283). -/
def loadDelayed (rt : Reg) (addr : Word) (n : Nat) (v : Word) (s : State) : Result :=
  busAccess .load addr n s (.next (writeDelayed rt v (advance s)))

/-- One store access of the low `n` bytes of `v` at `addr` (R64, R283). -/
def storeAccess (addr : Word) (n : Nat) (v : Word) (s : State) : Result :=
  busAccess .store addr n s (.next (storeBytes addr n v (advance s)))

/-- A load that must be aligned, or the address error before any bus access (R281). -/
def alignedLoad (aligned : Bool) (rt : Reg) (addr : Word) (n : Nat) (v : Word) (s : State) : Result :=
  if aligned then loadDelayed rt addr n v s else .next (raiseAddressError .addressErrorLoad addr s)

/-- A store that must be aligned, or the address error before any bus access (R281). -/
def alignedStore (aligned : Bool) (addr : Word) (n : Nat) (v : Word) (s : State) : Result :=
  if aligned then storeAccess addr n v s else .next (raiseAddressError .addressErrorStore addr s)

/-- LB (R285). -/
def execLb (rt base : Reg) (offset : BitVec 16) (s : State) : Result :=
  let addr := effectiveAddress s base offset
  loadDelayed rt addr 1 ((memRead8 s.mem addr).signExtend 32) s

/-- LBU (R286). -/
def execLbu (rt base : Reg) (offset : BitVec 16) (s : State) : Result :=
  let addr := effectiveAddress s base offset
  loadDelayed rt addr 1 ((memRead8 s.mem addr).setWidth 32) s

/-- LH (R287). -/
def execLh (rt base : Reg) (offset : BitVec 16) (s : State) : Result :=
  let addr := effectiveAddress s base offset
  alignedLoad (halfwordAligned addr) rt addr 2 ((memRead16 s.mem addr).signExtend 32) s

/-- LHU (R288). -/
def execLhu (rt base : Reg) (offset : BitVec 16) (s : State) : Result :=
  let addr := effectiveAddress s base offset
  alignedLoad (halfwordAligned addr) rt addr 2 ((memRead16 s.mem addr).setWidth 32) s

/-- LW (R289). -/
def execLw (rt base : Reg) (offset : BitVec 16) (s : State) : Result :=
  let addr := effectiveAddress s base offset
  alignedLoad (wordAligned addr) rt addr 4 (memRead32 s.mem addr) s

/-- LWL (R292). -/
def execLwl (rt base : Reg) (offset : BitVec 16) (s : State) : Result :=
  let addr := effectiveAddress s base offset
  let w := memRead32 s.mem (wordAddress addr)
  loadDelayed rt (wordAddress addr) 4 (mergeLeft (mergeOperand s rt) w (byteLane addr)) s

/-- LWR (R293). -/
def execLwr (rt base : Reg) (offset : BitVec 16) (s : State) : Result :=
  let addr := effectiveAddress s base offset
  let w := memRead32 s.mem (wordAddress addr)
  loadDelayed rt (wordAddress addr) 4 (mergeRight (mergeOperand s rt) w (byteLane addr)) s

/-- SB (R294). -/
def execSb (rt base : Reg) (offset : BitVec 16) (s : State) : Result :=
  storeAccess (effectiveAddress s base offset) 1 (readReg s rt) s

/-- SH (R295). -/
def execSh (rt base : Reg) (offset : BitVec 16) (s : State) : Result :=
  let addr := effectiveAddress s base offset
  alignedStore (halfwordAligned addr) addr 2 (readReg s rt) s

/-- SW (R296). -/
def execSw (rt base : Reg) (offset : BitVec 16) (s : State) : Result :=
  let addr := effectiveAddress s base offset
  alignedStore (wordAligned addr) addr 4 (readReg s rt) s

/-- SWL (R297): the high-order k + 1 bytes into the low-addressed end of the aligned word. -/
def execSwl (rt base : Reg) (offset : BitVec 16) (s : State) : Result :=
  let addr := effectiveAddress s base offset
  let k := byteLane addr
  storeAccess (wordAddress addr) (k + 1) (readReg s rt >>> (8 * (3 - k))) s

/-- SWR (R298): the low-order 4 - k bytes from `addr` to the end of the aligned word. -/
def execSwr (rt base : Reg) (offset : BitVec 16) (s : State) : Result :=
  let addr := effectiveAddress s base offset
  storeAccess addr (4 - byteLane addr) (readReg s rt) s

end Sys2Proof.Machine
end

