-- ==== Sys2Proof/Machine/Logical.lean ====
section
/-! DEFINITION. Logical instructions (spec/42_logical.md R180 to R188). -/

namespace Sys2Proof.Machine

/-- AND (R181). -/
def execAnd (rd rs rt : Reg) (s : State) : Result :=
  writeResult rd (readReg s rs &&& readReg s rt) s

/-- OR (R182). -/
def execOr (rd rs rt : Reg) (s : State) : Result :=
  writeResult rd (readReg s rs ||| readReg s rt) s

/-- XOR (R183). -/
def execXor (rd rs rt : Reg) (s : State) : Result :=
  writeResult rd (readReg s rs ^^^ readReg s rt) s

/-- NOR (R184). -/
def execNor (rd rs rt : Reg) (s : State) : Result :=
  writeResult rd (~~~(readReg s rs ||| readReg s rt)) s

/-- ANDI (R185). -/
def execAndi (rt rs : Reg) (imm : BitVec 16) (s : State) : Result :=
  writeResult rt (readReg s rs &&& unsignedImm imm) s

/-- ORI (R186). -/
def execOri (rt rs : Reg) (imm : BitVec 16) (s : State) : Result :=
  writeResult rt (readReg s rs ||| unsignedImm imm) s

/-- XORI (R187). -/
def execXori (rt rs : Reg) (imm : BitVec 16) (s : State) : Result :=
  writeResult rt (readReg s rs ^^^ unsignedImm imm) s

/-- LUI (R188). -/
def execLui (rt : Reg) (imm : BitVec 16) (s : State) : Result :=
  writeResult rt (upperImm imm) s

end Sys2Proof.Machine
end

