-- ==== Sys2Proof/Machine/MulDiv.lean ====
section
/-! DEFINITION. Multiply, divide and HI/LO moves (spec/44_muldiv.md R220 to R228). -/

namespace Sys2Proof.Machine

/-- `hi` and `lo` written in the effect phase (R29, R220). -/
def writeHiLo (hi lo : Word) (s : State) : Result := .next { advance s with hi := hi, lo := lo }

/-- A 64-bit product across hi:lo (R221, R222). -/
def writeProduct (p : BitVec 64) (s : State) : Result :=
  writeHiLo (p.extractLsb' 32 32) (p.extractLsb' 0 32) s

/-- MULT (R221). -/
def execMult (rs rt : Reg) (s : State) : Result :=
  writeProduct (BitVec.ofInt 64 ((readReg s rs).toInt * (readReg s rt).toInt)) s

/-- MULTU (R222). -/
def execMultu (rs rt : Reg) (s : State) : Result :=
  writeProduct (BitVec.ofNat 64 ((readReg s rs).toNat * (readReg s rt).toNat)) s

/-- The quotient of DIV (R223). -/
def signedQuotient (a b : Word) : Word :=
  if b = 0#32 then (if 0 ≤ a.toInt then 0xFFFFFFFF#32 else 1#32)
  else if a = 0x80000000#32 ∧ b = 0xFFFFFFFF#32 then 0x80000000#32
  else BitVec.ofInt 32 (a.toInt.tdiv b.toInt)

/-- The remainder of DIV (R223). -/
def signedRemainder (a b : Word) : Word :=
  if b = 0#32 then a
  else if a = 0x80000000#32 ∧ b = 0xFFFFFFFF#32 then 0#32
  else BitVec.ofInt 32 (a.toInt - a.toInt.tdiv b.toInt * b.toInt)

/-- The quotient of DIVU (R224). -/
def unsignedQuotient (a b : Word) : Word :=
  if b = 0#32 then 0xFFFFFFFF#32 else BitVec.ofNat 32 (a.toNat / b.toNat)

/-- The remainder of DIVU (R224). -/
def unsignedRemainder (a b : Word) : Word :=
  if b = 0#32 then a else BitVec.ofNat 32 (a.toNat % b.toNat)

/-- DIV (R223). -/
def execDiv (rs rt : Reg) (s : State) : Result :=
  writeHiLo (signedRemainder (readReg s rs) (readReg s rt)) (signedQuotient (readReg s rs) (readReg s rt)) s

/-- DIVU (R224). -/
def execDivu (rs rt : Reg) (s : State) : Result :=
  writeHiLo (unsignedRemainder (readReg s rs) (readReg s rt)) (unsignedQuotient (readReg s rs) (readReg s rt)) s

/-- MFHI (R225): an immediate write. -/
def execMfhi (rd : Reg) (s : State) : Result := writeResult rd s.hi s

/-- MFLO (R226): an immediate write. -/
def execMflo (rd : Reg) (s : State) : Result := writeResult rd s.lo s

/-- MTHI (R227): `lo` is unchanged. -/
def execMthi (rs : Reg) (s : State) : Result := writeHiLo (readReg s rs) s.lo s

/-- MTLO (R228): `hi` is unchanged. -/
def execMtlo (rs : Reg) (s : State) : Result := writeHiLo s.hi (readReg s rs) s

end Sys2Proof.Machine
end

