-- ==== Sys2Proof/Machine/Shift.lean ====
section
/-! DEFINITION. Shift instructions (spec/43_shift.md R200 to R206). The value shifted is always `x[rt]`. -/

namespace Sys2Proof.Machine

/-- SLL (R201). -/
def execSll (rd rt : Reg) (shamt : Nat) (s : State) : Result :=
  writeResult rd (readReg s rt <<< shamt) s

/-- SRL (R202). -/
def execSrl (rd rt : Reg) (shamt : Nat) (s : State) : Result :=
  writeResult rd (readReg s rt >>> shamt) s

/-- SRA (R203). -/
def execSra (rd rt : Reg) (shamt : Nat) (s : State) : Result :=
  writeResult rd ((readReg s rt).sshiftRight shamt) s

/-- SLLV (R204). -/
def execSllv (rd rt rs : Reg) (s : State) : Result :=
  writeResult rd (readReg s rt <<< variableShift (readReg s rs)) s

/-- SRLV (R205). -/
def execSrlv (rd rt rs : Reg) (s : State) : Result :=
  writeResult rd (readReg s rt >>> variableShift (readReg s rs)) s

/-- SRAV (R206). -/
def execSrav (rd rt rs : Reg) (s : State) : Result :=
  writeResult rd ((readReg s rt).sshiftRight (variableShift (readReg s rs))) s

end Sys2Proof.Machine
end

