-- ==== Sys2Proof/Machine/System.lean ====
section
/-! DEFINITION. System instructions (spec/48_system.md R310 to R315). None checks the privilege bit (R360). -/

namespace Sys2Proof.Machine

/-- SYSCALL (R310); the hardware ignores the code field. -/
def execSyscall (_code : BitVec 20) (s : State) : Result := .next (raiseException .syscall s)

/-- BREAK (R311); the hardware ignores the code field. -/
def execBreak (_code : BitVec 20) (s : State) : Result := .next (raiseException .breakpoint s)

/-- MFC0 (R312): delivered like a load's result. A number that names no register of the block delivers a free value
(R40; log entry 7). -/
def execMfc0 (rt : Reg) (rd : Nat) (s : State) : Result :=
  match cop0Register s rd with
  | some v => .next (writeDelayed rt v (advance s))
  | none =>
    .next { writeDelayed rt (Config.freeValue s.freeCount) (advance s) with freeCount := s.freeCount + 1 }

/-- MTC0 (R313). -/
def execMtc0 (rt : Reg) (rd : Nat) (s : State) : Result :=
  .next (writeCop0 rd (readReg s rt) (advance s))

/-- RFE (R314). -/
def execRfe (s : State) : Result := .next (returnFromException (advance s))

end Sys2Proof.Machine
end

