-- ==== Sys2Proof/Machine/Sequencer.lean ====
section
/-! DEFINITION. The sequencer's order of events in one step (spec/40_step_cycle.md R130) and the placing of a word where it
fetches. Step.lean gives these the names the host uses. -/

namespace Sys2Proof.Machine

/-- What follows a fetch: the decoded instruction's meaning, the reserved-instruction exception (R111), or the refusal of
the coprocessor space (R112). `s` is the state after the fetch. -/
def dispatchWord (w : Word) (s : State) : Result :=
  match decode w with
  | .instr i => exec i s
  | .reserved => .next (raiseException .reservedInstruction s)
  | .coprocessor => .refused (.coprocessor w)

/-- The step after the interrupt check: fetch-address check, fetch, dispatch (R130 lines 7 to 18). -/
def stepInstruction (s : State) : Result :=
  if wordAligned s.pc then
    match fetchWord s with
    | some (w, s') => dispatchWord w s'
    | none => .fault (.busFailure s.pc .fetch)
  else .next (takeFetchAddressError s)

/-- One step (R130): sample `irq`, take an enabled interrupt, otherwise run one instruction. -/
def runStep (s : State) : Result :=
  let sampled := sampleIrq s
  if interruptTaken sampled then .next (takeInterrupt sampled) else stepInstruction sampled

/-- The word `w` in memory at `pc`, with no cached word and no fetch failure in front of it (R72; log entry 14). -/
def placeFetchWord (w : Word) (s : State) : State :=
  { s with
    mem := memWrite s.mem s.pc w 4
    icache := icacheInvalidate s.icache s.pc
    busFailures := s.busFailures.filter fun r => !busFails [r] .fetch s.pc 4 }

end Sys2Proof.Machine
end

