-- ==== Sys2Proof/Machine/Step.lean ====
section
/-! DEFINITION. One step of the machine and the state in which a given instruction is the next to be fetched. -/

namespace Sys2Proof.Machine

/-- One step (spec/40_step_cycle.md R130). -/
def step (s : State) : Host.Outcome State Fault Refusal := runStep s

/-- The instruction of bits `w` stored where the step fetches. Every instruction is one 32-bit word (R100), so bits from
`nbits` up are 0 (log entry 14). -/
def State.withFetchWord (s : State) (nbits w : Nat) : State :=
  placeFetchWord (BitVec.ofNat 32 (w % 2 ^ nbits)) s

end Sys2Proof.Machine
end

