-- ==== Sys2Proof/Machine/HostOps.lean ====
section
/-! DEFINITION. The host interface: the operations "Exposed to external callers (scheduler, debugger, loader)", each
applied between two steps (spec/70_reset_and_hazards.md R400 to R408), what the environment may change between steps
(spec/40_step_cycle.md R146; spec/20_memory.md R84), and the driver that interleaves them with steps. -/

namespace Sys2Proof.Machine

/-- `Reset()` (R380): the core's own state at its reset values; memory and the rest of the environment are untouched
("does not touch memory, which belongs to the bus"; log entry 13). -/
def hostReset (s : State) : State :=
  { State.reset with
    mem := s.mem
    busFailures := s.busFailures
    busPolicy := s.busPolicy
    irqInput := s.irqInput
    freeCount := s.freeCount }

/-- Force-set program counter (R403): a pending load is left in place. -/
def hostForceSetPc (v : Word) (s : State) : State :=
  { s with pc := v, nextPc := v + 4#32, inBranchDelay := false }

/-- `Cause[15:8] <- Cause[15:8] | m` (R349). -/
def mergePending (m : BitVec 8) (cause : Word) : Word := cause ||| (m.setWidth 32 <<< 8)

/-- `InjectInterrupts(m)` (R349, R406). -/
def hostInject (m : BitVec 8) (s : State) : State :=
  let merged := { s with cause := mergePending m s.cause }
  if interruptTaken merged then takeInterrupt merged else merged

/-- Instruction-cache prefill (R73, R407). -/
def hostPrefill (addr w : Word) (s : State) : State := { s with icache := icachePrefill s.icache addr w }

/-- Instruction-cache invalidate (R74, R407). -/
def hostInvalidate (addr : Word) (s : State) : State := { s with icache := icacheInvalidate s.icache addr }

/-- Instruction-cache invalidate-range, half-open (R75, R407). -/
def hostInvalidateRange (first limit : Word) (s : State) : State :=
  { s with icache := icacheInvalidateRange s.icache first limit }

/-- Another bus master or a loader stores one byte (R84). -/
def hostWriteByte (addr : Word) (b : Byte) (s : State) : State :=
  { s with mem := writeByte s.mem addr.toNat b }

/-- Read of `pc` (R404). -/
def hostReadPc (s : State) : Word := s.pc
/-- Read of HI (R404). -/
def hostReadHi (s : State) : Word := s.hi
/-- Read of LO (R404). -/
def hostReadLo (s : State) : Word := s.lo
/-- Read of a general register, without a pending load's value (R404, R22). -/
def hostReadReg (i : Reg) (s : State) : Word := readReg s i
/-- "query whether currently inside a delay slot" (R405). -/
def hostInDelaySlot (s : State) : Bool := s.inBranchDelay

/-- The environment's moves between two steps (R146, R400). -/
inductive HostOp where
  | reset
  | forceSetPc (v : Word)
  | inject (m : BitVec 8)
  | prefill (addr w : Word)
  | invalidate (addr : Word)
  | invalidateRange (first limit : Word)
  | writeByte (addr : Word) (b : Byte)
  | setIrqInput (levels : List Bool)
  | setBusFailures (ranges : List BusFailureRange)
  | setBusPolicy (policy : BusPolicy)
  deriving DecidableEq, Repr

/-- The effect of a move. -/
def applyHostOp (op : HostOp) (s : State) : State :=
  match op with
  | .reset => hostReset s
  | .forceSetPc v => hostForceSetPc v s
  | .inject m => hostInject m s
  | .prefill addr w => hostPrefill addr w s
  | .invalidate addr => hostInvalidate addr s
  | .invalidateRange first limit => hostInvalidateRange first limit s
  | .writeByte addr b => hostWriteByte addr b s
  | .setIrqInput levels => { s with irqInput := levels }
  | .setBusFailures ranges => { s with busFailures := ranges }
  | .setBusPolicy policy => { s with busPolicy := policy }

/-- What happens next in a driven run: a step or a move of the environment. -/
inductive DriverEvent where
  | step
  | host (op : HostOp)
  deriving DecidableEq, Repr

/-- The run loop (R146, R402): steps and moves in the given order, stopping at the first fault or refusal. -/
def drive : List DriverEvent → State → Result
  | [], s => .next s
  | .host op :: rest, s => drive rest (applyHostOp op s)
  | .step :: rest, s =>
    match step s with
    | .next s' => drive rest s'
    | .fault r => .fault r
    | .refused r => .refused r

/-- "single-step (returns a cycle count)" (R401, R398; log entry 11). -/
def singleStep (s : State) : Host.Outcome (State × Nat) Fault Refusal :=
  match step s with
  | .next s' => .next (s', Config.cyclesPerStep)
  | .fault r => .fault r
  | .refused r => .refused r

end Sys2Proof.Machine
end

