-- ==== Sys2Proof/Safety.lean ====
section
/-! DEFINITION. What a safe run is, and the invariant of the machine in the terms statements use. -/

namespace Sys2Proof

open Sys2Proof.Machine

/-- A step that neither fails on the bus nor meets a word of the refused space (spec/00_scope.md R13). -/
def SafeStep (s : State) : Prop := ∃ t, step s = .next t

/-- `k` steps, each of them safe. -/
def SafeRun (k : Nat) (s : State) : Prop := ∃ t, Host.Core.run core k s = .next t

/-- What every step keeps and the reset state has: memory and cache in canonical form (log entry 3; R41), register 0
untouched (R21), the holder never naming register 0 (R30), the processor-ID constant (R39). -/
structure Inv (s : State) : Prop where
  memory : Memory.wf s.mem
  cache : ICache.wf s.icache
  zero : s.gpr[0] = 0#32
  holder : ∀ p, s.pendingLoad = some p → p.reg ≠ 0#5
  processorId : s.prid = Config.pridValue

end Sys2Proof
end

