-- ==== Sys2Proof/Certificates/Slice0/Obligations.lean ====
section
/-! DEFINITION. The statements for the provers. Their vocabulary first (namespace Sys2Proof.Claims), in terms of reads of
the state, then one definition per statement. In every statement about `exec i s`, `s` is the state of the instruction's
step after the interrupt check and the fetch: `s.pc` is the instruction's own address, `s.inBranchDelay` says whether it
is a marked delay slot, and `s.pendingLoad` is the load that retires in this step (log entry 10). -/

namespace Sys2Proof.Claims

open Sys2Proof.Machine

/-! ### Reads -/

/-- `x[r]` once the load that retires in this step has been committed (R138). -/
def retiredReg (s : State) (r : Reg) : Word :=
  match s.pendingLoad with
  | some p => if p.reg = r ∧ r ≠ 0#5 then p.value else readReg s r
  | none => readReg s r

/-- The bytes at `addr`, `addr + 1`, `addr + 2`, `addr + 3` as unsigned numbers. -/
def byteAt (s : State) (addr : Word) (k : Nat) : Nat := (readByte s.mem (addr + BitVec.ofNat 32 k).toNat).toNat

/-- The unsigned little-endian value of the `n` bytes at `addr`: what `BYTE_ORDER` makes of them (R63, R67;
`Config.byteOrder`, log entry 8). -/
def littleEndian (s : State) (addr : Word) : Nat → Nat
  | 0 => 0
  | n + 1 => littleEndian s addr n + byteAt s addr n * 256 ^ n

/-- The two's-complement reading of an `n`-bit unsigned value (R9). -/
def signedValue (n v : Nat) : Int := if v < 2 ^ (n - 1) then (v : Int) else (v : Int) - 2 ^ n

/-- The bus answers an access (R65). -/
def BusAnswers (s : State) (kind : AccessKind) (addr : Word) (n : Nat) : Prop :=
  ∀ r ∈ s.busFailures, r.kind = kind → ∀ k < n, ¬ (r.first ≤ addr.toNat + k ∧ addr.toNat + k < r.first + r.count)

/-! ### Words -/

/-- `word[25:21]`. -/
def fieldRs (w : Word) : Reg := w.extractLsb' 21 5
/-- `word[20:16]`. -/
def fieldRt (w : Word) : Reg := w.extractLsb' 16 5
/-- `word[15:11]`. -/
def fieldRd (w : Word) : Reg := w.extractLsb' 11 5
/-- `word[10:6]`. -/
def fieldShamt (w : Word) : BitVec 5 := w.extractLsb' 6 5
/-- `word[15:0]`. -/
def fieldImm (w : Word) : BitVec 16 := w.extractLsb' 0 16
/-- `word[25:0]`. -/
def fieldTarget (w : Word) : BitVec 26 := w.extractLsb' 0 26
/-- `word[25:6]`. -/
def fieldCode (w : Word) : BitVec 20 := w.extractLsb' 6 20

/-- Every word with a row's fixed bits is the row's instruction, with the operands in the row's fields (R101 to R103,
R106 to R110; "mask" and "match" of spec/opcode_table.json). -/
def Encodes (mask fixed : Word) (i : Word → Instr) : Prop := ∀ w, w &&& mask = fixed → decode w = .instr (i w)

/-- The words marked reserved in the maps R107 and R108 (R111). -/
def ReservedWord (w : Word) : Prop :=
  (w.extractLsb' 26 6).toNat ∈ ([0x14, 0x15, 0x16, 0x17, 0x18, 0x19, 0x1A, 0x1B, 0x1C, 0x1D, 0x1E, 0x1F, 0x27, 0x2C, 0x2D,
    0x2F, 0x34, 0x35, 0x36, 0x37, 0x3C, 0x3D, 0x3E, 0x3F] : List Nat) ∨
  ((w.extractLsb' 26 6).toNat = 0 ∧
    ((w.extractLsb' 0 6).toNat ∈ ([0x01, 0x05, 0x0A, 0x0B, 0x0E, 0x0F, 0x14, 0x15, 0x16, 0x17, 0x1C, 0x1D, 0x1E, 0x1F, 0x28,
      0x29, 0x2C, 0x2D, 0x2E, 0x2F] : List Nat) ∨ 0x30 ≤ (w.extractLsb' 0 6).toNat))

/-- The refused coprocessor space (R112): the listed opcodes, and every word with opcode 0x10 that R110 does not
assign. -/
def RefusedWord (w : Word) : Prop :=
  (w.extractLsb' 26 6).toNat ∈ ([0x11, 0x12, 0x13, 0x30, 0x31, 0x32, 0x33, 0x38, 0x39, 0x3A, 0x3B] : List Nat) ∨
  ((w.extractLsb' 26 6).toNat = 0x10 ∧ (w.extractLsb' 21 5).toNat ≠ 0 ∧ (w.extractLsb' 21 5).toNat ≠ 4 ∧
    ¬ (w.getLsbD 25 = true ∧ (w.extractLsb' 0 6).toNat = 0x10))

/-! ### What is kept -/

/-- The COP0 registers keep their values. -/
structure ControlKept (s t : State) : Prop where
  status : t.status = s.status
  cause : t.cause = s.cause
  epc : t.epc = s.epc
  badVaddr : t.badVaddr = s.badVaddr
  prid : t.prid = s.prid

/-- HI and LO keep their values. -/
structure HiLoKept (s t : State) : Prop where
  hi : t.hi = s.hi
  lo : t.lo = s.lo

/-- Every byte of memory and every cached word reads as before. -/
structure StorageKept (s t : State) : Prop where
  memory : ∀ a, readByte t.mem a = readByte s.mem a
  cache : ∀ a, icacheFetch t.icache a = icacheFetch s.icache a

/-- The environment's side of the state is untouched. -/
structure EnvironmentKept (s t : State) : Prop where
  busFailures : t.busFailures = s.busFailures
  busPolicy : t.busPolicy = s.busPolicy
  irqInput : t.irqInput = s.irqInput

/-- The program counters of an instruction that is not a taken branch or a jump (R136, R141). -/
structure Sequential (s t : State) : Prop where
  pc : t.pc = s.nextPc
  nextPc : t.nextPc = s.nextPc + 4#32
  slot : t.inBranchDelay = false

/-! ### Effects with their frames -/

/-- Register 0 reads 0; `rd` holds `v`; every other register holds what the retiring load left in it (R21, R23, R138). -/
def RegistersWritten (s t : State) (rd : Reg) (v : Word) : Prop :=
  ∀ r, readReg t r = if r = 0#5 then 0#32 else if r = rd then v else retiredReg s r

/-- No register is written but by the retiring load. -/
def RegistersRetired (s t : State) : Prop := ∀ r, readReg t r = retiredReg s r

/-- An instruction that writes one general register at once. -/
structure RegisterEffect (s t : State) (rd : Reg) (v : Word) : Prop where
  registers : RegistersWritten s t rd v
  holder : t.pendingLoad = none
  hiLo : HiLoKept s t
  control : ControlKept s t
  storage : StorageKept s t
  environment : EnvironmentKept s t
  draws : t.freeCount = s.freeCount
  flow : Sequential s t

/-- An instruction that writes HI and LO. -/
structure HiLoEffect (s t : State) (hi lo : Word) : Prop where
  registers : RegistersRetired s t
  holder : t.pendingLoad = none
  hi : t.hi = hi
  lo : t.lo = lo
  control : ControlKept s t
  storage : StorageKept s t
  environment : EnvironmentKept s t
  draws : t.freeCount = s.freeCount
  flow : Sequential s t

/-- An instruction that delivers `v` to `rt` one instruction late (R31, R282). -/
structure DelayedEffect (s t : State) (rt : Reg) (v : Word) : Prop where
  registers : RegistersRetired s t
  holder : t.pendingLoad = if rt = 0#5 then none else some ⟨rt, v⟩
  hiLo : HiLoKept s t
  control : ControlKept s t
  storage : StorageKept s t
  environment : EnvironmentKept s t
  flow : Sequential s t

/-- A store of the low `n` bytes of `v`, least significant first, at `addr` (R64). The bus may remove cached words and
changes none: under the policy `never` it removes none, under `always` the one of the aligned word address (R80). -/
structure StoreEffect (s t : State) (addr : Word) (n : Nat) (v : Word) : Prop where
  registers : RegistersRetired s t
  holder : t.pendingLoad = none
  hiLo : HiLoKept s t
  control : ControlKept s t
  stored : ∀ k < n, readByte t.mem (addr + BitVec.ofNat 32 k).toNat = v.extractLsb' (8 * k) 8
  memory : ∀ a, (∀ k < n, a ≠ (addr + BitVec.ofNat 32 k).toNat) → readByte t.mem a = readByte s.mem a
  cacheShrinks : ∀ a w, icacheFetch t.icache a = some w → icacheFetch s.icache a = some w
  cacheNever : s.busPolicy = .never → ∀ a, icacheFetch t.icache a = icacheFetch s.icache a
  cacheAlways : s.busPolicy = .always → ∀ a : Word, icacheFetch t.icache a =
    if a.toNat = addr.toNat / 4 * 4 then none else icacheFetch s.icache a
  environment : EnvironmentKept s t
  draws : t.freeCount = s.freeCount
  flow : Sequential s t

/-- A branch or jump: `link` is the register that receives the address after the delay slot, `target` is staged and the
slot marked when `taken` (R240, R241, R142). -/
structure TransferEffect (s t : State) (link : Option Reg) (taken : Prop) (target : Word) : Prop where
  registers : ∀ r, readReg t r =
    if r = 0#5 then 0#32 else if link = some r then s.nextPc + 4#32 else retiredReg s r
  holder : t.pendingLoad = none
  hiLo : HiLoKept s t
  control : ControlKept s t
  storage : StorageKept s t
  environment : EnvironmentKept s t
  draws : t.freeCount = s.freeCount
  pc : t.pc = s.nextPc
  whenTaken : taken → t.nextPc = target ∧ t.inBranchDelay = true
  whenNotTaken : ¬ taken → t.nextPc = s.nextPc + 4#32 ∧ t.inBranchDelay = false

/-- Exception entry with code `code`, restart address `addr`, delay-slot flag `bd`, leaving `bad` in BadVaddr (R335 to
R341), and nothing else changed but the retiring load (R342). -/
structure ExceptionEffect (s t : State) (code : BitVec 5) (addr : Word) (bd : Bool) (bad : Word) : Prop where
  modePushed : ∀ k < 6, t.status.getLsbD k = if k < 2 then false else s.status.getLsbD (k - 2)
  statusRest : ∀ k, 6 ≤ k → t.status.getLsbD k = s.status.getLsbD k
  codeField : t.cause.extractLsb' 2 5 = code
  branchDelay : t.cause.getLsbD 31 = bd
  causeRest : ∀ k, ¬ (2 ≤ k ∧ k ≤ 6) → k ≠ 31 → t.cause.getLsbD k = s.cause.getLsbD k
  epc : t.epc = if bd then addr - 4#32 else addr
  badVaddr : t.badVaddr = bad
  prid : t.prid = s.prid
  pc : t.pc = if s.status.getLsbD 22 then Config.vecBoot else Config.vecGeneral
  nextPc : t.nextPc = t.pc + 4#32
  slot : t.inBranchDelay = false
  holder : t.pendingLoad = none
  registers : RegistersRetired s t
  hiLo : HiLoKept s t
  storage : StorageKept s t
  environment : EnvironmentKept s t
  draws : t.freeCount = s.freeCount

/-- A load of `n` bytes at `addr`: where the bus answers, a value with the property is delivered to `rt` one instruction
late; where it does not, the step ends with BusFailure (R282, R283). -/
def LoadOutcome (i : Instr) (s : State) (rt : Reg) (addr : Word) (n : Nat) (value : Word → Prop) : Prop :=
  (BusAnswers s .load addr n →
    ∃ t v, exec i s = .next t ∧ DelayedEffect s t rt v ∧ value v ∧ t.freeCount = s.freeCount) ∧
  (¬ BusAnswers s .load addr n → exec i s = .fault (.busFailure addr .load))

/-- A store of the low `n` bytes of `v` at `addr`: where the bus answers, exactly these bytes are stored; where it does
not, the step ends with BusFailure (R64, R283). -/
def StoreOutcome (i : Instr) (s : State) (addr : Word) (n : Nat) (v : Word) : Prop :=
  (BusAnswers s .store addr n → ∃ t, exec i s = .next t ∧ StoreEffect s t addr n v) ∧
  (¬ BusAnswers s .store addr n → exec i s = .fault (.busFailure addr .store))

/-- The address error of a data access: the exception with BadVaddr = `addr`, whatever the bus would answer (R281). -/
def RaisesAddressError (i : Instr) (s : State) (code : BitVec 5) (addr : Word) : Prop :=
  ∃ t, exec i s = .next t ∧ ExceptionEffect s t code s.pc s.inBranchDelay addr

/-! ### Kinds of instruction -/

/-- The register that an instruction writes at once (R23), not counting loads and MFC0. -/
def immediateDestination : Instr → Option Reg
  | .add rd _ _ | .addu rd _ _ | .sub rd _ _ | .subu rd _ _ | .slt rd _ _ | .sltu rd _ _ => some rd
  | .addi rt _ _ | .addiu rt _ _ | .slti rt _ _ | .sltiu rt _ _ => some rt
  | .and rd _ _ | .or rd _ _ | .xor rd _ _ | .nor rd _ _ => some rd
  | .andi rt _ _ | .ori rt _ _ | .xori rt _ _ | .lui rt _ => some rt
  | .sll rd _ _ | .srl rd _ _ | .sra rd _ _ | .sllv rd _ _ | .srlv rd _ _ | .srav rd _ _ => some rd
  | .mfhi rd | .mflo rd => some rd
  | .bltzal _ _ | .bgezal _ _ | .jal _ => some 31#5
  | .jalr rd _ => some rd
  | .mult .. | .multu .. | .div .. | .divu .. | .mthi .. | .mtlo .. => none
  | .beq .. | .bne .. | .blez .. | .bgtz .. | .bltz .. | .bgez .. | .j .. | .jr .. => none
  | .lb .. | .lbu .. | .lh .. | .lhu .. | .lw .. | .lwl .. | .lwr .. => none
  | .sb .. | .sh .. | .sw .. | .swl .. | .swr .. => none
  | .syscall .. | .brk .. | .mfc0 .. | .mtc0 .. | .rfe => none

/-- MULT, MULTU, DIV, DIVU, MTHI, MTLO (R29). -/
def WritesHiLo : Instr → Prop
  | .mult .. | .multu .. | .div .. | .divu .. | .mthi .. | .mtlo .. => True
  | _ => False

/-- SB, SH, SW, SWL, SWR. -/
def IsStore : Instr → Prop
  | .sb .. | .sh .. | .sw .. | .swl .. | .swr .. => True
  | _ => False

/-- The branches and jumps. -/
def IsTransfer : Instr → Prop
  | .beq .. | .bne .. | .blez .. | .bgtz .. | .bltz .. | .bgez .. | .bltzal .. | .bgezal ..
  | .j .. | .jal .. | .jr .. | .jalr .. => True
  | _ => False

/-- The bits of a word that the instruction's row of the table does not list as ignored (R104, "ignored_bits"), and the
code field of SYSCALL and BREAK, which the model keeps as an operand although no rule interprets it (R310, R311). -/
def usedBits : Instr → Word
  | .add .. | .addu .. | .sub .. | .subu .. | .slt .. | .sltu .. => 0xFFFFF83F#32
  | .and .. | .or .. | .xor .. | .nor .. | .sllv .. | .srlv .. | .srav .. => 0xFFFFF83F#32
  | .addi .. | .addiu .. | .slti .. | .sltiu .. | .andi .. | .ori .. | .xori .. => 0xFFFFFFFF#32
  | .lui .. => 0xFC1FFFFF#32
  | .sll .. | .srl .. | .sra .. => 0xFC1FFFFF#32
  | .mult .. | .multu .. | .div .. | .divu .. => 0xFFFF003F#32
  | .mfhi .. | .mflo .. => 0xFC00F83F#32
  | .mthi .. | .mtlo .. | .jr .. => 0xFFE0003F#32
  | .beq .. | .bne .. => 0xFFFFFFFF#32
  | .blez .. | .bgtz .. => 0xFFE0FFFF#32
  | .bltz .. | .bgez .. | .bltzal .. | .bgezal .. => 0xFFF1FFFF#32
  | .j .. | .jal .. => 0xFFFFFFFF#32
  | .jalr .. => 0xFFE0F83F#32
  | .lb .. | .lbu .. | .lh .. | .lhu .. | .lw .. | .lwl .. | .lwr .. => 0xFFFFFFFF#32
  | .sb .. | .sh .. | .sw .. | .swl .. | .swr .. => 0xFFFFFFFF#32
  | .syscall .. | .brk .. => 0xFFFFFFFF#32
  | .mfc0 .. | .mtc0 .. => 0xFFFFF800#32
  | .rfe => 0xFE00003F#32

/-! ### Interrupts and the fetch -/

/-- Bit `8 + k` of Cause once the line has been sampled into `EXT_IRQ_BIT` (R345; log entry 8). -/
def pendingBit (s : State) (k : Nat) : Bool :=
  if 8 + k = Config.extIrqBit then s.irqInput.headD false else s.cause.getLsbD (8 + k)

/-- The delivery condition of R346 at the top of the step. -/
def InterruptDue (s : State) : Prop :=
  s.status.getLsbD 0 = true ∧ ∃ k < 8, pendingBit s k = true ∧ s.status.getLsbD (8 + k) = true

/-- The step fetches the word `w` at `pc`: from the cache, or on a miss from the bus (R72). -/
def Fetches (s : State) (w : Word) : Prop :=
  icacheFetch s.icache s.pc = some w ∨
    (icacheFetch s.icache s.pc = none ∧ BusAnswers s .fetch s.pc 4 ∧ w.toNat = littleEndian s s.pc 4)

/-- The state in which the instruction of the step runs: the line sampled, the fetched word cached (R130 lines 3 and
11). -/
def afterFetch (s : State) (w : Word) : State :=
  { sampleIrq s with icache := icacheStore s.icache s.pc w }

end Sys2Proof.Claims

open Sys2Proof Sys2Proof.Machine Sys2Proof.Claims

/-! ### Encoding -/

/-- No bit of an operand is lost: decoding the encoding of a well-formed instruction gives it back (R101 to R110). -/
def Obligations.DecodeOfEncodeIsTheInstruction : Prop :=
  ∀ i : Instr, i.wellFormed = true → decode (encode i) = .instr i

/-- A decoded instruction is well-formed, and its encoding differs from the decoded word only in ignored bits (R104). -/
def Obligations.DecodedInstructionEncodesTheUsedBits : Prop :=
  ∀ (w : Word) (i : Instr), decode w = .instr i →
    i.wellFormed = true ∧ encode i &&& usedBits i = w &&& usedBits i

/-- "A field an instruction does not use is ignored, whatever it holds" (R104). -/
def Obligations.IgnoredBitsDoNotChangeTheInstruction : Prop :=
  ∀ (w w' : Word) (i : Instr), decode w = .instr i → w' &&& usedBits i = w &&& usedBits i → decode w' = .instr i

/-- "Every 32-bit word falls in exactly one of three classes": the reserved encodings are exactly those marked reserved in
the maps of R107 and R108, the refused coprocessor space exactly that of R112; every other word is a defined instruction
(R106). -/
def Obligations.WordClassesAreThoseOfTheMaps : Prop :=
  ∀ w : Word, (decode w = .reserved ↔ ReservedWord w) ∧ (decode w = .coprocessor ↔ RefusedWord w)

/-- One word of each family, written out bit by bit (R101 to R103, R107 to R110). -/
def Obligations.FamilyWordsDecode : Prop :=
  decode 0b00000000001000100001100000100000#32 = .instr (.add 3#5 1#5 2#5) ∧
  decode 0b00110000001000101111111111111111#32 = .instr (.andi 2#5 1#5 0xFFFF#16) ∧
  decode 0b00000000001000100001100000000111#32 = .instr (.srav 3#5 2#5 1#5) ∧
  decode 0b00000000001000100000000000011010#32 = .instr (.div 1#5 2#5) ∧
  decode 0b00000100001100110000000000000010#32 = .instr (.bgezal 1#5 2#16) ∧
  decode 0b00001100000000000100000000000000#32 = .instr (.jal 0x4000#26) ∧
  decode 0b10101000001000100000000000000100#32 = .instr (.swl 2#5 1#5 4#16) ∧
  decode 0b01000000000110100110100000000000#32 = .instr (.mfc0 26#5 13)

/-! ### The step -/

/-- A step in which no interrupt is due runs the instruction that the fetched word decodes to, in the state with the
line sampled and the word cached (R130, R135, R139). -/
def Obligations.StepRunsTheDecodedInstruction : Prop :=
  ∀ (s : State) (w : Word) (i : Instr), ¬ InterruptDue s → s.pc.toNat % 4 = 0 → Fetches s w → decode w = .instr i →
    step s = exec i (afterFetch s w)

/-- "An interrupt is taken in a step exactly when, after the sampling" the enable bit is set and an unmasked bit is
pending; then nothing is fetched, the retiring load is committed, and Enter(EXC_INT, pc, cur_in_delay) is performed
(R346, R133). -/
def Obligations.InterruptIsTakenExactlyWhenDue : Prop :=
  ∀ s : State,
    (InterruptDue s →
      ∃ t, step s = .next t ∧ ExceptionEffect (sampleIrq s) t Config.excInt s.pc s.inBranchDelay s.badVaddr) ∧
    (¬ InterruptDue s → step s = stepInstruction (sampleIrq s))

/-- "the bit follows it every step": after every step the Cause bit `EXT_IRQ_BIT` is the level sampled at its top,
whatever the step did, and one level of the input is used up (R345, log entry 8; the input list is the model's, log
entry 2). The Cause bits with no meaning, 0, 1, 7 and 16 to 30, are never written (R36). -/
def Obligations.EveryStepMirrorsTheInterruptLine : Prop :=
  ∀ s t : State, step s = .next t →
    t.cause.getLsbD Config.extIrqBit = s.irqInput.headD false ∧ t.irqInput = s.irqInput.tail ∧
    ∀ k, (k = 0 ∨ k = 1 ∨ k = 7 ∨ (16 ≤ k ∧ k ≤ 30)) → t.cause.getLsbD k = s.cause.getLsbD k

/-- A fetch from an address that is not a multiple of 4 raises the address error with BadVaddr and the restart address
at that address, before any bus access (R134). -/
def Obligations.MisalignedFetchRaisesAddressError : Prop :=
  ∀ s : State, ¬ InterruptDue s → s.pc.toNat % 4 ≠ 0 →
    ∃ t, step s = .next t ∧ ExceptionEffect (sampleIrq s) t Config.excAdel s.pc s.inBranchDelay s.pc

/-- Executing a word marked reserved raises EXC_RI with restart address cur_pc; no register is written but by the retiring
load (R111, R139). -/
def Obligations.ReservedWordRaisesReservedInstruction : Prop :=
  ∀ (s : State) (w : Word), ¬ InterruptDue s → s.pc.toNat % 4 = 0 → Fetches s w → ReservedWord w →
    ∃ t, step s = .next t ∧ ExceptionEffect (afterFetch s w) t Config.excRi s.pc s.inBranchDelay s.badVaddr

/-- The two ways a step gives no next state before an instruction runs: a word of the refused coprocessor space ends it
with Refused(word) (R112, R139), and a fetch that misses the cache where the bus fails ends it with BusFailure(cur_pc,
fetch) (R65, R135). Derived: of R65 and R135 it states the failing fetch only. -/
def Obligations.StepStopsOnCoprocessorWordOrFailingFetch : Prop :=
  ∀ s : State, ¬ InterruptDue s → s.pc.toNat % 4 = 0 →
    (∀ w, Fetches s w → RefusedWord w → step s = .refused (.coprocessor w)) ∧
    (icacheFetch s.icache s.pc = none → ¬ BusAnswers s .fetch s.pc 4 → step s = .fault (.busFailure s.pc .fetch))

/-! ### Arithmetic -/

/-- ADD, SUB, ADDI: the mathematical result is written and the instruction completes when it fits in 32 signed bits;
otherwise Overflow is raised and nothing is written (R163, R165, R169). -/
def Obligations.CheckedAddSubWritesOrTraps : Prop :=
  Encodes 0xFC00003F#32 0x00000020#32 (fun w => .add (fieldRd w) (fieldRs w) (fieldRt w)) ∧
  Encodes 0xFC00003F#32 0x00000022#32 (fun w => .sub (fieldRd w) (fieldRs w) (fieldRt w)) ∧
  Encodes 0xFC000000#32 0x20000000#32 (fun w => .addi (fieldRt w) (fieldRs w) (fieldImm w)) ∧
  ∀ (d a b : Reg) (imm : BitVec 16) (s : State) (x : Int),
    (x = (readReg s a).toInt + (readReg s b).toInt →
      (-2 ^ 31 ≤ x ∧ x ≤ 2 ^ 31 - 1 → ∃ t v, exec (.add d a b) s = .next t ∧ RegisterEffect s t d v ∧ v.toInt = x) ∧
      (¬ (-2 ^ 31 ≤ x ∧ x ≤ 2 ^ 31 - 1) →
        ∃ t, exec (.add d a b) s = .next t ∧ ExceptionEffect s t Config.excOv s.pc s.inBranchDelay s.badVaddr)) ∧
    (x = (readReg s a).toInt - (readReg s b).toInt →
      (-2 ^ 31 ≤ x ∧ x ≤ 2 ^ 31 - 1 → ∃ t v, exec (.sub d a b) s = .next t ∧ RegisterEffect s t d v ∧ v.toInt = x) ∧
      (¬ (-2 ^ 31 ≤ x ∧ x ≤ 2 ^ 31 - 1) →
        ∃ t, exec (.sub d a b) s = .next t ∧ ExceptionEffect s t Config.excOv s.pc s.inBranchDelay s.badVaddr)) ∧
    (x = (readReg s a).toInt + imm.toInt →
      (-2 ^ 31 ≤ x ∧ x ≤ 2 ^ 31 - 1 → ∃ t v, exec (.addi d a imm) s = .next t ∧ RegisterEffect s t d v ∧ v.toInt = x) ∧
      (¬ (-2 ^ 31 ≤ x ∧ x ≤ 2 ^ 31 - 1) →
        ∃ t, exec (.addi d a imm) s = .next t ∧ ExceptionEffect s t Config.excOv s.pc s.inBranchDelay s.badVaddr))

/-- Overflow (R161): the mathematical sum or difference leaves the signed range exactly when, for ADD, the operands have
the same sign bit and the 32-bit sum has the other, for SUB, they have different sign bits and the 32-bit difference has
the sign bit of b. ADD and SUB trap exactly then, whatever the destination, and otherwise write the 32-bit result; ADDI
traps when its mathematical sum leaves the range. -/
def Obligations.OverflowIsTheSignRule : Prop :=
  ∀ (d a b : Reg) (imm : BitVec 16) (s : State) (x y : Word), x = readReg s a → y = readReg s b →
    (x.toInt + y.toInt < -2 ^ 31 ∨ 2 ^ 31 - 1 < x.toInt + y.toInt ↔
      x.getLsbD 31 = y.getLsbD 31 ∧ (x + y).getLsbD 31 ≠ x.getLsbD 31) ∧
    (x.toInt - y.toInt < -2 ^ 31 ∨ 2 ^ 31 - 1 < x.toInt - y.toInt ↔
      x.getLsbD 31 ≠ y.getLsbD 31 ∧ (x - y).getLsbD 31 = y.getLsbD 31) ∧
    (x.getLsbD 31 = y.getLsbD 31 ∧ (x + y).getLsbD 31 ≠ x.getLsbD 31 →
      ∃ t, exec (.add d a b) s = .next t ∧ ExceptionEffect s t Config.excOv s.pc s.inBranchDelay s.badVaddr) ∧
    (¬ (x.getLsbD 31 = y.getLsbD 31 ∧ (x + y).getLsbD 31 ≠ x.getLsbD 31) →
      ∃ t, exec (.add d a b) s = .next t ∧ RegisterEffect s t d (x + y)) ∧
    (x.getLsbD 31 ≠ y.getLsbD 31 ∧ (x - y).getLsbD 31 = y.getLsbD 31 →
      ∃ t, exec (.sub d a b) s = .next t ∧ ExceptionEffect s t Config.excOv s.pc s.inBranchDelay s.badVaddr) ∧
    (¬ (x.getLsbD 31 ≠ y.getLsbD 31 ∧ (x - y).getLsbD 31 = y.getLsbD 31) →
      ∃ t, exec (.sub d a b) s = .next t ∧ RegisterEffect s t d (x - y)) ∧
    (x.toInt + imm.toInt < -2 ^ 31 ∨ 2 ^ 31 - 1 < x.toInt + imm.toInt →
      ∃ t, exec (.addi d a imm) s = .next t ∧ ExceptionEffect s t Config.excOv s.pc s.inBranchDelay s.badVaddr)

/-- ADDU, SUBU, ADDIU write the result modulo 2^32 and never trap; ADDIU sign-extends its immediate (R164, R166,
R170). -/
def Obligations.UnsignedAddSubWraps : Prop :=
  Encodes 0xFC00003F#32 0x00000021#32 (fun w => .addu (fieldRd w) (fieldRs w) (fieldRt w)) ∧
  Encodes 0xFC00003F#32 0x00000023#32 (fun w => .subu (fieldRd w) (fieldRs w) (fieldRt w)) ∧
  Encodes 0xFC000000#32 0x24000000#32 (fun w => .addiu (fieldRt w) (fieldRs w) (fieldImm w)) ∧
  ∀ (d a b : Reg) (imm : BitVec 16) (s : State),
    (∃ t v, exec (.addu d a b) s = .next t ∧ RegisterEffect s t d v ∧
      v.toNat = ((readReg s a).toNat + (readReg s b).toNat) % 2 ^ 32) ∧
    (∃ t v, exec (.subu d a b) s = .next t ∧ RegisterEffect s t d v ∧
      (v.toNat : Int) = ((readReg s a).toNat - (readReg s b).toNat : Int) % 2 ^ 32) ∧
    (∃ t v, exec (.addiu d a imm) s = .next t ∧ RegisterEffect s t d v ∧
      (v.toNat : Int) = ((readReg s a).toNat + imm.toInt) % 2 ^ 32)

/-- SLT, SLTI compare signed, SLTU, SLTIU unsigned, and write 1 or 0; SLTIU's immediate is sign-extended before the
unsigned comparison (R167, R168, R171, R172). -/
def Obligations.SetLessThanWritesOneOrZero : Prop :=
  Encodes 0xFC00003F#32 0x0000002A#32 (fun w => .slt (fieldRd w) (fieldRs w) (fieldRt w)) ∧
  Encodes 0xFC00003F#32 0x0000002B#32 (fun w => .sltu (fieldRd w) (fieldRs w) (fieldRt w)) ∧
  Encodes 0xFC000000#32 0x28000000#32 (fun w => .slti (fieldRt w) (fieldRs w) (fieldImm w)) ∧
  Encodes 0xFC000000#32 0x2C000000#32 (fun w => .sltiu (fieldRt w) (fieldRs w) (fieldImm w)) ∧
  ∀ (d a b : Reg) (imm : BitVec 16) (s : State),
    (∃ t, exec (.slt d a b) s = .next t ∧
      RegisterEffect s t d (if (readReg s a).toInt < (readReg s b).toInt then 1#32 else 0#32)) ∧
    (∃ t, exec (.sltu d a b) s = .next t ∧
      RegisterEffect s t d (if (readReg s a).toNat < (readReg s b).toNat then 1#32 else 0#32)) ∧
    (∃ t, exec (.slti d a imm) s = .next t ∧
      RegisterEffect s t d (if (readReg s a).toInt < imm.toInt then 1#32 else 0#32)) ∧
    (∃ t, exec (.sltiu d a imm) s = .next t ∧
      RegisterEffect s t d (if ((readReg s a).toNat : Int) < imm.toInt % 2 ^ 32 then 1#32 else 0#32))

/-! ### Logical -/

/-- AND, OR, XOR, NOR act bit by bit (R181 to R184). -/
def Obligations.LogicalRegisterFormsAreBitwise : Prop :=
  Encodes 0xFC00003F#32 0x00000024#32 (fun w => .and (fieldRd w) (fieldRs w) (fieldRt w)) ∧
  Encodes 0xFC00003F#32 0x00000025#32 (fun w => .or (fieldRd w) (fieldRs w) (fieldRt w)) ∧
  Encodes 0xFC00003F#32 0x00000026#32 (fun w => .xor (fieldRd w) (fieldRs w) (fieldRt w)) ∧
  Encodes 0xFC00003F#32 0x00000027#32 (fun w => .nor (fieldRd w) (fieldRs w) (fieldRt w)) ∧
  ∀ (d a b : Reg) (s : State),
    (∃ t v, exec (.and d a b) s = .next t ∧ RegisterEffect s t d v ∧
      ∀ k < 32, v.getLsbD k = ((readReg s a).getLsbD k && (readReg s b).getLsbD k)) ∧
    (∃ t v, exec (.or d a b) s = .next t ∧ RegisterEffect s t d v ∧
      ∀ k < 32, v.getLsbD k = ((readReg s a).getLsbD k || (readReg s b).getLsbD k)) ∧
    (∃ t v, exec (.xor d a b) s = .next t ∧ RegisterEffect s t d v ∧
      ∀ k < 32, v.getLsbD k = ((readReg s a).getLsbD k != (readReg s b).getLsbD k)) ∧
    (∃ t v, exec (.nor d a b) s = .next t ∧ RegisterEffect s t d v ∧
      ∀ k < 32, v.getLsbD k = !((readReg s a).getLsbD k || (readReg s b).getLsbD k))

/-- ANDI, ORI, XORI act bit by bit with bits 31 to 16 of the immediate zero; LUI puts the immediate into the upper half
over zeros (R185 to R188). -/
def Obligations.LogicalImmediatesAreZeroExtended : Prop :=
  Encodes 0xFC000000#32 0x30000000#32 (fun w => .andi (fieldRt w) (fieldRs w) (fieldImm w)) ∧
  Encodes 0xFC000000#32 0x34000000#32 (fun w => .ori (fieldRt w) (fieldRs w) (fieldImm w)) ∧
  Encodes 0xFC000000#32 0x38000000#32 (fun w => .xori (fieldRt w) (fieldRs w) (fieldImm w)) ∧
  Encodes 0xFC000000#32 0x3C000000#32 (fun w => .lui (fieldRt w) (fieldImm w)) ∧
  ∀ (d a : Reg) (imm : BitVec 16) (s : State),
    (∃ t v, exec (.andi d a imm) s = .next t ∧ RegisterEffect s t d v ∧
      ∀ k < 32, v.getLsbD k = if k < 16 then (readReg s a).getLsbD k && imm.getLsbD k else false) ∧
    (∃ t v, exec (.ori d a imm) s = .next t ∧ RegisterEffect s t d v ∧
      ∀ k < 32, v.getLsbD k = if k < 16 then (readReg s a).getLsbD k || imm.getLsbD k else (readReg s a).getLsbD k) ∧
    (∃ t v, exec (.xori d a imm) s = .next t ∧ RegisterEffect s t d v ∧
      ∀ k < 32, v.getLsbD k =
        if k < 16 then (readReg s a).getLsbD k != imm.getLsbD k else (readReg s a).getLsbD k) ∧
    (∃ t v, exec (.lui d imm) s = .next t ∧ RegisterEffect s t d v ∧ v.toNat = imm.toNat * 65536)

/-! ### Shift -/

/-- SLL multiplies by 2^shamt modulo 2^32, SRL divides the unsigned value, SRA divides the signed value rounding toward
minus infinity (R201 to R203). -/
def Obligations.FixedShiftsAreScalings : Prop :=
  Encodes 0xFC00003F#32 0x00000000#32 (fun w => .sll (fieldRd w) (fieldRt w) (fieldShamt w).toNat) ∧
  Encodes 0xFC00003F#32 0x00000002#32 (fun w => .srl (fieldRd w) (fieldRt w) (fieldShamt w).toNat) ∧
  Encodes 0xFC00003F#32 0x00000003#32 (fun w => .sra (fieldRd w) (fieldRt w) (fieldShamt w).toNat) ∧
  ∀ (d b : Reg) (shamt : Nat) (s : State),
    (∃ t v, exec (.sll d b shamt) s = .next t ∧ RegisterEffect s t d v ∧
      v.toNat = (readReg s b).toNat * 2 ^ shamt % 2 ^ 32) ∧
    (∃ t v, exec (.srl d b shamt) s = .next t ∧ RegisterEffect s t d v ∧
      v.toNat = (readReg s b).toNat / 2 ^ shamt) ∧
    (∃ t v, exec (.sra d b shamt) s = .next t ∧ RegisterEffect s t d v ∧
      v.toInt = (readReg s b).toInt / 2 ^ shamt)

/-- SLLV, SRLV, SRAV shift by the low 5 bits of x[rs]: a count of 32 shifts by 0 (R200, R204 to R206). -/
def Obligations.VariableShiftsUseTheLowFiveBits : Prop :=
  Encodes 0xFC00003F#32 0x00000004#32 (fun w => .sllv (fieldRd w) (fieldRt w) (fieldRs w)) ∧
  Encodes 0xFC00003F#32 0x00000006#32 (fun w => .srlv (fieldRd w) (fieldRt w) (fieldRs w)) ∧
  Encodes 0xFC00003F#32 0x00000007#32 (fun w => .srav (fieldRd w) (fieldRt w) (fieldRs w)) ∧
  ∀ (d b a : Reg) (s : State),
    (∃ t v, exec (.sllv d b a) s = .next t ∧ RegisterEffect s t d v ∧
      v.toNat = (readReg s b).toNat * 2 ^ ((readReg s a).toNat % 32) % 2 ^ 32) ∧
    (∃ t v, exec (.srlv d b a) s = .next t ∧ RegisterEffect s t d v ∧
      v.toNat = (readReg s b).toNat / 2 ^ ((readReg s a).toNat % 32)) ∧
    (∃ t v, exec (.srav d b a) s = .next t ∧ RegisterEffect s t d v ∧
      v.toInt = (readReg s b).toInt / 2 ^ ((readReg s a).toNat % 32))

/-! ### Multiply and divide -/

/-- MULT and MULTU write the exact 64-bit product across hi:lo (R221, R222). -/
def Obligations.MultiplyWritesTheExactProduct : Prop :=
  Encodes 0xFC00003F#32 0x00000018#32 (fun w => .mult (fieldRs w) (fieldRt w)) ∧
  Encodes 0xFC00003F#32 0x00000019#32 (fun w => .multu (fieldRs w) (fieldRt w)) ∧
  ∀ (a b : Reg) (s : State),
    (∃ t hi lo, exec (.mult a b) s = .next t ∧ HiLoEffect s t hi lo ∧
      hi.toInt * 2 ^ 32 + lo.toNat = (readReg s a).toInt * (readReg s b).toInt) ∧
    (∃ t hi lo, exec (.multu a b) s = .next t ∧ HiLoEffect s t hi lo ∧
      hi.toNat * 2 ^ 32 + lo.toNat = (readReg s a).toNat * (readReg s b).toNat)

/-- DIV (R223): by 0 it writes lo = 0xFFFFFFFF or 1 by the numerator's sign and hi = the numerator; the signed-overflow
case gives lo = the minimum, hi = 0; otherwise the quotient rounded toward zero in lo and the remainder, with the sign of
the numerator, in hi. No form traps. -/
def Obligations.SignedDivideIsTotal : Prop :=
  Encodes 0xFC00003F#32 0x0000001A#32 (fun w => .div (fieldRs w) (fieldRt w)) ∧
  ∀ (a b : Reg) (s : State),
    (readReg s b = 0#32 → 0 ≤ (readReg s a).toInt →
      ∃ t, exec (.div a b) s = .next t ∧ HiLoEffect s t (readReg s a) 0xFFFFFFFF#32) ∧
    (readReg s b = 0#32 → (readReg s a).toInt < 0 →
      ∃ t, exec (.div a b) s = .next t ∧ HiLoEffect s t (readReg s a) 1#32) ∧
    (readReg s a = 0x80000000#32 → readReg s b = 0xFFFFFFFF#32 →
      ∃ t, exec (.div a b) s = .next t ∧ HiLoEffect s t 0#32 0x80000000#32) ∧
    (readReg s b ≠ 0#32 → ¬ (readReg s a = 0x80000000#32 ∧ readReg s b = 0xFFFFFFFF#32) →
      ∃ t hi lo, exec (.div a b) s = .next t ∧ HiLoEffect s t hi lo ∧
        lo.toInt * (readReg s b).toInt + hi.toInt = (readReg s a).toInt ∧
        hi.toInt.natAbs < (readReg s b).toInt.natAbs ∧
        (0 ≤ (readReg s a).toInt → 0 ≤ hi.toInt) ∧ ((readReg s a).toInt ≤ 0 → hi.toInt ≤ 0))

/-- DIVU: by 0 it writes lo = 0xFFFFFFFF and hi = the numerator, otherwise the quotient and the remainder (R224). -/
def Obligations.UnsignedDivideWritesQuotientAndRemainder : Prop :=
  Encodes 0xFC00003F#32 0x0000001B#32 (fun w => .divu (fieldRs w) (fieldRt w)) ∧
  ∀ (a b : Reg) (s : State),
    (readReg s b = 0#32 → ∃ t, exec (.divu a b) s = .next t ∧ HiLoEffect s t (readReg s a) 0xFFFFFFFF#32) ∧
    (readReg s b ≠ 0#32 → ∃ t hi lo, exec (.divu a b) s = .next t ∧ HiLoEffect s t hi lo ∧
      lo.toNat * (readReg s b).toNat + hi.toNat = (readReg s a).toNat ∧ hi.toNat < (readReg s b).toNat)

/-- MFHI, MFLO, MTHI, MTLO (R225 to R228). -/
def Obligations.HiLoMoves : Prop :=
  Encodes 0xFC00003F#32 0x00000010#32 (fun w => .mfhi (fieldRd w)) ∧
  Encodes 0xFC00003F#32 0x00000012#32 (fun w => .mflo (fieldRd w)) ∧
  Encodes 0xFC00003F#32 0x00000011#32 (fun w => .mthi (fieldRs w)) ∧
  Encodes 0xFC00003F#32 0x00000013#32 (fun w => .mtlo (fieldRs w)) ∧
  ∀ (r : Reg) (s : State),
    (∃ t, exec (.mfhi r) s = .next t ∧ RegisterEffect s t r s.hi) ∧
    (∃ t, exec (.mflo r) s = .next t ∧ RegisterEffect s t r s.lo) ∧
    (∃ t, exec (.mthi r) s = .next t ∧ HiLoEffect s t (readReg s r) s.lo) ∧
    (∃ t, exec (.mtlo r) s = .next t ∧ HiLoEffect s t s.hi (readReg s r))

/-- "hi and lo ... are written only by MULT, MULTU, DIV, DIVU, MTHI, MTLO" (R29). -/
def Obligations.OnlyMultiplyDivideAndMovesWriteHiLo : Prop :=
  ∀ (i : Instr) (s t : State), exec i s = .next t → ¬ WritesHiLo i → HiLoKept s t

/-! ### Branch and jump -/

/-- The branches without link: condition, target from the delay-slot address `s.nextPc`, delay-slot mark (R240, R241,
R244 to R247, R249, R250). -/
def Obligations.BranchesStageTheirTarget : Prop :=
  Encodes 0xFC000000#32 0x10000000#32 (fun w => .beq (fieldRs w) (fieldRt w) (fieldImm w)) ∧
  Encodes 0xFC000000#32 0x14000000#32 (fun w => .bne (fieldRs w) (fieldRt w) (fieldImm w)) ∧
  Encodes 0xFC000000#32 0x18000000#32 (fun w => .blez (fieldRs w) (fieldImm w)) ∧
  Encodes 0xFC000000#32 0x1C000000#32 (fun w => .bgtz (fieldRs w) (fieldImm w)) ∧
  Encodes 0xFC110000#32 0x04000000#32 (fun w => .bltz (fieldRs w) (fieldImm w)) ∧
  Encodes 0xFC110000#32 0x04010000#32 (fun w => .bgez (fieldRs w) (fieldImm w)) ∧
  ∀ (a b : Reg) (imm : BitVec 16) (s : State) (target : Word),
    target = BitVec.ofInt 32 (s.nextPc.toNat + 4 * imm.toInt) →
    (∃ t, exec (.beq a b imm) s = .next t ∧ TransferEffect s t none (readReg s a = readReg s b) target) ∧
    (∃ t, exec (.bne a b imm) s = .next t ∧ TransferEffect s t none (readReg s a ≠ readReg s b) target) ∧
    (∃ t, exec (.blez a imm) s = .next t ∧ TransferEffect s t none ((readReg s a).toInt ≤ 0) target) ∧
    (∃ t, exec (.bgtz a imm) s = .next t ∧ TransferEffect s t none (0 < (readReg s a).toInt) target) ∧
    (∃ t, exec (.bltz a imm) s = .next t ∧ TransferEffect s t none ((readReg s a).toInt < 0) target) ∧
    (∃ t, exec (.bgez a imm) s = .next t ∧ TransferEffect s t none (0 ≤ (readReg s a).toInt) target)

/-- BLTZAL and BGEZAL save the address after the delay slot in register 31 whether or not they are taken; with rs = 31
the condition uses the old x[31] (R248, R251, R252). -/
def Obligations.LinkingBranchesAlwaysLink : Prop :=
  Encodes 0xFC110000#32 0x04100000#32 (fun w => .bltzal (fieldRs w) (fieldImm w)) ∧
  Encodes 0xFC110000#32 0x04110000#32 (fun w => .bgezal (fieldRs w) (fieldImm w)) ∧
  ∀ (a : Reg) (imm : BitVec 16) (s : State) (target : Word),
    target = BitVec.ofInt 32 (s.nextPc.toNat + 4 * imm.toInt) →
    (∃ t, exec (.bltzal a imm) s = .next t ∧
      TransferEffect s t (some 31#5) ((readReg s a).toInt < 0) target) ∧
    (∃ t, exec (.bgezal a imm) s = .next t ∧
      TransferEffect s t (some 31#5) (0 ≤ (readReg s a).toInt) target)

/-- J and JAL keep the top 4 bits of the delay-slot address and splice in target * 4; JAL links (R260, R261). -/
def Obligations.RegionJumpsKeepTheTopBits : Prop :=
  Encodes 0xFC000000#32 0x08000000#32 (fun w => .j (fieldTarget w)) ∧
  Encodes 0xFC000000#32 0x0C000000#32 (fun w => .jal (fieldTarget w)) ∧
  ∀ (field : BitVec 26) (s : State),
    (∃ t target, exec (.j field) s = .next t ∧ TransferEffect s t none True target ∧
      target.toNat = s.nextPc.toNat / 2 ^ 28 * 2 ^ 28 + field.toNat * 4) ∧
    (∃ t target, exec (.jal field) s = .next t ∧ TransferEffect s t (some 31#5) True target ∧
      target.toNat = s.nextPc.toNat / 2 ^ 28 * 2 ^ 28 + field.toNat * 4)

/-- JR jumps to any 32-bit value without a check (R262). JALR links before it reads its target: rs = rd jumps to the link
value, register 0 as both jumps to 0, otherwise the target is the operand-phase value of rs (R263). -/
def Obligations.RegisterJumpsTakeAnyTarget : Prop :=
  Encodes 0xFC00003F#32 0x00000008#32 (fun w => .jr (fieldRs w)) ∧
  Encodes 0xFC00003F#32 0x00000009#32 (fun w => .jalr (fieldRd w) (fieldRs w)) ∧
  ∀ (d a : Reg) (s : State),
    (∃ t, exec (.jr a) s = .next t ∧ TransferEffect s t none True (readReg s a)) ∧
    (a ≠ d → ∃ t, exec (.jalr d a) s = .next t ∧ TransferEffect s t (some d) True (readReg s a)) ∧
    (a = d → d ≠ 0#5 → ∃ t, exec (.jalr d a) s = .next t ∧ TransferEffect s t (some d) True (s.nextPc + 4#32)) ∧
    (a = d → d = 0#5 → ∃ t, exec (.jalr d a) s = .next t ∧ TransferEffect s t (some d) True 0#32)

/-- "It is set only by a branch that is taken and by every J, JAL, JR, JALR" (R32): after a step that leaves the mark set
the step ran a branch or a jump. -/
def Obligations.OnlyTransfersMarkADelaySlot : Prop :=
  ∀ (s t : State), step s = .next t → t.inBranchDelay = true →
    ∃ w i, Fetches s w ∧ decode w = .instr i ∧ IsTransfer i

/-! ### Loads -/

/-- LB, LBU, LH, LHU, LW read their bytes at `a + sext_32(imm)` and deliver the extended value one instruction late, when
the address is aligned and the bus answers; a misaligned LH, LHU, LW raises the address error with BadVaddr = the
address; a failing bus ends the step (R281 to R283, R285 to R289). -/
def Obligations.LoadsDeliverTheirValueLate : Prop :=
  Encodes 0xFC000000#32 0x80000000#32 (fun w => .lb (fieldRt w) (fieldRs w) (fieldImm w)) ∧
  Encodes 0xFC000000#32 0x90000000#32 (fun w => .lbu (fieldRt w) (fieldRs w) (fieldImm w)) ∧
  Encodes 0xFC000000#32 0x84000000#32 (fun w => .lh (fieldRt w) (fieldRs w) (fieldImm w)) ∧
  Encodes 0xFC000000#32 0x94000000#32 (fun w => .lhu (fieldRt w) (fieldRs w) (fieldImm w)) ∧
  Encodes 0xFC000000#32 0x8C000000#32 (fun w => .lw (fieldRt w) (fieldRs w) (fieldImm w)) ∧
  ∀ (rt base : Reg) (offset : BitVec 16) (s : State) (addr : Word),
    addr = BitVec.ofInt 32 ((readReg s base).toNat + offset.toInt) →
    LoadOutcome (.lb rt base offset) s rt addr 1 (fun v => v.toInt = signedValue 8 (littleEndian s addr 1)) ∧
    LoadOutcome (.lbu rt base offset) s rt addr 1 (fun v => v.toNat = littleEndian s addr 1) ∧
    (addr.toNat % 2 = 0 →
      LoadOutcome (.lh rt base offset) s rt addr 2 (fun v => v.toInt = signedValue 16 (littleEndian s addr 2)) ∧
      LoadOutcome (.lhu rt base offset) s rt addr 2 (fun v => v.toNat = littleEndian s addr 2)) ∧
    (addr.toNat % 4 = 0 →
      LoadOutcome (.lw rt base offset) s rt addr 4 (fun v => v.toNat = littleEndian s addr 4)) ∧
    (addr.toNat % 2 ≠ 0 →
      RaisesAddressError (.lh rt base offset) s Config.excAdel addr ∧
      RaisesAddressError (.lhu rt base offset) s Config.excAdel addr) ∧
    (addr.toNat % 4 ≠ 0 → RaisesAddressError (.lw rt base offset) s Config.excAdel addr)

/-- LWL and LWR, byte by byte: with lane k = addr mod 4, LWL puts the bytes of the aligned word up to `addr` into the
high end of the result, LWR the bytes from `addr` up into the low end, and the other bytes come from the retiring load
of rt if there is one and from x[rt] otherwise; no address faults, a failing bus ends the step (R65, R283, R291 to R293).
With rt = 0 the value is discarded, so nothing is said of it (R282). Derived: that BusFailure carries the aligned word
address is the model's inference (log entry 9, DEDUCED). -/
def Obligations.UnalignedLoadsMergeBytes : Prop :=
  Encodes 0xFC000000#32 0x88000000#32 (fun w => .lwl (fieldRt w) (fieldRs w) (fieldImm w)) ∧
  Encodes 0xFC000000#32 0x98000000#32 (fun w => .lwr (fieldRt w) (fieldRs w) (fieldImm w)) ∧
  ∀ (rt base : Reg) (offset : BitVec 16) (s : State) (addr aligned : Word) (k : Nat),
    addr = BitVec.ofInt 32 ((readReg s base).toNat + offset.toInt) → k = addr.toNat % 4 →
    aligned.toNat = addr.toNat / 4 * 4 →
    LoadOutcome (.lwl rt base offset) s rt aligned 4 (fun v =>
      rt ≠ 0#5 → ∀ j < 4, (v.extractLsb' (8 * j) 8).toNat =
        if 3 - k ≤ j then byteAt s aligned (j - (3 - k)) else ((retiredReg s rt).extractLsb' (8 * j) 8).toNat) ∧
    LoadOutcome (.lwr rt base offset) s rt aligned 4 (fun v =>
      rt ≠ 0#5 → ∀ j < 4, (v.extractLsb' (8 * j) 8).toNat =
        if j ≤ 3 - k then byteAt s aligned (k + j) else ((retiredReg s rt).extractLsb' (8 * j) 8).toNat)

/-- "the pair lwl rt, 3(p) ; lwr rt, 0(p) loads the four bytes at p to p+3 for any p", with nothing between the two
(R290, R291): after the second instruction the holder carries the unaligned word; with rt = 0 both complete and the holder
is empty (R31). -/
def Obligations.UnalignedLoadPairLoadsTheWord : Prop :=
  ∀ (rt base : Reg) (high low : BitVec 16) (s : State) (p : Word),
    p = BitVec.ofInt 32 ((readReg s base).toNat + low.toInt) → high.toInt = low.toInt + 3 →
    (∀ q, s.pendingLoad = some q → q.reg ≠ base) →
    BusAnswers s .load (p &&& 0xFFFFFFFC#32) 4 → BusAnswers s .load ((p + 3#32) &&& 0xFFFFFFFC#32) 4 →
    ∃ t u v, exec (.lwl rt base high) s = .next t ∧ exec (.lwr rt base low) t = .next u ∧
      u.pendingLoad = (if rt = 0#5 then none else some ⟨rt, v⟩) ∧ (rt ≠ 0#5 → v.toNat = littleEndian s p 4)

/-! ### Stores -/

/-- SB, SH, SW store the low bytes of x[rt] at `a + sext_32(imm)`, when the address is aligned and the bus answers; every
other byte of memory is unchanged; a misaligned SH, SW raises the address error with BadVaddr = the address; a failing
bus ends the step (R64, R281, R283, R294 to R296). -/
def Obligations.StoresWriteTheirBytes : Prop :=
  Encodes 0xFC000000#32 0xA0000000#32 (fun w => .sb (fieldRt w) (fieldRs w) (fieldImm w)) ∧
  Encodes 0xFC000000#32 0xA4000000#32 (fun w => .sh (fieldRt w) (fieldRs w) (fieldImm w)) ∧
  Encodes 0xFC000000#32 0xAC000000#32 (fun w => .sw (fieldRt w) (fieldRs w) (fieldImm w)) ∧
  ∀ (rt base : Reg) (offset : BitVec 16) (s : State) (addr : Word),
    addr = BitVec.ofInt 32 ((readReg s base).toNat + offset.toInt) →
    StoreOutcome (.sb rt base offset) s addr 1 (readReg s rt) ∧
    (addr.toNat % 2 = 0 → StoreOutcome (.sh rt base offset) s addr 2 (readReg s rt)) ∧
    (addr.toNat % 4 = 0 → StoreOutcome (.sw rt base offset) s addr 4 (readReg s rt)) ∧
    (addr.toNat % 2 ≠ 0 → RaisesAddressError (.sh rt base offset) s Config.excAdes addr) ∧
    (addr.toNat % 4 ≠ 0 → RaisesAddressError (.sw rt base offset) s Config.excAdes addr)

/-- SWL stores the high-order k+1 bytes of x[rt] from the aligned word's start, SWR the low-order 4-k bytes from addr to
the word's end, k = addr mod 4; every other byte is unchanged; no address faults, a failing bus ends the step (R65, R283,
R297, R298). Derived: that SWL's BusFailure carries the aligned word address is the model's inference (log entry 9,
DEDUCED). -/
def Obligations.UnalignedStoresWriteTheirBytes : Prop :=
  Encodes 0xFC000000#32 0xA8000000#32 (fun w => .swl (fieldRt w) (fieldRs w) (fieldImm w)) ∧
  Encodes 0xFC000000#32 0xB8000000#32 (fun w => .swr (fieldRt w) (fieldRs w) (fieldImm w)) ∧
  ∀ (rt base : Reg) (offset : BitVec 16) (s : State) (addr aligned high : Word) (k : Nat),
    addr = BitVec.ofInt 32 ((readReg s base).toNat + offset.toInt) → k = addr.toNat % 4 →
    aligned.toNat = addr.toNat / 4 * 4 → high.toNat = (readReg s rt).toNat / 2 ^ (8 * (3 - k)) →
    StoreOutcome (.swl rt base offset) s aligned (k + 1) high ∧
    StoreOutcome (.swr rt base offset) s addr (4 - k) (readReg s rt)

/-- "The pair swl rt, 3(p) ; swr rt, 0(p) stores the four bytes of rt at p to p+3 for any p", and no other byte (R298). -/
def Obligations.UnalignedStorePairStoresTheWord : Prop :=
  ∀ (rt base : Reg) (high low : BitVec 16) (s : State) (p : Word),
    p = BitVec.ofInt 32 ((readReg s base).toNat + low.toInt) → high.toInt = low.toInt + 3 →
    (∀ q, s.pendingLoad = some q → q.reg ≠ base ∧ q.reg ≠ rt) →
    BusAnswers s .store ((p + 3#32) &&& 0xFFFFFFFC#32) ((p + 3#32).toNat % 4 + 1) →
    BusAnswers s .store p (4 - p.toNat % 4) →
    ∃ t u, exec (.swl rt base high) s = .next t ∧ exec (.swr rt base low) t = .next u ∧
      littleEndian u p 4 = (readReg s rt).toNat ∧
      ∀ a, (∀ k < 4, a ≠ (p + BitVec.ofNat 32 k).toNat) → readByte u.mem a = readByte s.mem a

/-- No instruction but a store changes a byte of memory or a cached word. -/
def Obligations.OnlyStoresChangeMemory : Prop :=
  ∀ (i : Instr) (s t : State), exec i s = .next t → ¬ IsStore i → StorageKept s t

/-- "A second fetch never refreshes an entry": when the bus invalidates nothing, a cached word stays through every step,
whatever is stored (R78). -/
def Obligations.CachedWordsAreSticky : Prop :=
  ∀ (s t : State) (a w : Word), s.busPolicy = .never → step s = .next t → icacheFetch s.icache a = some w →
    icacheFetch t.icache a = some w

/-! ### Load delay and the frame of every instruction -/

/-- Every instruction leaves every register but its destination as the retiring load left it, and commits that load
whatever it does itself, an exception included (R138, R342). -/
def Obligations.InstructionsWriteOnlyTheirDestination : Prop :=
  ∀ (i : Instr) (s t : State) (r : Reg), exec i s = .next t → immediateDestination i ≠ some r →
    readReg t r = retiredReg s r

/-- The load delay of R144 and R390: after LW to r the next instruction reads the old x[r], the one after it the loaded
value, unless the first of the two wrote r. -/
def Obligations.LoadedValueIsVisibleOneInstructionLate : Prop :=
  ∀ (r base d : Reg) (offset : BitVec 16) (i : Instr) (s t u : State),
    r ≠ 0#5 → (readReg s base + offset.signExtend 32).toNat % 4 = 0 →
    BusAnswers s .load (readReg s base + offset.signExtend 32) 4 →
    exec (.lw r base offset) s = .next t → exec i t = .next u → immediateDestination i ≠ some r →
    readReg t r = retiredReg s r ∧
    (readReg u r).toNat = littleEndian s (readReg s base + offset.signExtend 32) 4 ∧
    (d ≠ 0#5 → d ≠ r → ∀ u', exec (.addu d r 0#5) t = .next u' → readReg u' d = retiredReg s r)

/-! ### System -/

/-- Exception entry Enter(code, addr, bd): the mode push, the cause code replaced, EPC and the branch-delay flag, the vector
by Status bit 22, and nothing else changed (R335, R336, R338); the holder is emptied without a write (R339). The seven
exceptions have the codes of R331. -/
def Obligations.ExceptionEntrySavesAndRedirects : Prop :=
  (excCode .interrupt = Config.excInt ∧ excCode .addressErrorLoad = Config.excAdel ∧
    excCode .addressErrorStore = Config.excAdes ∧ excCode .syscall = Config.excSys ∧
    excCode .breakpoint = Config.excBp ∧ excCode .reservedInstruction = Config.excRi ∧
    excCode .overflow = Config.excOv) ∧
  ∀ (c : ExcCause) (addr : Word) (bd : Bool) (s : State),
    ExceptionEffect { s with pendingLoad := none } (enterException c addr bd s) (excCode c) addr bd s.badVaddr

/-- SYSCALL and BREAK always enter the handler, whatever their code field (R310, R311). -/
def Obligations.SyscallAndBreakEnterTheHandler : Prop :=
  Encodes 0xFC00003F#32 0x0000000C#32 (fun w => .syscall (fieldCode w)) ∧
  Encodes 0xFC00003F#32 0x0000000D#32 (fun w => .brk (fieldCode w)) ∧
  ∀ (code : BitVec 20) (s : State),
    (∃ t, exec (.syscall code) s = .next t ∧ ExceptionEffect s t Config.excSys s.pc s.inBranchDelay s.badVaddr) ∧
    (∃ t, exec (.brk code) s = .next t ∧ ExceptionEffect s t Config.excBp s.pc s.inBranchDelay s.badVaddr)

/-- MFC0 delivers BadVaddr, Status, Cause, EPC, PRId one instruction late; from any other register number it delivers
some value (a free value of the model, log entry 7) and completes all the same (R312, R40). -/
def Obligations.Mfc0DeliversTheControlRegister : Prop :=
  Encodes 0xFFE00000#32 0x40000000#32 (fun w => .mfc0 (fieldRt w) (fieldRd w).toNat) ∧
  ∀ (rt : Reg) (rd : Nat) (s : State), ∃ t v, exec (.mfc0 rt rd) s = .next t ∧ DelayedEffect s t rt v ∧
    (rd = 8 → v = s.badVaddr) ∧ (rd = 12 → v = s.status) ∧ (rd = 13 → v = s.cause) ∧ (rd = 14 → v = s.epc) ∧
    (rd = 15 → v = s.prid)

/-- MTC0 writes all of Status, bits 9 and 8 of Cause, and nothing else (R313). -/
def Obligations.Mtc0WritesStatusAndSoftwareInterrupts : Prop :=
  Encodes 0xFFE00000#32 0x40800000#32 (fun w => .mtc0 (fieldRt w) (fieldRd w).toNat) ∧
  ∀ (rt : Reg) (rd : Nat) (s : State), ∃ t, exec (.mtc0 rt rd) s = .next t ∧
    t.status = (if rd = 12 then readReg s rt else s.status) ∧
    (∀ k, t.cause.getLsbD k =
      if rd = 13 ∧ (k = 8 ∨ k = 9) then (readReg s rt).getLsbD k else s.cause.getLsbD k) ∧
    t.epc = s.epc ∧ t.badVaddr = s.badVaddr ∧ t.prid = s.prid ∧
    RegistersRetired s t ∧ t.pendingLoad = none ∧ HiLoKept s t ∧ StorageKept s t ∧ EnvironmentKept s t ∧
    t.freeCount = s.freeCount ∧ Sequential s t

/-- RFE: Status[3:0] <- Status[5:2], every other bit unchanged, pc not changed but by the advance (R314). -/
def Obligations.RfePopsTheModeStack : Prop :=
  Encodes 0xFE00003F#32 0x42000010#32 (fun _ => .rfe) ∧
  ∀ s : State, ∃ t, exec .rfe s = .next t ∧
    (∀ k, t.status.getLsbD k = if k < 4 then s.status.getLsbD (k + 2) else s.status.getLsbD k) ∧
    t.cause = s.cause ∧ t.epc = s.epc ∧ t.badVaddr = s.badVaddr ∧ t.prid = s.prid ∧
    RegistersRetired s t ∧ t.pendingLoad = none ∧ HiLoKept s t ∧ StorageKept s t ∧ EnvironmentKept s t ∧
    t.freeCount = s.freeCount ∧ Sequential s t

/-- The return sequence mfc0 / nop / jr / rfe: control goes to EPC, RFE's pop takes effect with it, and the word at EPC is
not a marked delay slot (R350, R314). -/
def Obligations.ReturnSequenceResumesAtEpc : Prop :=
  ∀ (k0 : Reg) (s : State), k0 ≠ 0#5 →
    ∃ t1 t2 t3 t4, exec (.mfc0 k0 14) s = .next t1 ∧ exec (.sll 0#5 0#5 0) t1 = .next t2 ∧
      exec (.jr k0) t2 = .next t3 ∧ exec .rfe t3 = .next t4 ∧
      t4.pc = s.epc ∧ t4.nextPc = s.epc + 4#32 ∧ t4.inBranchDelay = false ∧
      ∀ k < 4, t4.status.getLsbD k = s.status.getLsbD (k + 2)

/-- RFE undoes the mode push of exception entry as far as the 2-level history allows: the current and the previous pair
are restored (R314, R336). -/
def Obligations.RfeUndoesTheModePush : Prop :=
  ∀ (s t u : State) (code : BitVec 5) (addr bad : Word) (bd : Bool),
    ExceptionEffect s t code addr bd bad → exec .rfe t = .next u →
    ∀ k, k < 4 ∨ 6 ≤ k → u.status.getLsbD k = s.status.getLsbD k

/-- An instruction that answers a next state either entered an exception with nothing of its own written, or left EPC,
BadVaddr, PRId, the Cause bits but 9 and 8, and the Status bits above 5 (MTC0 to Status apart) as they were, and went on
at the next address (R342, R35 to R39). -/
def Obligations.EveryInstructionCompletesOrIsPrecise : Prop :=
  ∀ (i : Instr) (s t : State), exec i s = .next t →
    (∃ code bad, ExceptionEffect s t code s.pc s.inBranchDelay bad ∧
      (code = Config.excAdel ∨ code = Config.excAdes ∨
        ((code = Config.excSys ∨ code = Config.excBp ∨ code = Config.excOv) ∧ bad = s.badVaddr))) ∨
    (t.epc = s.epc ∧ t.badVaddr = s.badVaddr ∧ t.prid = s.prid ∧ t.pc = s.nextPc ∧
      (∀ k, k ≠ 8 → k ≠ 9 → t.cause.getLsbD k = s.cause.getLsbD k) ∧
      ((∀ rt, i ≠ .mtc0 rt 12) → ∀ k, 4 ≤ k → t.status.getLsbD k = s.status.getLsbD k))

/-- The privilege bit is set only by RFE and by MTC0 to Status (R360). -/
def Obligations.OnlyRfeAndMtc0LeavePrivilegedMode : Prop :=
  ∀ (s t : State), step s = .next t → s.status.getLsbD 1 = false → t.status.getLsbD 1 = true →
    ∃ w, Fetches s w ∧ (decode w = .instr .rfe ∨ ∃ rt, decode w = .instr (.mtc0 rt 12))

/-- "in either mode every instruction of the opcode table executes by its rule" (R360): flipping the privilege bit changes
nothing of what an instruction does but Status itself, MFC0 from Status apart. -/
def Obligations.PrivilegeBitIsNotChecked : Prop :=
  ∀ (i : Instr) (s s' : State), (∀ rt, i ≠ .mfc0 rt 12) → s' = { s with status := s.status ^^^ 2#32 } →
    (∀ t, exec i s = .next t → ∃ t', exec i s' = .next t' ∧ t' = { t with status := t'.status }) ∧
    (∀ f, exec i s = .fault f → exec i s' = .fault f)

/-! ### Reset, host interface, invariant -/

/-- What a claim may rely on after reset, in the state after reset and after the host's reset of any state; the host's
reset does not touch memory (R380, R381, R382). Derived: R382 keeps the contents of memory after reset out of what a claim
may rely on; the last clause is R380's "does not touch memory, which belongs to the bus", as log entry 13 (DEDUCED) reads
it, and the named constants are log entry 8's. -/
def Obligations.ResetStateIsAsStated : Prop :=
  ∀ s t : State, (t = State.reset ∨ t = applyHostOp .reset s) →
    readReg t 0#5 = 0#32 ∧ t.pc = Config.resetVector ∧ t.nextPc = Config.resetVector + 4#32 ∧
    t.inBranchDelay = false ∧ t.pendingLoad = none ∧ t.status.getLsbD 0 = false ∧ t.status.getLsbD 1 = false ∧
    t.status.getLsbD 22 = true ∧ (∀ a, icacheFetch t.icache a = none) ∧ t.prid = Config.pridValue ∧
    ∀ a, readByte (applyHostOp .reset s).mem a = readByte s.mem a

/-- The instruction-cache operations of the host (R73 to R75, R85): after a prefill a fetch returns the word, after an
invalidate it is a miss, a range is half-open, and no operation touches another address. -/
def Obligations.CacheOperationsAct : Prop :=
  ∀ (s : State) (a b w : Word),
    (icacheFetch (applyHostOp (.prefill b w) s).icache a = if a = b then some w else icacheFetch s.icache a) ∧
    (icacheFetch (applyHostOp (.invalidate b) s).icache a = if a = b then none else icacheFetch s.icache a) ∧
    (∀ limit : Word, icacheFetch (applyHostOp (.invalidateRange b limit) s).icache a =
      if b.toNat ≤ a.toNat ∧ a.toNat < limit.toNat then none else icacheFetch s.icache a)

/-- Host inject: the mask is ORed into Cause[15:8]; if the enable bit is set and a bit meets the mask field the pending
load is committed and the interrupt entered, otherwise nothing else changes (R349). -/
def Obligations.InjectMergesAndDelivers : Prop :=
  ∀ (s merged : State) (m : BitVec 8),
    merged.cause.extractLsb' 8 8 = s.cause.extractLsb' 8 8 ||| m →
    (∀ k, ¬ (8 ≤ k ∧ k ≤ 15) → merged.cause.getLsbD k = s.cause.getLsbD k) →
    merged = { s with cause := merged.cause } →
    (s.status.getLsbD 0 = true → (∃ k, 8 ≤ k ∧ k ≤ 15 ∧ merged.cause.getLsbD k = true ∧ s.status.getLsbD k = true) →
      ExceptionEffect merged (applyHostOp (.inject m) s) Config.excInt s.pc s.inBranchDelay s.badVaddr) ∧
    (¬ (s.status.getLsbD 0 = true ∧
        ∃ k, 8 ≤ k ∧ k ≤ 15 ∧ merged.cause.getLsbD k = true ∧ s.status.getLsbD k = true) →
      applyHostOp (.inject m) s = merged)

/-- Three nested entries from Status 0x00000401 give 0x00000404, 0x00000410, 0x00000400: the oldest pair is lost (R351). -/
def Obligations.NestedEntriesLoseTheOldestPair : Prop :=
  ∀ (s t u v : State) (c1 c2 c3 : ExcCause) (a1 a2 a3 : Word) (b1 b2 b3 : Bool), s.status = 0x00000401#32 →
    t = enterException c1 a1 b1 s → u = enterException c2 a2 b2 t → v = enterException c3 a3 b3 u →
    t.status = 0x00000404#32 ∧ u.status = 0x00000410#32 ∧ v.status = 0x00000400#32

/-- The invariant of Safety.lean is kept by every step that answers a next state. -/
def Obligations.EveryStepKeepsTheInvariant : Prop :=
  ∀ s t : State, Inv s → step s = .next t → Inv t

/-- The invariant is kept by every move of the environment (the memory stays canonical under another master's write). -/
def Obligations.EveryHostOperationKeepsTheInvariant : Prop :=
  ∀ (op : HostOp) (s : State), Inv s → Inv (applyHostOp op s)

/-- The reset state has the invariant. -/
def Obligations.ResetHasTheInvariant : Prop := Inv State.reset
end

