-- ==== Sys2Proof/Laws/Bits.lean ====
section
/-! SUPPORT. Laws of the bit fields of Status and Cause and of the operand forms, bit by bit or as unsigned arithmetic. -/

namespace Sys2Proof.Machine

/-! ### Literals, bit by bit -/

theorem getLsbD_0x3F (k : Nat) : (0x3F#32).getLsbD k = decide (k < 6) := by
  by_cases h : k < 32
  · interval_cases k <;> rfl
  · simp [BitVec.getLsbD_of_ge _ _ (Nat.le_of_not_lt h)]; omega

theorem getLsbD_0xF (k : Nat) : (0xF#32).getLsbD k = decide (k < 4) := by
  by_cases h : k < 32
  · interval_cases k <;> rfl
  · simp [BitVec.getLsbD_of_ge _ _ (Nat.le_of_not_lt h)]; omega

theorem getLsbD_0x7C (k : Nat) : (0x7C#32).getLsbD k = decide (2 ≤ k ∧ k ≤ 6) := by
  by_cases h : k < 32
  · interval_cases k <;> rfl
  · simp [BitVec.getLsbD_of_ge _ _ (Nat.le_of_not_lt h)]; omega

theorem getLsbD_0x300 (k : Nat) : (0x300#32).getLsbD k = decide (k = 8 ∨ k = 9) := by
  by_cases h : k < 32
  · interval_cases k <;> rfl
  · simp [BitVec.getLsbD_of_ge _ _ (Nat.le_of_not_lt h)]; omega

/-! ### Updates -/

theorem getLsbD_oneHot (i k : Nat) (hk : k < 32) : (1#32 <<< i).getLsbD k = decide (k = i) := by
  simp only [BitVec.getLsbD_shiftLeft, BitVec.getLsbD_one, hk, decide_true, Bool.true_and]
  by_cases h : k < i
  · simp [h]; omega
  · by_cases e : k = i
    · simp [e]
    · simp [e]; omega

theorem getLsbD_setBit (w : Word) (i k : Nat) (b : Bool) (hi : i < 32) :
    (setBit w i b).getLsbD k = if k = i then b else w.getLsbD k := by
  by_cases hk : k < 32
  · have h := getLsbD_oneHot i k hk
    cases b <;> simp only [setBit, Bool.false_eq_true, if_false, if_true, BitVec.getLsbD_and, BitVec.getLsbD_or,
      BitVec.getLsbD_not, h, hk, decide_true, Bool.true_and] <;> by_cases e : k = i <;> simp [e]
  · rw [if_neg (fun e : k = i => hk (e ▸ hi)), BitVec.getLsbD_of_ge _ _ (Nat.le_of_not_lt hk),
      BitVec.getLsbD_of_ge _ _ (Nat.le_of_not_lt hk)]

theorem getLsbD_replaceBits (mask v w : Word) (k : Nat) :
    (replaceBits mask v w).getLsbD k = if mask.getLsbD k then v.getLsbD k else w.getLsbD k := by
  by_cases hk : k < 32
  · simp only [replaceBits, BitVec.getLsbD_or, BitVec.getLsbD_and, BitVec.getLsbD_not, hk, decide_true]
    cases mask.getLsbD k <;> simp
  · simp only [BitVec.getLsbD_of_ge _ _ (Nat.le_of_not_lt hk), Bool.false_eq_true, if_false]

theorem getLsbD_pushMode (status : Word) (k : Nat) :
    (pushMode status).getLsbD k =
      if k < 2 then false else if k < 6 then status.getLsbD (k - 2) else status.getLsbD k := by
  simp only [pushMode, getLsbD_replaceBits, getLsbD_0x3F, BitVec.getLsbD_shiftLeft]
  by_cases h2 : k < 2
  · simp [h2, show k < 6 by omega]
  · by_cases h6 : k < 6
    · simp [h2, h6, show k < 32 by omega]
    · simp [h2, h6]

theorem getLsbD_popMode (status : Word) (k : Nat) :
    (popMode status).getLsbD k = if k < 4 then status.getLsbD (k + 2) else status.getLsbD k := by
  simp only [popMode, getLsbD_replaceBits, getLsbD_0xF, BitVec.getLsbD_ushiftRight]
  by_cases h : k < 4 <;> simp [h, Nat.add_comm]

theorem getLsbD_withCauseBD (bd : Bool) (cause : Word) (k : Nat) :
    (withCauseBD bd cause).getLsbD k = if k = 31 then bd else cause.getLsbD k :=
  getLsbD_setBit _ _ _ _ (by omega)

theorem getLsbD_withCauseCode (code : BitVec 5) (cause : Word) (k : Nat) :
    (withCauseCode code cause).getLsbD k =
      if 2 ≤ k ∧ k ≤ 6 then code.getLsbD (k - 2) else cause.getLsbD k := by
  simp only [withCauseCode, getLsbD_replaceBits, getLsbD_0x7C, BitVec.getLsbD_shiftLeft, BitVec.getLsbD_setWidth]
  by_cases h : 2 ≤ k ∧ k ≤ 6
  · simp [h, show k < 32 by omega, show ¬ k < 2 by omega, show k - 2 < 32 by omega]
  · simp [h]

theorem getLsbD_softwareInterrupts (b cause : Word) (k : Nat) :
    (replaceBits softwareInterruptMask b cause).getLsbD k =
      if k = 8 ∨ k = 9 then b.getLsbD k else cause.getLsbD k := by
  simp only [softwareInterruptMask, getLsbD_replaceBits, getLsbD_0x300, decide_eq_true_eq]

/-- The vector does not depend on the mode bits that entry pushes (R338). -/
theorem excVector_pushMode (status : Word) :
    excVector (pushMode status) = if status.getLsbD 22 then Config.vecBoot else Config.vecGeneral := by
  simp only [excVector, statusBEV, getLsbD_pushMode]
  rfl

/-- The delivery condition bit by bit (R346). -/
theorem interruptEnabled_iff (status cause : Word) :
    interruptEnabled status cause = true ↔
      status.getLsbD 0 = true ∧ ∃ k < 8, cause.getLsbD (8 + k) = true ∧ status.getLsbD (8 + k) = true := by
  rw [interruptEnabled, Bool.and_eq_true, decide_eq_true_iff, statusIEc, causeIP, statusIM]
  refine and_congr_right fun _ => ⟨fun h => ?_, fun ⟨k, hk, h1, h2⟩ e => ?_⟩
  · by_contra hc
    refine h (BitVec.eq_of_getLsbD_eq fun k hk => ?_)
    by_contra hne
    simp only [BitVec.getLsbD_and, BitVec.getLsbD_extractLsb', hk, decide_true, Bool.true_and, BitVec.getLsbD_zero,
      Bool.not_eq_false, Bool.and_eq_true] at hne
    exact hc ⟨k, hk, hne.1, hne.2⟩
  · have := congrArg (fun v => v.getLsbD k) e
    simp [hk, h1, h2] at this

/-! ### Addresses and operands as numbers -/

theorem wordAligned_iff (addr : Word) : wordAligned addr = true ↔ addr.toNat % 4 = 0 := by
  simp only [wordAligned, decide_eq_true_eq, ← BitVec.toNat_inj, BitVec.extractLsb'_toNat]
  simp

theorem halfwordAligned_iff (addr : Word) : halfwordAligned addr = true ↔ addr.toNat % 2 = 0 := by
  simp only [halfwordAligned, decide_eq_true_eq, ← BitVec.toNat_inj, BitVec.extractLsb'_toNat]
  simp

theorem byteLane_eq (addr : Word) : byteLane addr = addr.toNat % 4 := by
  simp [byteLane, BitVec.extractLsb'_toNat]

theorem variableShift_eq (a : Word) : variableShift a = a.toNat % 32 := by
  simp [variableShift, BitVec.extractLsb'_toNat]

theorem wordAddress_toNat (addr : Word) : (addr &&& 0xFFFFFFFC#32).toNat = addr.toNat / 4 * 4 := by
  have h : addr &&& 0xFFFFFFFC#32 = (addr >>> 2) <<< 2 := by
    refine BitVec.eq_of_getLsbD_eq fun k hk => ?_
    interval_cases k <;> simp
  rw [h, BitVec.toNat_shiftLeft, BitVec.toNat_ushiftRight]
  have := addr.isLt
  simp only [Nat.shiftRight_eq_div_pow, Nat.shiftLeft_eq]
  omega

/-- The effective address as an exact sum taken modulo 2^32 (R280). -/
theorem effectiveAddress_eq (s : State) (base : Reg) (offset : BitVec 16) :
    effectiveAddress s base offset = BitVec.ofInt 32 ((readReg s base).toNat + offset.toInt) := by
  rw [BitVec.ofInt_add]
  simp [effectiveAddress, signedImm, BitVec.signExtend]

/-- The branch target as an exact sum taken modulo 2^32 (R240). -/
theorem branchTarget_eq (slot : Word) (imm : BitVec 16) :
    branchTarget slot imm = BitVec.ofInt 32 (slot.toNat + 4 * imm.toInt) := by
  rw [BitVec.ofInt_add, BitVec.ofInt_mul]
  have h : signedImm imm <<< 2 = 4#32 * signedImm imm := by
    rw [BitVec.shiftLeft_eq_mul_twoPow, BitVec.mul_comm]; rfl
  rw [branchTarget, h]
  simp [signedImm, BitVec.signExtend]

end Sys2Proof.Machine
end

