-- ==== Sys2Proof/Laws/Sparse.lean ====
section
/-! SUPPORT. Laws of the sparse lists, of memory and of the instruction cache: what a read gives after each operation, and
that every operation keeps the canonical form. -/

namespace Sys2Proof.Machine

variable {α : Type}

/-! ### Reads -/

theorem lookupKey_insertKey (entries : List (Nat × α)) (key other : Nat) (value : α) :
    lookupKey (insertKey entries key value) other = if other = key then some value else lookupKey entries other := by
  induction entries with
  | nil => simp only [insertKey, lookupKey, eq_comm]
  | cons e rest ih =>
    obtain ⟨k, v⟩ := e
    simp only [insertKey]
    split
    · simp only [lookupKey, eq_comm]
    · split
      · simp only [lookupKey]; grind
      · simp only [lookupKey, ih]; grind

theorem lookupKey_dropKeys (entries : List (Nat × α)) (drop : Nat → Bool) (key : Nat) :
    lookupKey (dropKeys entries drop) key = if drop key then none else lookupKey entries key := by
  induction entries with
  | nil => simp [dropKeys, lookupKey]
  | cons e rest ih =>
    obtain ⟨k, v⟩ := e
    simp only [dropKeys, List.filter_cons] at ih ⊢
    split <;> simp only [lookupKey, ih] <;> grind

theorem readByte_writeByte (m : Memory) (addr other : Nat) (b : Byte) :
    readByte (writeByte m addr b) other = if other = addr then b else readByte m other := by
  unfold readByte writeByte
  split
  · rw [lookupKey_dropKeys]; grind
  · rw [lookupKey_insertKey]; grind

/-- Bytes written leave every other byte alone. -/
theorem readByte_writeBytes_outside (m : Memory) (addr : Word) (bytes : Nat → Byte) (n a : Nat)
    (h : ∀ k < n, a ≠ byteAddress addr k) : readByte (writeBytes m addr bytes n) a = readByte m a := by
  induction n with
  | zero => rfl
  | succ n ih => simp only [writeBytes, readByte_writeByte, h n (by omega), if_false]; exact ih fun k hk => h k (by omega)

/-- A store of `n` bytes changes no byte outside them. -/
theorem readByte_memWrite_outside (m : Memory) (addr v : Word) (n a : Nat)
    (h : ∀ k < n, a ≠ byteAddress addr k) : readByte (memWrite m addr v n) a = readByte m a :=
  readByte_writeBytes_outside _ _ _ _ _ h

theorem byteAddress_inj {addr : Word} {j k : Nat} (hj : j < 4294967296) (hk : k < 4294967296)
    (h : byteAddress addr j = byteAddress addr k) : j = k := by
  simp only [byteAddress, BitVec.toNat_add, BitVec.toNat_ofNat] at h
  omega

/-- Bytes written are read back. -/
theorem readByte_writeBytes_inside (m : Memory) (addr : Word) (bytes : Nat → Byte) (n k : Nat) (hk : k < n)
    (hn : n ≤ 4294967296) : readByte (writeBytes m addr bytes n) (byteAddress addr k) = bytes k := by
  induction n with
  | zero => omega
  | succ n ih =>
    simp only [writeBytes, readByte_writeByte]
    by_cases h : k = n
    · simp [h]
    · rw [if_neg fun e => h (byteAddress_inj (by omega) (by omega) e)]
      exact ih (by omega) (by omega)

/-! ### `BYTE_ORDER`: what the parameter's value makes of the three operations that read it -/

theorem halfwordOfBytes_littleEndian (b0 b1 : Byte) : halfwordOfBytes b0 b1 = b1 ++ b0 := rfl
theorem wordOfBytes_littleEndian (b0 b1 b2 b3 : Byte) : wordOfBytes b0 b1 b2 b3 = b3 ++ b2 ++ b1 ++ b0 := rfl
@[simp] theorem storedByte_littleEndian (n : Nat) (w : Word) (k : Nat) : storedByte n w k = byteOfWord w k := rfl

/-- A store of `n` bytes leaves byte `k` of the value, least significant first, at its byte `k`. -/
theorem readByte_memWrite_inside (m : Memory) (addr v : Word) (n k : Nat) (hk : k < n) (hn : n ≤ 4294967296) :
    readByte (memWrite m addr v n) (byteAddress addr k) = byteOfWord v k :=
  readByte_writeBytes_inside _ _ _ _ _ hk hn

/-! ### The canonical form -/

theorem mem_insertKey {entries : List (Nat × α)} {key : Nat} {value : α} {p : Nat × α}
    (h : p ∈ insertKey entries key value) : p = (key, value) ∨ p ∈ entries := by
  induction entries with
  | nil => simpa [insertKey] using h
  | cons e rest ih =>
    obtain ⟨k, v⟩ := e
    simp only [insertKey] at h
    split at h
    · simpa using h
    · split at h
      · simp only [List.mem_cons] at h ⊢; tauto
      · simp only [List.mem_cons] at h ⊢
        rcases h with h | h
        · exact .inr (.inl h)
        · exact (ih h).imp_right .inr

theorem insertKey_rising (entries : List (Nat × α)) (key : Nat) (value : α) (hk : key < 4294967296)
    (h : risingKeys entries) : risingKeys (insertKey entries key value) := by
  refine ⟨?_, fun p hp => (mem_insertKey hp).elim (fun e => e ▸ hk) (h.2 p)⟩
  replace h := h.1
  induction entries with
  | nil => simp [insertKey]
  | cons e rest ih =>
    obtain ⟨k, v⟩ := e
    obtain ⟨h1, h2⟩ := List.pairwise_cons.1 h
    simp only [insertKey]
    split
    · refine List.pairwise_cons.2 ⟨fun p hp => ?_, h⟩
      rcases List.mem_cons.1 hp with rfl | hp
      · assumption
      · exact lt_trans (by assumption) (h1 p hp)
    · split
      · subst_vars; exact List.pairwise_cons.2 ⟨h1, h2⟩
      · refine List.pairwise_cons.2 ⟨fun p hp => ?_, ih h2⟩
        rcases mem_insertKey hp with rfl | hp
        · simp only; omega
        · exact h1 p hp

theorem dropKeys_rising (entries : List (Nat × α)) (drop : Nat → Bool) (h : risingKeys entries) :
    risingKeys (dropKeys entries drop) :=
  ⟨h.1.filter _, fun p hp => h.2 p (List.mem_of_mem_filter hp)⟩

/-- Storing a byte keeps memory canonical. -/
theorem writeByte_wf (m : Memory) (addr : Nat) (b : Byte) (ha : addr < 4294967296) (h : Memory.wf m) :
    Memory.wf (writeByte m addr b) := by
  unfold writeByte
  split
  · exact ⟨dropKeys_rising m _ h.1, fun p hp => h.2 p (List.mem_of_mem_filter hp)⟩
  · refine ⟨insertKey_rising m addr b ha h.1, fun p hp => ?_⟩
    rcases mem_insertKey hp with rfl | hp
    · assumption
    · exact h.2 p hp

theorem writeBytes_wf (m : Memory) (addr : Word) (bytes : Nat → Byte) (n : Nat) (h : Memory.wf m) :
    Memory.wf (writeBytes m addr bytes n) := by
  induction n with
  | zero => exact h
  | succ n ih => exact writeByte_wf _ _ _ (BitVec.isLt _) ih

/-- Every store keeps memory canonical. -/
theorem memWrite_wf (m : Memory) (addr v : Word) (n : Nat) (h : Memory.wf m) : Memory.wf (memWrite m addr v n) :=
  writeBytes_wf _ _ _ _ h

/-! ### Instruction cache -/

theorem icacheFetch_store (c : ICache) (addr w a : Word) :
    icacheFetch (icacheStore c addr w) a =
      if a = addr then some ((icacheFetch c addr).getD w) else icacheFetch c a := by
  unfold icacheStore
  split
  · next v h => split <;> simp_all
  · next h =>
    unfold icacheFetch
    rw [lookupKey_insertKey]
    by_cases e : a = addr
    · unfold icacheFetch at h; simp [e, h]
    · rw [if_neg (fun h' => e (BitVec.eq_of_toNat_eq h')), if_neg e]

theorem icacheFetch_prefill (c : ICache) (addr w a : Word) :
    icacheFetch (icachePrefill c addr w) a = if a = addr then some w else icacheFetch c a := by
  unfold icacheFetch icachePrefill
  rw [lookupKey_insertKey]
  simp only [BitVec.toNat_inj]

theorem icacheFetch_invalidate (c : ICache) (addr a : Word) :
    icacheFetch (icacheInvalidate c addr) a = if a = addr then none else icacheFetch c a := by
  unfold icacheFetch icacheInvalidate
  rw [lookupKey_dropKeys]
  simp only [BitVec.toNat_inj, decide_eq_true_eq]

theorem icacheFetch_invalidateRange (c : ICache) (first limit a : Word) :
    icacheFetch (icacheInvalidateRange c first limit) a =
      if first.toNat ≤ a.toNat ∧ a.toNat < limit.toNat then none else icacheFetch c a := by
  unfold icacheFetch icacheInvalidateRange
  rw [lookupKey_dropKeys]
  simp only [decide_eq_true_eq]

/-- A policy removes entries and changes none. -/
theorem icacheFetch_applyBusPolicy (policy : BusPolicy) (addr : Word) (n : Nat) (c : ICache) (a w : Word)
    (h : icacheFetch (applyBusPolicy policy addr n c) a = some w) : icacheFetch c a = some w := by
  cases policy with
  | never => exact h
  | always =>
    simp only [applyBusPolicy, icacheFetch_invalidate] at h
    split at h <;> simp_all
  | environment =>
    simp only [applyBusPolicy, icacheFetch, lookupKey_dropKeys] at h ⊢
    split at h <;> simp_all

theorem icacheStore_wf (c : ICache) (addr w : Word) (h : ICache.wf c) : ICache.wf (icacheStore c addr w) := by
  unfold icacheStore
  split
  · exact h
  · exact insertKey_rising _ _ _ addr.isLt h

theorem applyBusPolicy_wf (policy : BusPolicy) (addr : Word) (n : Nat) (c : ICache) (h : ICache.wf c) :
    ICache.wf (applyBusPolicy policy addr n c) := by
  cases policy with
  | never => exact h
  | always => exact dropKeys_rising c (fun key => key = (addr &&& 0xFFFFFFFC#32).toNat) h
  | environment => exact dropKeys_rising c (Config.busInvalidates addr n c) h

end Sys2Proof.Machine
end

