-- ==== Sys2Proof/Laws/State.lean ====
section
/-! SUPPORT. What each shared operation leaves in each field of State: one lemma per field per operation, so that no later
proof unfolds a record update. -/

namespace Sys2Proof.Machine

/-! ### writeReg -/

@[simp] theorem writeReg_hi (i : Reg) (v : Word) (s : State) : (writeReg i v s).hi = s.hi := by
  unfold writeReg; split <;> rfl
@[simp] theorem writeReg_lo (i : Reg) (v : Word) (s : State) : (writeReg i v s).lo = s.lo := by
  unfold writeReg; split <;> rfl
@[simp] theorem writeReg_pc (i : Reg) (v : Word) (s : State) : (writeReg i v s).pc = s.pc := by
  unfold writeReg; split <;> rfl
@[simp] theorem writeReg_nextPc (i : Reg) (v : Word) (s : State) : (writeReg i v s).nextPc = s.nextPc := by
  unfold writeReg; split <;> rfl
@[simp] theorem writeReg_inBranchDelay (i : Reg) (v : Word) (s : State) : (writeReg i v s).inBranchDelay = s.inBranchDelay := by
  unfold writeReg; split <;> rfl
@[simp] theorem writeReg_pendingLoad (i : Reg) (v : Word) (s : State) : (writeReg i v s).pendingLoad = s.pendingLoad := by
  unfold writeReg; split <;> rfl
@[simp] theorem writeReg_status (i : Reg) (v : Word) (s : State) : (writeReg i v s).status = s.status := by
  unfold writeReg; split <;> rfl
@[simp] theorem writeReg_cause (i : Reg) (v : Word) (s : State) : (writeReg i v s).cause = s.cause := by
  unfold writeReg; split <;> rfl
@[simp] theorem writeReg_epc (i : Reg) (v : Word) (s : State) : (writeReg i v s).epc = s.epc := by
  unfold writeReg; split <;> rfl
@[simp] theorem writeReg_badVaddr (i : Reg) (v : Word) (s : State) : (writeReg i v s).badVaddr = s.badVaddr := by
  unfold writeReg; split <;> rfl
@[simp] theorem writeReg_prid (i : Reg) (v : Word) (s : State) : (writeReg i v s).prid = s.prid := by
  unfold writeReg; split <;> rfl
@[simp] theorem writeReg_icache (i : Reg) (v : Word) (s : State) : (writeReg i v s).icache = s.icache := by
  unfold writeReg; split <;> rfl
@[simp] theorem writeReg_mem (i : Reg) (v : Word) (s : State) : (writeReg i v s).mem = s.mem := by
  unfold writeReg; split <;> rfl
@[simp] theorem writeReg_busFailures (i : Reg) (v : Word) (s : State) : (writeReg i v s).busFailures = s.busFailures := by
  unfold writeReg; split <;> rfl
@[simp] theorem writeReg_busPolicy (i : Reg) (v : Word) (s : State) : (writeReg i v s).busPolicy = s.busPolicy := by
  unfold writeReg; split <;> rfl
@[simp] theorem writeReg_irqInput (i : Reg) (v : Word) (s : State) : (writeReg i v s).irqInput = s.irqInput := by
  unfold writeReg; split <;> rfl
@[simp] theorem writeReg_freeCount (i : Reg) (v : Word) (s : State) : (writeReg i v s).freeCount = s.freeCount := by
  unfold writeReg; split <;> rfl

/-! ### commitRetiring -/

@[simp] theorem commitRetiring_hi (s : State) : (commitRetiring s).hi = s.hi := by
  unfold commitRetiring; split <;> simp
@[simp] theorem commitRetiring_lo (s : State) : (commitRetiring s).lo = s.lo := by
  unfold commitRetiring; split <;> simp
@[simp] theorem commitRetiring_pc (s : State) : (commitRetiring s).pc = s.pc := by
  unfold commitRetiring; split <;> simp
@[simp] theorem commitRetiring_nextPc (s : State) : (commitRetiring s).nextPc = s.nextPc := by
  unfold commitRetiring; split <;> simp
@[simp] theorem commitRetiring_inBranchDelay (s : State) : (commitRetiring s).inBranchDelay = s.inBranchDelay := by
  unfold commitRetiring; split <;> simp
@[simp] theorem commitRetiring_pendingLoad (s : State) : (commitRetiring s).pendingLoad = none := by
  unfold commitRetiring; split <;> simp [*]
@[simp] theorem commitRetiring_status (s : State) : (commitRetiring s).status = s.status := by
  unfold commitRetiring; split <;> simp
@[simp] theorem commitRetiring_cause (s : State) : (commitRetiring s).cause = s.cause := by
  unfold commitRetiring; split <;> simp
@[simp] theorem commitRetiring_epc (s : State) : (commitRetiring s).epc = s.epc := by
  unfold commitRetiring; split <;> simp
@[simp] theorem commitRetiring_badVaddr (s : State) : (commitRetiring s).badVaddr = s.badVaddr := by
  unfold commitRetiring; split <;> simp
@[simp] theorem commitRetiring_prid (s : State) : (commitRetiring s).prid = s.prid := by
  unfold commitRetiring; split <;> simp
@[simp] theorem commitRetiring_icache (s : State) : (commitRetiring s).icache = s.icache := by
  unfold commitRetiring; split <;> simp
@[simp] theorem commitRetiring_mem (s : State) : (commitRetiring s).mem = s.mem := by
  unfold commitRetiring; split <;> simp
@[simp] theorem commitRetiring_busFailures (s : State) : (commitRetiring s).busFailures = s.busFailures := by
  unfold commitRetiring; split <;> simp
@[simp] theorem commitRetiring_busPolicy (s : State) : (commitRetiring s).busPolicy = s.busPolicy := by
  unfold commitRetiring; split <;> simp
@[simp] theorem commitRetiring_irqInput (s : State) : (commitRetiring s).irqInput = s.irqInput := by
  unfold commitRetiring; split <;> simp
@[simp] theorem commitRetiring_freeCount (s : State) : (commitRetiring s).freeCount = s.freeCount := by
  unfold commitRetiring; split <;> simp

/-! ### writeDelayed -/

@[simp] theorem writeDelayed_hi (i : Reg) (v : Word) (s : State) : (writeDelayed i v s).hi = s.hi := by
  unfold writeDelayed; split <;> simp
@[simp] theorem writeDelayed_lo (i : Reg) (v : Word) (s : State) : (writeDelayed i v s).lo = s.lo := by
  unfold writeDelayed; split <;> simp
@[simp] theorem writeDelayed_pc (i : Reg) (v : Word) (s : State) : (writeDelayed i v s).pc = s.pc := by
  unfold writeDelayed; split <;> simp
@[simp] theorem writeDelayed_nextPc (i : Reg) (v : Word) (s : State) : (writeDelayed i v s).nextPc = s.nextPc := by
  unfold writeDelayed; split <;> simp
@[simp] theorem writeDelayed_inBranchDelay (i : Reg) (v : Word) (s : State) : (writeDelayed i v s).inBranchDelay = s.inBranchDelay := by
  unfold writeDelayed; split <;> simp
@[simp] theorem writeDelayed_status (i : Reg) (v : Word) (s : State) : (writeDelayed i v s).status = s.status := by
  unfold writeDelayed; split <;> simp
@[simp] theorem writeDelayed_cause (i : Reg) (v : Word) (s : State) : (writeDelayed i v s).cause = s.cause := by
  unfold writeDelayed; split <;> simp
@[simp] theorem writeDelayed_epc (i : Reg) (v : Word) (s : State) : (writeDelayed i v s).epc = s.epc := by
  unfold writeDelayed; split <;> simp
@[simp] theorem writeDelayed_badVaddr (i : Reg) (v : Word) (s : State) : (writeDelayed i v s).badVaddr = s.badVaddr := by
  unfold writeDelayed; split <;> simp
@[simp] theorem writeDelayed_prid (i : Reg) (v : Word) (s : State) : (writeDelayed i v s).prid = s.prid := by
  unfold writeDelayed; split <;> simp
@[simp] theorem writeDelayed_icache (i : Reg) (v : Word) (s : State) : (writeDelayed i v s).icache = s.icache := by
  unfold writeDelayed; split <;> simp
@[simp] theorem writeDelayed_mem (i : Reg) (v : Word) (s : State) : (writeDelayed i v s).mem = s.mem := by
  unfold writeDelayed; split <;> simp
@[simp] theorem writeDelayed_busFailures (i : Reg) (v : Word) (s : State) : (writeDelayed i v s).busFailures = s.busFailures := by
  unfold writeDelayed; split <;> simp
@[simp] theorem writeDelayed_busPolicy (i : Reg) (v : Word) (s : State) : (writeDelayed i v s).busPolicy = s.busPolicy := by
  unfold writeDelayed; split <;> simp
@[simp] theorem writeDelayed_irqInput (i : Reg) (v : Word) (s : State) : (writeDelayed i v s).irqInput = s.irqInput := by
  unfold writeDelayed; split <;> simp
@[simp] theorem writeDelayed_freeCount (i : Reg) (v : Word) (s : State) : (writeDelayed i v s).freeCount = s.freeCount := by
  unfold writeDelayed; split <;> simp
@[simp] theorem writeDelayed_pendingLoad (i : Reg) (v : Word) (s : State) :
    (writeDelayed i v s).pendingLoad = if i = 0#5 then none else some ⟨i, v⟩ := by
  unfold writeDelayed; split <;> simp
@[simp] theorem writeDelayed_gpr (i : Reg) (v : Word) (s : State) :
    (writeDelayed i v s).gpr = (commitRetiring s).gpr := by
  unfold writeDelayed; split <;> rfl

/-! ### advance -/

@[simp] theorem advance_hi (s : State) : (advance s).hi = s.hi := by
  simp [advance]
@[simp] theorem advance_lo (s : State) : (advance s).lo = s.lo := by
  simp [advance]
@[simp] theorem advance_pc (s : State) : (advance s).pc = s.nextPc := by
  simp [advance]
@[simp] theorem advance_nextPc (s : State) : (advance s).nextPc = s.nextPc + 4#32 := by
  simp [advance]
@[simp] theorem advance_inBranchDelay (s : State) : (advance s).inBranchDelay = false := by
  simp [advance]
@[simp] theorem advance_pendingLoad (s : State) : (advance s).pendingLoad = none := by
  simp [advance]
@[simp] theorem advance_status (s : State) : (advance s).status = s.status := by
  simp [advance]
@[simp] theorem advance_cause (s : State) : (advance s).cause = s.cause := by
  simp [advance]
@[simp] theorem advance_epc (s : State) : (advance s).epc = s.epc := by
  simp [advance]
@[simp] theorem advance_badVaddr (s : State) : (advance s).badVaddr = s.badVaddr := by
  simp [advance]
@[simp] theorem advance_prid (s : State) : (advance s).prid = s.prid := by
  simp [advance]
@[simp] theorem advance_icache (s : State) : (advance s).icache = s.icache := by
  simp [advance]
@[simp] theorem advance_mem (s : State) : (advance s).mem = s.mem := by
  simp [advance]
@[simp] theorem advance_busFailures (s : State) : (advance s).busFailures = s.busFailures := by
  simp [advance]
@[simp] theorem advance_busPolicy (s : State) : (advance s).busPolicy = s.busPolicy := by
  simp [advance]
@[simp] theorem advance_irqInput (s : State) : (advance s).irqInput = s.irqInput := by
  simp [advance]
@[simp] theorem advance_freeCount (s : State) : (advance s).freeCount = s.freeCount := by
  simp [advance]
@[simp] theorem advance_gpr (s : State) : (advance s).gpr = (commitRetiring s).gpr := rfl

/-! ### stageTarget -/

@[simp] theorem stageTarget_gpr (target : Word) (s : State) : (stageTarget target s).gpr = s.gpr := rfl
@[simp] theorem stageTarget_hi (target : Word) (s : State) : (stageTarget target s).hi = s.hi := rfl
@[simp] theorem stageTarget_lo (target : Word) (s : State) : (stageTarget target s).lo = s.lo := rfl
@[simp] theorem stageTarget_pc (target : Word) (s : State) : (stageTarget target s).pc = s.pc := rfl
@[simp] theorem stageTarget_nextPc (target : Word) (s : State) : (stageTarget target s).nextPc = target := rfl
@[simp] theorem stageTarget_inBranchDelay (target : Word) (s : State) : (stageTarget target s).inBranchDelay = true := rfl
@[simp] theorem stageTarget_pendingLoad (target : Word) (s : State) : (stageTarget target s).pendingLoad = s.pendingLoad := rfl
@[simp] theorem stageTarget_status (target : Word) (s : State) : (stageTarget target s).status = s.status := rfl
@[simp] theorem stageTarget_cause (target : Word) (s : State) : (stageTarget target s).cause = s.cause := rfl
@[simp] theorem stageTarget_epc (target : Word) (s : State) : (stageTarget target s).epc = s.epc := rfl
@[simp] theorem stageTarget_badVaddr (target : Word) (s : State) : (stageTarget target s).badVaddr = s.badVaddr := rfl
@[simp] theorem stageTarget_prid (target : Word) (s : State) : (stageTarget target s).prid = s.prid := rfl
@[simp] theorem stageTarget_icache (target : Word) (s : State) : (stageTarget target s).icache = s.icache := rfl
@[simp] theorem stageTarget_mem (target : Word) (s : State) : (stageTarget target s).mem = s.mem := rfl
@[simp] theorem stageTarget_busFailures (target : Word) (s : State) : (stageTarget target s).busFailures = s.busFailures := rfl
@[simp] theorem stageTarget_busPolicy (target : Word) (s : State) : (stageTarget target s).busPolicy = s.busPolicy := rfl
@[simp] theorem stageTarget_irqInput (target : Word) (s : State) : (stageTarget target s).irqInput = s.irqInput := rfl
@[simp] theorem stageTarget_freeCount (target : Word) (s : State) : (stageTarget target s).freeCount = s.freeCount := rfl

/-! ### enterException -/

@[simp] theorem enterException_gpr (c : ExcCause) (addr : Word) (bd : Bool) (s : State) : (enterException c addr bd s).gpr = s.gpr := rfl
@[simp] theorem enterException_hi (c : ExcCause) (addr : Word) (bd : Bool) (s : State) : (enterException c addr bd s).hi = s.hi := rfl
@[simp] theorem enterException_lo (c : ExcCause) (addr : Word) (bd : Bool) (s : State) : (enterException c addr bd s).lo = s.lo := rfl
@[simp] theorem enterException_pc (c : ExcCause) (addr : Word) (bd : Bool) (s : State) : (enterException c addr bd s).pc = excVector (pushMode s.status) := rfl
@[simp] theorem enterException_nextPc (c : ExcCause) (addr : Word) (bd : Bool) (s : State) : (enterException c addr bd s).nextPc = excVector (pushMode s.status) + 4#32 := rfl
@[simp] theorem enterException_inBranchDelay (c : ExcCause) (addr : Word) (bd : Bool) (s : State) : (enterException c addr bd s).inBranchDelay = false := rfl
@[simp] theorem enterException_pendingLoad (c : ExcCause) (addr : Word) (bd : Bool) (s : State) : (enterException c addr bd s).pendingLoad = none := rfl
@[simp] theorem enterException_status (c : ExcCause) (addr : Word) (bd : Bool) (s : State) : (enterException c addr bd s).status = pushMode s.status := rfl
@[simp] theorem enterException_cause (c : ExcCause) (addr : Word) (bd : Bool) (s : State) : (enterException c addr bd s).cause = withCauseBD bd (withCauseCode (excCode c) s.cause) := rfl
@[simp] theorem enterException_epc (c : ExcCause) (addr : Word) (bd : Bool) (s : State) : (enterException c addr bd s).epc = if bd then addr - 4#32 else addr := rfl
@[simp] theorem enterException_badVaddr (c : ExcCause) (addr : Word) (bd : Bool) (s : State) : (enterException c addr bd s).badVaddr = s.badVaddr := rfl
@[simp] theorem enterException_prid (c : ExcCause) (addr : Word) (bd : Bool) (s : State) : (enterException c addr bd s).prid = s.prid := rfl
@[simp] theorem enterException_icache (c : ExcCause) (addr : Word) (bd : Bool) (s : State) : (enterException c addr bd s).icache = s.icache := rfl
@[simp] theorem enterException_mem (c : ExcCause) (addr : Word) (bd : Bool) (s : State) : (enterException c addr bd s).mem = s.mem := rfl
@[simp] theorem enterException_busFailures (c : ExcCause) (addr : Word) (bd : Bool) (s : State) : (enterException c addr bd s).busFailures = s.busFailures := rfl
@[simp] theorem enterException_busPolicy (c : ExcCause) (addr : Word) (bd : Bool) (s : State) : (enterException c addr bd s).busPolicy = s.busPolicy := rfl
@[simp] theorem enterException_irqInput (c : ExcCause) (addr : Word) (bd : Bool) (s : State) : (enterException c addr bd s).irqInput = s.irqInput := rfl
@[simp] theorem enterException_freeCount (c : ExcCause) (addr : Word) (bd : Bool) (s : State) : (enterException c addr bd s).freeCount = s.freeCount := rfl

/-! ### storeBytes -/

@[simp] theorem storeBytes_gpr (addr : Word) (n : Nat) (v : Word) (s : State) : (storeBytes addr n v s).gpr = s.gpr := rfl
@[simp] theorem storeBytes_hi (addr : Word) (n : Nat) (v : Word) (s : State) : (storeBytes addr n v s).hi = s.hi := rfl
@[simp] theorem storeBytes_lo (addr : Word) (n : Nat) (v : Word) (s : State) : (storeBytes addr n v s).lo = s.lo := rfl
@[simp] theorem storeBytes_pc (addr : Word) (n : Nat) (v : Word) (s : State) : (storeBytes addr n v s).pc = s.pc := rfl
@[simp] theorem storeBytes_nextPc (addr : Word) (n : Nat) (v : Word) (s : State) : (storeBytes addr n v s).nextPc = s.nextPc := rfl
@[simp] theorem storeBytes_inBranchDelay (addr : Word) (n : Nat) (v : Word) (s : State) : (storeBytes addr n v s).inBranchDelay = s.inBranchDelay := rfl
@[simp] theorem storeBytes_pendingLoad (addr : Word) (n : Nat) (v : Word) (s : State) : (storeBytes addr n v s).pendingLoad = s.pendingLoad := rfl
@[simp] theorem storeBytes_status (addr : Word) (n : Nat) (v : Word) (s : State) : (storeBytes addr n v s).status = s.status := rfl
@[simp] theorem storeBytes_cause (addr : Word) (n : Nat) (v : Word) (s : State) : (storeBytes addr n v s).cause = s.cause := rfl
@[simp] theorem storeBytes_epc (addr : Word) (n : Nat) (v : Word) (s : State) : (storeBytes addr n v s).epc = s.epc := rfl
@[simp] theorem storeBytes_badVaddr (addr : Word) (n : Nat) (v : Word) (s : State) : (storeBytes addr n v s).badVaddr = s.badVaddr := rfl
@[simp] theorem storeBytes_prid (addr : Word) (n : Nat) (v : Word) (s : State) : (storeBytes addr n v s).prid = s.prid := rfl
@[simp] theorem storeBytes_icache (addr : Word) (n : Nat) (v : Word) (s : State) : (storeBytes addr n v s).icache = applyBusPolicy s.busPolicy addr n s.icache := rfl
@[simp] theorem storeBytes_mem (addr : Word) (n : Nat) (v : Word) (s : State) : (storeBytes addr n v s).mem = memWrite s.mem addr v n := rfl
@[simp] theorem storeBytes_busFailures (addr : Word) (n : Nat) (v : Word) (s : State) : (storeBytes addr n v s).busFailures = s.busFailures := rfl
@[simp] theorem storeBytes_busPolicy (addr : Word) (n : Nat) (v : Word) (s : State) : (storeBytes addr n v s).busPolicy = s.busPolicy := rfl
@[simp] theorem storeBytes_irqInput (addr : Word) (n : Nat) (v : Word) (s : State) : (storeBytes addr n v s).irqInput = s.irqInput := rfl
@[simp] theorem storeBytes_freeCount (addr : Word) (n : Nat) (v : Word) (s : State) : (storeBytes addr n v s).freeCount = s.freeCount := rfl

/-! ### sampleIrq -/

@[simp] theorem sampleIrq_gpr (s : State) : (sampleIrq s).gpr = s.gpr := rfl
@[simp] theorem sampleIrq_hi (s : State) : (sampleIrq s).hi = s.hi := rfl
@[simp] theorem sampleIrq_lo (s : State) : (sampleIrq s).lo = s.lo := rfl
@[simp] theorem sampleIrq_pc (s : State) : (sampleIrq s).pc = s.pc := rfl
@[simp] theorem sampleIrq_nextPc (s : State) : (sampleIrq s).nextPc = s.nextPc := rfl
@[simp] theorem sampleIrq_inBranchDelay (s : State) : (sampleIrq s).inBranchDelay = s.inBranchDelay := rfl
@[simp] theorem sampleIrq_pendingLoad (s : State) : (sampleIrq s).pendingLoad = s.pendingLoad := rfl
@[simp] theorem sampleIrq_status (s : State) : (sampleIrq s).status = s.status := rfl
@[simp] theorem sampleIrq_cause (s : State) : (sampleIrq s).cause = setBit s.cause Config.extIrqBit (irqLevel s) := rfl
@[simp] theorem sampleIrq_epc (s : State) : (sampleIrq s).epc = s.epc := rfl
@[simp] theorem sampleIrq_badVaddr (s : State) : (sampleIrq s).badVaddr = s.badVaddr := rfl
@[simp] theorem sampleIrq_prid (s : State) : (sampleIrq s).prid = s.prid := rfl
@[simp] theorem sampleIrq_icache (s : State) : (sampleIrq s).icache = s.icache := rfl
@[simp] theorem sampleIrq_mem (s : State) : (sampleIrq s).mem = s.mem := rfl
@[simp] theorem sampleIrq_busFailures (s : State) : (sampleIrq s).busFailures = s.busFailures := rfl
@[simp] theorem sampleIrq_busPolicy (s : State) : (sampleIrq s).busPolicy = s.busPolicy := rfl
@[simp] theorem sampleIrq_irqInput (s : State) : (sampleIrq s).irqInput = s.irqInput.tail := rfl
@[simp] theorem sampleIrq_freeCount (s : State) : (sampleIrq s).freeCount = s.freeCount := rfl

/-! ### returnFromException -/

@[simp] theorem returnFromException_gpr (s : State) : (returnFromException s).gpr = s.gpr := rfl
@[simp] theorem returnFromException_hi (s : State) : (returnFromException s).hi = s.hi := rfl
@[simp] theorem returnFromException_lo (s : State) : (returnFromException s).lo = s.lo := rfl
@[simp] theorem returnFromException_pc (s : State) : (returnFromException s).pc = s.pc := rfl
@[simp] theorem returnFromException_nextPc (s : State) : (returnFromException s).nextPc = s.nextPc := rfl
@[simp] theorem returnFromException_inBranchDelay (s : State) : (returnFromException s).inBranchDelay = s.inBranchDelay := rfl
@[simp] theorem returnFromException_pendingLoad (s : State) : (returnFromException s).pendingLoad = s.pendingLoad := rfl
@[simp] theorem returnFromException_status (s : State) : (returnFromException s).status = popMode s.status := rfl
@[simp] theorem returnFromException_cause (s : State) : (returnFromException s).cause = s.cause := rfl
@[simp] theorem returnFromException_epc (s : State) : (returnFromException s).epc = s.epc := rfl
@[simp] theorem returnFromException_badVaddr (s : State) : (returnFromException s).badVaddr = s.badVaddr := rfl
@[simp] theorem returnFromException_prid (s : State) : (returnFromException s).prid = s.prid := rfl
@[simp] theorem returnFromException_icache (s : State) : (returnFromException s).icache = s.icache := rfl
@[simp] theorem returnFromException_mem (s : State) : (returnFromException s).mem = s.mem := rfl
@[simp] theorem returnFromException_busFailures (s : State) : (returnFromException s).busFailures = s.busFailures := rfl
@[simp] theorem returnFromException_busPolicy (s : State) : (returnFromException s).busPolicy = s.busPolicy := rfl
@[simp] theorem returnFromException_irqInput (s : State) : (returnFromException s).irqInput = s.irqInput := rfl
@[simp] theorem returnFromException_freeCount (s : State) : (returnFromException s).freeCount = s.freeCount := rfl

/-! ### writeCop0 -/

@[simp] theorem writeCop0_gpr (rd : Nat) (b : Word) (s : State) : (writeCop0 rd b s).gpr = s.gpr := by
  unfold writeCop0; split <;> rfl
@[simp] theorem writeCop0_hi (rd : Nat) (b : Word) (s : State) : (writeCop0 rd b s).hi = s.hi := by
  unfold writeCop0; split <;> rfl
@[simp] theorem writeCop0_lo (rd : Nat) (b : Word) (s : State) : (writeCop0 rd b s).lo = s.lo := by
  unfold writeCop0; split <;> rfl
@[simp] theorem writeCop0_pc (rd : Nat) (b : Word) (s : State) : (writeCop0 rd b s).pc = s.pc := by
  unfold writeCop0; split <;> rfl
@[simp] theorem writeCop0_nextPc (rd : Nat) (b : Word) (s : State) : (writeCop0 rd b s).nextPc = s.nextPc := by
  unfold writeCop0; split <;> rfl
@[simp] theorem writeCop0_inBranchDelay (rd : Nat) (b : Word) (s : State) : (writeCop0 rd b s).inBranchDelay = s.inBranchDelay := by
  unfold writeCop0; split <;> rfl
@[simp] theorem writeCop0_pendingLoad (rd : Nat) (b : Word) (s : State) : (writeCop0 rd b s).pendingLoad = s.pendingLoad := by
  unfold writeCop0; split <;> rfl
@[simp] theorem writeCop0_epc (rd : Nat) (b : Word) (s : State) : (writeCop0 rd b s).epc = s.epc := by
  unfold writeCop0; split <;> rfl
@[simp] theorem writeCop0_badVaddr (rd : Nat) (b : Word) (s : State) : (writeCop0 rd b s).badVaddr = s.badVaddr := by
  unfold writeCop0; split <;> rfl
@[simp] theorem writeCop0_prid (rd : Nat) (b : Word) (s : State) : (writeCop0 rd b s).prid = s.prid := by
  unfold writeCop0; split <;> rfl
@[simp] theorem writeCop0_icache (rd : Nat) (b : Word) (s : State) : (writeCop0 rd b s).icache = s.icache := by
  unfold writeCop0; split <;> rfl
@[simp] theorem writeCop0_mem (rd : Nat) (b : Word) (s : State) : (writeCop0 rd b s).mem = s.mem := by
  unfold writeCop0; split <;> rfl
@[simp] theorem writeCop0_busFailures (rd : Nat) (b : Word) (s : State) : (writeCop0 rd b s).busFailures = s.busFailures := by
  unfold writeCop0; split <;> rfl
@[simp] theorem writeCop0_busPolicy (rd : Nat) (b : Word) (s : State) : (writeCop0 rd b s).busPolicy = s.busPolicy := by
  unfold writeCop0; split <;> rfl
@[simp] theorem writeCop0_irqInput (rd : Nat) (b : Word) (s : State) : (writeCop0 rd b s).irqInput = s.irqInput := by
  unfold writeCop0; split <;> rfl
@[simp] theorem writeCop0_freeCount (rd : Nat) (b : Word) (s : State) : (writeCop0 rd b s).freeCount = s.freeCount := by
  unfold writeCop0; split <;> rfl
@[simp] theorem writeCop0_status (rd : Nat) (b : Word) (s : State) :
    (writeCop0 rd b s).status = if rd = 12 then b else s.status := by
  unfold writeCop0; split <;> simp_all
@[simp] theorem writeCop0_cause (rd : Nat) (b : Word) (s : State) :
    (writeCop0 rd b s).cause = if rd = 13 then replaceBits softwareInterruptMask b s.cause else s.cause := by
  unfold writeCop0; split <;> simp_all

end Sys2Proof.Machine
end

