-- ==== Sys2Proof/Laws/Effects.lean ====
section
/-! SUPPORT. What each shared operation does, in the vocabulary of the statements: the register file after a write and
after the retiring commit, and the whole effect, with its frame, of an immediate write, a HI/LO write, a delayed write, a
store, a transfer and an exception entry. -/

namespace Sys2Proof.Machine

open Sys2Proof.Claims

/-! ### Registers -/

/-- A register read looks at the register file only. -/
theorem readReg_congr {s t : State} (h : t.gpr = s.gpr) (r : Reg) : readReg t r = readReg s r := by
  simp only [readReg, h]

theorem readReg_zero (s : State) : readReg s 0#5 = 0#32 := rfl

theorem readReg_writeReg (i r : Reg) (v : Word) (s : State) :
    readReg (writeReg i v s) r = if r = 0#5 then 0#32 else if r = i then v else readReg s r := by
  unfold readReg writeReg
  by_cases hr : r = 0#5
  · simp [hr]
  · by_cases hi : i = 0#5
    · rw [if_neg hr, if_neg hr, if_pos hi, if_neg fun e => hr (e.trans hi), if_neg hr]
    · simp only [hr, hi, if_false, Vector.getElem_set, BitVec.toNat_inj, eq_comm]

theorem readReg_commitRetiring (s : State) (r : Reg) : readReg (commitRetiring s) r = retiredReg s r := by
  unfold commitRetiring retiredReg
  split
  · next h => simp [h]
  · next p h =>
    refine (readReg_congr (s := writeReg p.reg p.value s) rfl r).trans ?_
    rw [readReg_writeReg, h]
    simp only
    by_cases hr : r = 0#5
    · subst hr; simp [readReg]
    · by_cases hp : p.reg = r
      · subst hp; simp [hr]
      · simp [hr, hp, Ne.symm hp]

theorem retiredReg_zero (s : State) : retiredReg s 0#5 = 0#32 := by
  rw [← readReg_commitRetiring]; rfl

theorem retiredReg_of_none {s : State} (h : s.pendingLoad = none) (r : Reg) : retiredReg s r = readReg s r := by
  simp [retiredReg, h]

theorem readReg_advance (s : State) (r : Reg) : readReg (advance s) r = retiredReg s r := by
  rw [readReg_congr (advance_gpr s), readReg_commitRetiring]

theorem readReg_writeDelayed_advance (i r : Reg) (v : Word) (s : State) :
    readReg (writeDelayed i v (advance s)) r = retiredReg s r := by
  rw [readReg_congr (writeDelayed_gpr i v (advance s)), readReg_commitRetiring,
    retiredReg_of_none (advance_pendingLoad s), readReg_advance]

theorem registersWritten_advance (rd : Reg) (v : Word) (s : State) :
    RegistersWritten s (writeReg rd v (advance s)) rd v := fun r => by
  rw [readReg_writeReg, readReg_advance]

theorem registersRetired_of_gpr {s t : State} (h : t.gpr = (commitRetiring s).gpr) : RegistersRetired s t := fun r => by
  rw [readReg_congr h, readReg_commitRetiring]

/-! ### Effects -/

theorem storageKept_of_eq {s t : State} (hm : t.mem = s.mem) (hc : t.icache = s.icache) : StorageKept s t :=
  ⟨fun a => by rw [hm], fun a => by rw [hc]⟩

theorem sequential_advance (s : State) : Sequential s (advance s) := ⟨by simp, by simp, by simp⟩

/-- An immediate write (R23). -/
theorem registerEffect_writeReg (rd : Reg) (v : Word) (s : State) :
    RegisterEffect s (writeReg rd v (advance s)) rd v where
  registers := registersWritten_advance rd v s
  holder := by simp
  hiLo := ⟨by simp, by simp⟩
  control := ⟨by simp, by simp, by simp, by simp, by simp⟩
  storage := storageKept_of_eq (by simp) (by simp)
  environment := ⟨by simp, by simp, by simp⟩
  draws := by simp
  flow := ⟨by simp, by simp, by simp⟩

theorem writeResult_effect (rd : Reg) (v : Word) (s : State) :
    ∃ t, writeResult rd v s = .next t ∧ RegisterEffect s t rd v :=
  ⟨_, rfl, registerEffect_writeReg rd v s⟩

/-- A write of HI and LO (R29, R220). -/
theorem writeHiLo_effect (hi lo : Word) (s : State) :
    ∃ t, writeHiLo hi lo s = .next t ∧ HiLoEffect s t hi lo := by
  refine ⟨_, rfl, ?_⟩
  exact {
    registers := registersRetired_of_gpr (by simp)
    holder := by simp
    hi := rfl
    lo := rfl
    control := ⟨by simp, by simp, by simp, by simp, by simp⟩
    storage := storageKept_of_eq (by simp) (by simp)
    environment := ⟨by simp, by simp, by simp⟩
    draws := by simp
    flow := ⟨by simp, by simp, by simp⟩ }

/-- A delayed write (R31). -/
theorem delayedEffect_writeDelayed (rt : Reg) (v : Word) (s : State) :
    DelayedEffect s (writeDelayed rt v (advance s)) rt v where
  registers := fun r => readReg_writeDelayed_advance rt r v s
  holder := by simp
  hiLo := ⟨by simp, by simp⟩
  control := ⟨by simp, by simp, by simp, by simp, by simp⟩
  storage := storageKept_of_eq (by simp) (by simp)
  environment := ⟨by simp, by simp, by simp⟩
  flow := ⟨by simp, by simp, by simp⟩

/-- A store after the bus has answered (R64, R80). -/
theorem storeEffect_storeBytes (addr : Word) (n : Nat) (v : Word) (s : State) (hn : n ≤ 4294967296) :
    StoreEffect s (storeBytes addr n v (advance s)) addr n v where
  registers := registersRetired_of_gpr (by simp)
  holder := by simp
  hiLo := ⟨by simp, by simp⟩
  control := ⟨by simp, by simp, by simp, by simp, by simp⟩
  stored := fun k hk => by
    simp only [storeBytes_mem, advance_mem]
    exact readByte_memWrite_inside _ _ _ _ _ hk hn
  memory := fun a ha => by
    simp only [storeBytes_mem, advance_mem]
    exact readByte_memWrite_outside _ _ _ _ _ ha
  cacheShrinks := fun a w h => by
    simp only [storeBytes_icache, advance_icache] at h
    exact icacheFetch_applyBusPolicy _ _ _ _ _ _ h
  cacheNever := fun h a => by
    simp only [storeBytes_icache, advance_icache, advance_busPolicy, h, applyBusPolicy]
  cacheAlways := fun h a => by
    simp only [storeBytes_icache, advance_icache, advance_busPolicy, h, applyBusPolicy, icacheFetch_invalidate,
      ← BitVec.toNat_inj, wordAddress_toNat]
  environment := ⟨by simp, by simp, by simp⟩
  draws := by simp
  flow := ⟨by simp, by simp, by simp⟩

/-- Exception entry after the retiring commit (R335 to R342), from a state `e` that differs from `s` at most in the
fields entry overwrites and in BadVaddr. -/
theorem exceptionEffect_enterException (c : ExcCause) (s e : State) (addr bad : Word) (bd : Bool)
    (h : enterException c addr bd e = enterException c addr bd { commitRetiring s with badVaddr := bad }) :
    ExceptionEffect s (enterException c addr bd e) (excCode c) addr bd bad := by
  rw [h]
  exact {
    modePushed := fun k hk => by
      simp only [enterException_status, commitRetiring_status, getLsbD_pushMode, hk, if_true]
    statusRest := fun k hk => by
      simp only [enterException_status, commitRetiring_status, getLsbD_pushMode]
      rw [if_neg (by omega), if_neg (by omega)]
    codeField := by
      refine BitVec.eq_of_getLsbD_eq fun k hk => ?_
      simp only [enterException_cause, BitVec.getLsbD_extractLsb', hk, decide_true, Bool.true_and, getLsbD_withCauseBD,
        getLsbD_withCauseCode]
      rw [if_neg (by omega), if_pos (by omega)]
      congr 1; omega
    branchDelay := by simp only [enterException_cause, getLsbD_withCauseBD, if_true]
    causeRest := fun k h1 h2 => by
      simp only [enterException_cause, getLsbD_withCauseBD, getLsbD_withCauseCode, h1, h2, if_false,
        commitRetiring_cause]
    epc := rfl
    badVaddr := rfl
    prid := by simp
    pc := by simp only [enterException_pc, excVector_pushMode, commitRetiring_status]
    nextPc := rfl
    slot := rfl
    holder := rfl
    registers := registersRetired_of_gpr rfl
    hiLo := ⟨by simp, by simp⟩
    storage := storageKept_of_eq (by simp) (by simp)
    environment := ⟨by simp, by simp, by simp⟩
    draws := by simp }

/-- `raise E` (R335, R342). -/
theorem raiseException_effect (c : ExcCause) (s : State) :
    ExceptionEffect s (raiseException c s) (excCode c) s.pc s.inBranchDelay s.badVaddr :=
  exceptionEffect_enterException c s _ _ _ _ (by simp [enterException, advance])

/-- `BadVaddr <- addr ; raise E` (R281, R341). -/
theorem raiseAddressError_effect (c : ExcCause) (addr : Word) (s : State) :
    ExceptionEffect s (raiseAddressError c addr s) (excCode c) s.pc s.inBranchDelay addr :=
  exceptionEffect_enterException c s _ _ _ _ (by simp [enterException, advance])

/-- Interrupt entry (R133, R346). -/
theorem takeInterrupt_effect (s : State) :
    ExceptionEffect s (takeInterrupt s) Config.excInt s.pc s.inBranchDelay s.badVaddr :=
  exceptionEffect_enterException .interrupt s _ _ _ _ (by simp [enterException])

/-- The fetch-address error (R134). -/
theorem takeFetchAddressError_effect (s : State) :
    ExceptionEffect s (takeFetchAddressError s) Config.excAdel s.pc s.inBranchDelay s.pc :=
  exceptionEffect_enterException .addressErrorLoad s _ _ _ _ rfl

/-! ### The bus -/

theorem busFails_eq_false_iff (s : State) (kind : AccessKind) (addr : Word) (n : Nat) :
    busFails s.busFailures kind addr n = false ↔ BusAnswers s kind addr n := by
  simp only [busFails, BusAnswers, List.any_eq_false, Bool.and_eq_true, decide_eq_true_eq, List.any_eq_true,
    List.mem_range, not_and, not_exists]

/-- A bus access ends the step with the failure or goes on, and which of the two is the bus's (R65). -/
theorem busAccess_of_answers {s : State} {kind : AccessKind} {addr : Word} {n : Nat} {r : Result}
    (h : BusAnswers s kind addr n) : busAccess kind addr n s r = r := by
  simp only [busAccess, (busFails_eq_false_iff s kind addr n).2 h, Bool.false_eq_true, if_false]

theorem busAccess_of_fails {s : State} {kind : AccessKind} {addr : Word} {n : Nat} {r : Result}
    (h : ¬ BusAnswers s kind addr n) : busAccess kind addr n s r = .fault (.busFailure addr kind) := by
  rw [← busFails_eq_false_iff, Bool.not_eq_false] at h
  simp only [busAccess, h, if_true]

/-- Reads of 1, 2 and 4 bytes as little-endian numbers (R63). -/
theorem memRead8_toNat (s : State) (addr : Word) : (memRead8 s.mem addr).toNat = littleEndian s addr 1 := by
  simp [memRead8, littleEndian, byteAt, byteAddress]

theorem memRead16_toNat (s : State) (addr : Word) : (memRead16 s.mem addr).toNat = littleEndian s addr 2 := by
  simp only [memRead16, halfwordOfBytes_littleEndian, littleEndian, byteAt, byteAddress, BitVec.toNat_append]
  rw [← Nat.shiftLeft_add_eq_or_of_lt (BitVec.isLt _), Nat.shiftLeft_eq]
  omega

theorem wordOfBytes_toNat (b0 b1 b2 b3 : Byte) :
    (wordOfBytes b0 b1 b2 b3).toNat = b0.toNat + b1.toNat * 256 + b2.toNat * 65536 + b3.toNat * 16777216 := by
  simp only [wordOfBytes_littleEndian, BitVec.toNat_append]
  rw [← Nat.shiftLeft_add_eq_or_of_lt (BitVec.isLt b2), ← Nat.shiftLeft_add_eq_or_of_lt (BitVec.isLt b1),
    ← Nat.shiftLeft_add_eq_or_of_lt (BitVec.isLt b0)]
  simp only [Nat.shiftLeft_eq]
  omega

theorem memRead32_toNat (s : State) (addr : Word) : (memRead32 s.mem addr).toNat = littleEndian s addr 4 := by
  simp only [memRead32, wordOfBytes_toNat, littleEndian, byteAt, byteAddress]
  omega

end Sys2Proof.Machine
end

