-- ==== Sys2Proof/Laws/Encoding.lean ====
section
/-! SUPPORT. Encoding laws: the fields of each format's word, the fields that a row's fixed bits determine, and for every
row of the opcode table that its words decode to its instruction. -/

namespace Sys2Proof.Laws

open Sys2Proof.Claims

/-! ### The fields of an encoded word (R101 to R103) -/

theorem extract_eq {n : Nat} (w : Word) (start : Nat) (v : BitVec n)
    (h : ∀ k < n, w.getLsbD (start + k) = v.getLsbD k) : w.extractLsb' start n = v := by
  refine BitVec.eq_of_getLsbD_eq fun k hk => ?_
  simp only [BitVec.getLsbD_extractLsb', hk, decide_true, Bool.true_and, h k hk]

theorem formatR_fields (op : BitVec 6) (rs rt rd : Reg) (shamt : BitVec 5) (funct : BitVec 6) :
    opcodeField (formatR op rs rt rd shamt funct) = op ∧ rsField (formatR op rs rt rd shamt funct) = rs ∧
    rtField (formatR op rs rt rd shamt funct) = rt ∧ rdField (formatR op rs rt rd shamt funct) = rd ∧
    shamtField (formatR op rs rt rd shamt funct) = shamt ∧ functField (formatR op rs rt rd shamt funct) = funct := by
  refine ⟨?_, ?_, ?_, ?_, ?_, ?_⟩ <;> refine extract_eq _ _ _ fun k hk => ?_ <;>
    simp only [formatR, BitVec.getLsbD_append] <;> interval_cases k <;> simp

theorem formatI_fields (op : BitVec 6) (rs rt : Reg) (imm : BitVec 16) :
    opcodeField (formatI op rs rt imm) = op ∧ rsField (formatI op rs rt imm) = rs ∧
    rtField (formatI op rs rt imm) = rt ∧ immField (formatI op rs rt imm) = imm := by
  refine ⟨?_, ?_, ?_, ?_⟩ <;> refine extract_eq _ _ _ fun k hk => ?_ <;>
    simp only [formatI, BitVec.getLsbD_append] <;> interval_cases k <;> simp

theorem formatJ_fields (op : BitVec 6) (target : BitVec 26) :
    opcodeField (formatJ op target) = op ∧ targetField (formatJ op target) = target := by
  refine ⟨?_, ?_⟩ <;> refine extract_eq _ _ _ fun k hk => ?_ <;>
    simp only [formatJ, BitVec.getLsbD_append] <;> interval_cases k <;> simp

theorem formatCode_fields (code : BitVec 20) (funct : BitVec 6) :
    opcodeField (formatCode code funct) = 0#6 ∧ codeField (formatCode code funct) = code ∧
    functField (formatCode code funct) = funct := by
  refine ⟨?_, ?_, ?_⟩ <;> refine extract_eq _ _ _ fun k hk => ?_ <;>
    simp only [formatCode, BitVec.getLsbD_append] <;> interval_cases k <;> simp

/-- The selecting bits of REGIMM and RFE are bits of the rt and rs fields (R109, R110). -/
theorem selector_bits (w : Word) :
    w.getLsbD 20 = (rtField w).getLsbD 4 ∧ w.getLsbD 16 = (rtField w).getLsbD 0 ∧
    w.getLsbD 25 = (rsField w).getLsbD 4 := by
  simp [rtField, rsField]

/-! ### What a row's fixed bits determine -/

theorem opcode_of_fixed {w mask fixed : Word} (h : w &&& mask = fixed)
    (hm : mask.extractLsb' 26 6 = BitVec.allOnes 6) : opcodeField w = fixed.extractLsb' 26 6 := by
  rw [← h, BitVec.extractLsb'_and, hm, BitVec.and_allOnes]; rfl

theorem funct_of_fixed {w mask fixed : Word} (h : w &&& mask = fixed)
    (hm : mask.extractLsb' 0 6 = BitVec.allOnes 6) : functField w = fixed.extractLsb' 0 6 := by
  rw [← h, BitVec.extractLsb'_and, hm, BitVec.and_allOnes]; rfl

theorem rs_of_fixed {w mask fixed : Word} (h : w &&& mask = fixed)
    (hm : mask.extractLsb' 21 5 = BitVec.allOnes 5) : rsField w = fixed.extractLsb' 21 5 := by
  rw [← h, BitVec.extractLsb'_and, hm, BitVec.and_allOnes]; rfl

theorem bit_of_fixed {w mask fixed : Word} (h : w &&& mask = fixed) (k : Nat) (hm : mask.getLsbD k = true) :
    w.getLsbD k = fixed.getLsbD k := by
  rw [← h, BitVec.getLsbD_and, hm, Bool.and_true]

/-! ### The rows -/

theorem decode_add :
    Encodes 0xFC00003F#32 0x00000020#32 (fun w => .add (fieldRd w) (fieldRs w) (fieldRt w)) := fun w h => by
  simp only [decode, decodeSpecial, opcode_of_fixed h (by decide), funct_of_fixed h (by decide)]; rfl
theorem decode_addu :
    Encodes 0xFC00003F#32 0x00000021#32 (fun w => .addu (fieldRd w) (fieldRs w) (fieldRt w)) := fun w h => by
  simp only [decode, decodeSpecial, opcode_of_fixed h (by decide), funct_of_fixed h (by decide)]; rfl
theorem decode_sub :
    Encodes 0xFC00003F#32 0x00000022#32 (fun w => .sub (fieldRd w) (fieldRs w) (fieldRt w)) := fun w h => by
  simp only [decode, decodeSpecial, opcode_of_fixed h (by decide), funct_of_fixed h (by decide)]; rfl
theorem decode_subu :
    Encodes 0xFC00003F#32 0x00000023#32 (fun w => .subu (fieldRd w) (fieldRs w) (fieldRt w)) := fun w h => by
  simp only [decode, decodeSpecial, opcode_of_fixed h (by decide), funct_of_fixed h (by decide)]; rfl
theorem decode_slt :
    Encodes 0xFC00003F#32 0x0000002A#32 (fun w => .slt (fieldRd w) (fieldRs w) (fieldRt w)) := fun w h => by
  simp only [decode, decodeSpecial, opcode_of_fixed h (by decide), funct_of_fixed h (by decide)]; rfl
theorem decode_sltu :
    Encodes 0xFC00003F#32 0x0000002B#32 (fun w => .sltu (fieldRd w) (fieldRs w) (fieldRt w)) := fun w h => by
  simp only [decode, decodeSpecial, opcode_of_fixed h (by decide), funct_of_fixed h (by decide)]; rfl
theorem decode_addi :
    Encodes 0xFC000000#32 0x20000000#32 (fun w => .addi (fieldRt w) (fieldRs w) (fieldImm w)) := fun w h => by
  simp only [decode, opcode_of_fixed h (by decide)]; rfl
theorem decode_addiu :
    Encodes 0xFC000000#32 0x24000000#32 (fun w => .addiu (fieldRt w) (fieldRs w) (fieldImm w)) := fun w h => by
  simp only [decode, opcode_of_fixed h (by decide)]; rfl
theorem decode_slti :
    Encodes 0xFC000000#32 0x28000000#32 (fun w => .slti (fieldRt w) (fieldRs w) (fieldImm w)) := fun w h => by
  simp only [decode, opcode_of_fixed h (by decide)]; rfl
theorem decode_sltiu :
    Encodes 0xFC000000#32 0x2C000000#32 (fun w => .sltiu (fieldRt w) (fieldRs w) (fieldImm w)) := fun w h => by
  simp only [decode, opcode_of_fixed h (by decide)]; rfl
theorem decode_and :
    Encodes 0xFC00003F#32 0x00000024#32 (fun w => .and (fieldRd w) (fieldRs w) (fieldRt w)) := fun w h => by
  simp only [decode, decodeSpecial, opcode_of_fixed h (by decide), funct_of_fixed h (by decide)]; rfl
theorem decode_or :
    Encodes 0xFC00003F#32 0x00000025#32 (fun w => .or (fieldRd w) (fieldRs w) (fieldRt w)) := fun w h => by
  simp only [decode, decodeSpecial, opcode_of_fixed h (by decide), funct_of_fixed h (by decide)]; rfl
theorem decode_xor :
    Encodes 0xFC00003F#32 0x00000026#32 (fun w => .xor (fieldRd w) (fieldRs w) (fieldRt w)) := fun w h => by
  simp only [decode, decodeSpecial, opcode_of_fixed h (by decide), funct_of_fixed h (by decide)]; rfl
theorem decode_nor :
    Encodes 0xFC00003F#32 0x00000027#32 (fun w => .nor (fieldRd w) (fieldRs w) (fieldRt w)) := fun w h => by
  simp only [decode, decodeSpecial, opcode_of_fixed h (by decide), funct_of_fixed h (by decide)]; rfl
theorem decode_andi :
    Encodes 0xFC000000#32 0x30000000#32 (fun w => .andi (fieldRt w) (fieldRs w) (fieldImm w)) := fun w h => by
  simp only [decode, opcode_of_fixed h (by decide)]; rfl
theorem decode_ori :
    Encodes 0xFC000000#32 0x34000000#32 (fun w => .ori (fieldRt w) (fieldRs w) (fieldImm w)) := fun w h => by
  simp only [decode, opcode_of_fixed h (by decide)]; rfl
theorem decode_xori :
    Encodes 0xFC000000#32 0x38000000#32 (fun w => .xori (fieldRt w) (fieldRs w) (fieldImm w)) := fun w h => by
  simp only [decode, opcode_of_fixed h (by decide)]; rfl
theorem decode_lui : Encodes 0xFC000000#32 0x3C000000#32 (fun w => .lui (fieldRt w) (fieldImm w)) := fun w h => by
  simp only [decode, opcode_of_fixed h (by decide)]; rfl
theorem decode_sll :
    Encodes 0xFC00003F#32 0x00000000#32 (fun w => .sll (fieldRd w) (fieldRt w) (fieldShamt w).toNat) := fun w h => by
  simp only [decode, decodeSpecial, opcode_of_fixed h (by decide), funct_of_fixed h (by decide)]; rfl
theorem decode_srl :
    Encodes 0xFC00003F#32 0x00000002#32 (fun w => .srl (fieldRd w) (fieldRt w) (fieldShamt w).toNat) := fun w h => by
  simp only [decode, decodeSpecial, opcode_of_fixed h (by decide), funct_of_fixed h (by decide)]; rfl
theorem decode_sra :
    Encodes 0xFC00003F#32 0x00000003#32 (fun w => .sra (fieldRd w) (fieldRt w) (fieldShamt w).toNat) := fun w h => by
  simp only [decode, decodeSpecial, opcode_of_fixed h (by decide), funct_of_fixed h (by decide)]; rfl
theorem decode_sllv :
    Encodes 0xFC00003F#32 0x00000004#32 (fun w => .sllv (fieldRd w) (fieldRt w) (fieldRs w)) := fun w h => by
  simp only [decode, decodeSpecial, opcode_of_fixed h (by decide), funct_of_fixed h (by decide)]; rfl
theorem decode_srlv :
    Encodes 0xFC00003F#32 0x00000006#32 (fun w => .srlv (fieldRd w) (fieldRt w) (fieldRs w)) := fun w h => by
  simp only [decode, decodeSpecial, opcode_of_fixed h (by decide), funct_of_fixed h (by decide)]; rfl
theorem decode_srav :
    Encodes 0xFC00003F#32 0x00000007#32 (fun w => .srav (fieldRd w) (fieldRt w) (fieldRs w)) := fun w h => by
  simp only [decode, decodeSpecial, opcode_of_fixed h (by decide), funct_of_fixed h (by decide)]; rfl
theorem decode_mult : Encodes 0xFC00003F#32 0x00000018#32 (fun w => .mult (fieldRs w) (fieldRt w)) := fun w h => by
  simp only [decode, decodeSpecial, opcode_of_fixed h (by decide), funct_of_fixed h (by decide)]; rfl
theorem decode_multu : Encodes 0xFC00003F#32 0x00000019#32 (fun w => .multu (fieldRs w) (fieldRt w)) := fun w h => by
  simp only [decode, decodeSpecial, opcode_of_fixed h (by decide), funct_of_fixed h (by decide)]; rfl
theorem decode_div : Encodes 0xFC00003F#32 0x0000001A#32 (fun w => .div (fieldRs w) (fieldRt w)) := fun w h => by
  simp only [decode, decodeSpecial, opcode_of_fixed h (by decide), funct_of_fixed h (by decide)]; rfl
theorem decode_divu : Encodes 0xFC00003F#32 0x0000001B#32 (fun w => .divu (fieldRs w) (fieldRt w)) := fun w h => by
  simp only [decode, decodeSpecial, opcode_of_fixed h (by decide), funct_of_fixed h (by decide)]; rfl
theorem decode_mfhi : Encodes 0xFC00003F#32 0x00000010#32 (fun w => .mfhi (fieldRd w)) := fun w h => by
  simp only [decode, decodeSpecial, opcode_of_fixed h (by decide), funct_of_fixed h (by decide)]; rfl
theorem decode_mflo : Encodes 0xFC00003F#32 0x00000012#32 (fun w => .mflo (fieldRd w)) := fun w h => by
  simp only [decode, decodeSpecial, opcode_of_fixed h (by decide), funct_of_fixed h (by decide)]; rfl
theorem decode_mthi : Encodes 0xFC00003F#32 0x00000011#32 (fun w => .mthi (fieldRs w)) := fun w h => by
  simp only [decode, decodeSpecial, opcode_of_fixed h (by decide), funct_of_fixed h (by decide)]; rfl
theorem decode_mtlo : Encodes 0xFC00003F#32 0x00000013#32 (fun w => .mtlo (fieldRs w)) := fun w h => by
  simp only [decode, decodeSpecial, opcode_of_fixed h (by decide), funct_of_fixed h (by decide)]; rfl
theorem decode_beq :
    Encodes 0xFC000000#32 0x10000000#32 (fun w => .beq (fieldRs w) (fieldRt w) (fieldImm w)) := fun w h => by
  simp only [decode, opcode_of_fixed h (by decide)]; rfl
theorem decode_bne :
    Encodes 0xFC000000#32 0x14000000#32 (fun w => .bne (fieldRs w) (fieldRt w) (fieldImm w)) := fun w h => by
  simp only [decode, opcode_of_fixed h (by decide)]; rfl
theorem decode_blez : Encodes 0xFC000000#32 0x18000000#32 (fun w => .blez (fieldRs w) (fieldImm w)) := fun w h => by
  simp only [decode, opcode_of_fixed h (by decide)]; rfl
theorem decode_bgtz : Encodes 0xFC000000#32 0x1C000000#32 (fun w => .bgtz (fieldRs w) (fieldImm w)) := fun w h => by
  simp only [decode, opcode_of_fixed h (by decide)]; rfl
theorem decode_bltz : Encodes 0xFC110000#32 0x04000000#32 (fun w => .bltz (fieldRs w) (fieldImm w)) := fun w h => by
  simp only [decode, decodeRegimm, opcode_of_fixed h (by decide), bit_of_fixed h 20 (by decide), bit_of_fixed h 16 (by decide)]; rfl
theorem decode_bgez : Encodes 0xFC110000#32 0x04010000#32 (fun w => .bgez (fieldRs w) (fieldImm w)) := fun w h => by
  simp only [decode, decodeRegimm, opcode_of_fixed h (by decide), bit_of_fixed h 20 (by decide), bit_of_fixed h 16 (by decide)]; rfl
theorem decode_bltzal :
    Encodes 0xFC110000#32 0x04100000#32 (fun w => .bltzal (fieldRs w) (fieldImm w)) := fun w h => by
  simp only [decode, decodeRegimm, opcode_of_fixed h (by decide), bit_of_fixed h 20 (by decide), bit_of_fixed h 16 (by decide)]; rfl
theorem decode_bgezal :
    Encodes 0xFC110000#32 0x04110000#32 (fun w => .bgezal (fieldRs w) (fieldImm w)) := fun w h => by
  simp only [decode, decodeRegimm, opcode_of_fixed h (by decide), bit_of_fixed h 20 (by decide), bit_of_fixed h 16 (by decide)]; rfl
theorem decode_j : Encodes 0xFC000000#32 0x08000000#32 (fun w => .j (fieldTarget w)) := fun w h => by
  simp only [decode, opcode_of_fixed h (by decide)]; rfl
theorem decode_jal : Encodes 0xFC000000#32 0x0C000000#32 (fun w => .jal (fieldTarget w)) := fun w h => by
  simp only [decode, opcode_of_fixed h (by decide)]; rfl
theorem decode_jr : Encodes 0xFC00003F#32 0x00000008#32 (fun w => .jr (fieldRs w)) := fun w h => by
  simp only [decode, decodeSpecial, opcode_of_fixed h (by decide), funct_of_fixed h (by decide)]; rfl
theorem decode_jalr : Encodes 0xFC00003F#32 0x00000009#32 (fun w => .jalr (fieldRd w) (fieldRs w)) := fun w h => by
  simp only [decode, decodeSpecial, opcode_of_fixed h (by decide), funct_of_fixed h (by decide)]; rfl
theorem decode_lb :
    Encodes 0xFC000000#32 0x80000000#32 (fun w => .lb (fieldRt w) (fieldRs w) (fieldImm w)) := fun w h => by
  simp only [decode, opcode_of_fixed h (by decide)]; rfl
theorem decode_lbu :
    Encodes 0xFC000000#32 0x90000000#32 (fun w => .lbu (fieldRt w) (fieldRs w) (fieldImm w)) := fun w h => by
  simp only [decode, opcode_of_fixed h (by decide)]; rfl
theorem decode_lh :
    Encodes 0xFC000000#32 0x84000000#32 (fun w => .lh (fieldRt w) (fieldRs w) (fieldImm w)) := fun w h => by
  simp only [decode, opcode_of_fixed h (by decide)]; rfl
theorem decode_lhu :
    Encodes 0xFC000000#32 0x94000000#32 (fun w => .lhu (fieldRt w) (fieldRs w) (fieldImm w)) := fun w h => by
  simp only [decode, opcode_of_fixed h (by decide)]; rfl
theorem decode_lw :
    Encodes 0xFC000000#32 0x8C000000#32 (fun w => .lw (fieldRt w) (fieldRs w) (fieldImm w)) := fun w h => by
  simp only [decode, opcode_of_fixed h (by decide)]; rfl
theorem decode_lwl :
    Encodes 0xFC000000#32 0x88000000#32 (fun w => .lwl (fieldRt w) (fieldRs w) (fieldImm w)) := fun w h => by
  simp only [decode, opcode_of_fixed h (by decide)]; rfl
theorem decode_lwr :
    Encodes 0xFC000000#32 0x98000000#32 (fun w => .lwr (fieldRt w) (fieldRs w) (fieldImm w)) := fun w h => by
  simp only [decode, opcode_of_fixed h (by decide)]; rfl
theorem decode_sb :
    Encodes 0xFC000000#32 0xA0000000#32 (fun w => .sb (fieldRt w) (fieldRs w) (fieldImm w)) := fun w h => by
  simp only [decode, opcode_of_fixed h (by decide)]; rfl
theorem decode_sh :
    Encodes 0xFC000000#32 0xA4000000#32 (fun w => .sh (fieldRt w) (fieldRs w) (fieldImm w)) := fun w h => by
  simp only [decode, opcode_of_fixed h (by decide)]; rfl
theorem decode_sw :
    Encodes 0xFC000000#32 0xAC000000#32 (fun w => .sw (fieldRt w) (fieldRs w) (fieldImm w)) := fun w h => by
  simp only [decode, opcode_of_fixed h (by decide)]; rfl
theorem decode_swl :
    Encodes 0xFC000000#32 0xA8000000#32 (fun w => .swl (fieldRt w) (fieldRs w) (fieldImm w)) := fun w h => by
  simp only [decode, opcode_of_fixed h (by decide)]; rfl
theorem decode_swr :
    Encodes 0xFC000000#32 0xB8000000#32 (fun w => .swr (fieldRt w) (fieldRs w) (fieldImm w)) := fun w h => by
  simp only [decode, opcode_of_fixed h (by decide)]; rfl
theorem decode_syscall : Encodes 0xFC00003F#32 0x0000000C#32 (fun w => .syscall (fieldCode w)) := fun w h => by
  simp only [decode, decodeSpecial, opcode_of_fixed h (by decide), funct_of_fixed h (by decide)]; rfl
theorem decode_brk : Encodes 0xFC00003F#32 0x0000000D#32 (fun w => .brk (fieldCode w)) := fun w h => by
  simp only [decode, decodeSpecial, opcode_of_fixed h (by decide), funct_of_fixed h (by decide)]; rfl
theorem decode_mfc0 :
    Encodes 0xFFE00000#32 0x40000000#32 (fun w => .mfc0 (fieldRt w) (fieldRd w).toNat) := fun w h => by
  simp only [decode, decodeCop0, opcode_of_fixed h (by decide), rs_of_fixed h (by decide)]; rfl
theorem decode_mtc0 :
    Encodes 0xFFE00000#32 0x40800000#32 (fun w => .mtc0 (fieldRt w) (fieldRd w).toNat) := fun w h => by
  simp only [decode, decodeCop0, opcode_of_fixed h (by decide), rs_of_fixed h (by decide)]; rfl
theorem decode_rfe : Encodes 0xFE00003F#32 0x42000010#32 (fun _ => .rfe) := fun w h => by
  have h4 : (rsField w).getLsbD 4 = true := (selector_bits w).2.2.symm.trans (bit_of_fixed h 25 (by decide))
  have hn : ∀ v : Reg, v.getLsbD 4 = false → rsField w ≠ v := fun v hv e => by rw [e, hv] at h4; cases h4
  have hd : decode w = decodeCop0 w := by simp only [decode, opcode_of_fixed h (by decide)]; rfl
  rw [hd, decodeCop0, if_neg (hn _ rfl), if_neg (hn _ rfl),
    if_pos ⟨(selector_bits w).2.2.trans h4, funct_of_fixed h (by decide)⟩]

end Sys2Proof.Laws
end

