-- ==== Sys2Proof/Laws/Meanings.lean ====
section
/-! SUPPORT. What each family's shared operation does, for the provers to cite in place of its definition: checked
arithmetic, branches and jumps, loads and stores, the byte lanes of the unaligned accesses, the step. -/

namespace Sys2Proof.Machine

open Sys2Proof.Claims

/-! ### Arithmetic -/

theorem signedImm_toInt (imm : BitVec 16) : (signedImm imm).toInt = imm.toInt := by
  rw [signedImm, BitVec.toInt_signExtend_of_le (by omega)]

theorem overflows_iff (x : Int) : overflows x = true ↔ ¬ (-2 ^ 31 ≤ x ∧ x ≤ 2 ^ 31 - 1) := by
  simp only [overflows, decide_eq_true_eq]; omega

/-- A checked result that fits is written (R161). -/
theorem writeChecked_fits (rd : Reg) (x : Int) (s : State) (h : -2 ^ 31 ≤ x ∧ x ≤ 2 ^ 31 - 1) :
    ∃ t v, writeChecked rd x s = .next t ∧ RegisterEffect s t rd v ∧ v.toInt = x := by
  have : overflows x = false := by rw [← Bool.not_eq_true, overflows_iff]; exact not_not.2 h
  refine ⟨_, BitVec.ofInt 32 x, by simp only [writeChecked, this]; rfl, registerEffect_writeReg _ _ _, ?_⟩
  rw [BitVec.toInt_ofInt, Int.bmod_eq_of_le] <;> omega

/-- One that does not fit raises Overflow (R161). -/
theorem writeChecked_overflow (rd : Reg) (x : Int) (s : State) (h : ¬ (-2 ^ 31 ≤ x ∧ x ≤ 2 ^ 31 - 1)) :
    ∃ t, writeChecked rd x s = .next t ∧ ExceptionEffect s t Config.excOv s.pc s.inBranchDelay s.badVaddr :=
  ⟨_, by simp only [writeChecked, (overflows_iff x).2 h]; rfl, raiseException_effect .overflow s⟩

/-! ### Transfers -/

/-- A staged target on the effect-phase state, which may have been linked (R240, R261). -/
theorem stageTarget_effect (s : State) (link : Option Reg) (target : Word) (e : State)
    (he : e = advance s ∧ link = none ∨
      ∃ l, link = some l ∧ e = writeReg l (linkAddress (advance s)) (advance s)) :
    TransferEffect s (stageTarget target e) link True target := by
  rcases he with ⟨rfl, rfl⟩ | ⟨l, rfl, rfl⟩
  · exact {
      registers := fun r => by
        rw [readReg_congr (stageTarget_gpr target (advance s)), readReg_advance]
        by_cases h : r = 0#5
        · rw [if_pos h, h, retiredReg_zero]
        · rw [if_neg h, if_neg (fun e => nomatch e)]
      holder := by simp
      hiLo := ⟨by simp, by simp⟩
      control := ⟨by simp, by simp, by simp, by simp, by simp⟩
      storage := storageKept_of_eq (by simp) (by simp)
      environment := ⟨by simp, by simp, by simp⟩
      draws := by simp
      pc := by simp
      whenTaken := fun _ => ⟨rfl, rfl⟩
      whenNotTaken := fun h => absurd trivial h }
  · exact {
      registers := fun r => by
        rw [readReg_congr (stageTarget_gpr target _), readReg_writeReg, readReg_advance, linkAddress, advance_pc]
        by_cases h : r = l
        · subst h; simp only [if_true]
        · rw [if_neg h, if_neg (c := some l = some r) fun e => h (Option.some.inj e).symm]
      holder := by simp
      hiLo := ⟨by simp, by simp⟩
      control := ⟨by simp, by simp, by simp, by simp, by simp⟩
      storage := storageKept_of_eq (by simp) (by simp)
      environment := ⟨by simp, by simp, by simp⟩
      draws := by simp
      pc := by simp
      whenTaken := fun _ => ⟨rfl, rfl⟩
      whenNotTaken := fun h => absurd trivial h }

/-- A branch, taken or not (R240, R241, R248). -/
theorem branchIf_effect (taken : Bool) (imm : BitVec 16) (s e : State) (link : Option Reg) (P : Prop)
    (hP : P ↔ taken = true) (target : Word) (ht : target = BitVec.ofInt 32 (s.nextPc.toNat + 4 * imm.toInt))
    (he : e = advance s ∧ link = none ∨
      ∃ l, link = some l ∧ e = writeReg l (linkAddress (advance s)) (advance s)) :
    TransferEffect s (branchIf taken imm e) link P target := by
  have hpc : e.pc = s.nextPc := by rcases he with ⟨rfl, rfl⟩ | ⟨l, rfl, rfl⟩ <;> simp
  have hn : e.nextPc = s.nextPc + 4#32 := by rcases he with ⟨rfl, rfl⟩ | ⟨l, rfl, rfl⟩ <;> simp
  have hd : e.inBranchDelay = false := by rcases he with ⟨rfl, rfl⟩ | ⟨l, rfl, rfl⟩ <;> simp
  have key := stageTarget_effect s link target e he
  cases taken with
  | true =>
    have hb : branchTarget e.pc imm = target := by rw [branchTarget_eq, hpc, ht]
    simp only [branchIf, if_true, hb]
    exact { key with
      whenTaken := fun _ => key.whenTaken trivial
      whenNotTaken := fun h => absurd (hP.2 rfl) h }
  | false =>
    simp only [branchIf, Bool.false_eq_true, if_false]
    exact {
      registers := fun r => (readReg_congr (stageTarget_gpr target e).symm r).trans (key.registers r)
      holder := key.holder
      hiLo := ⟨key.hiLo.hi, key.hiLo.lo⟩
      control := ⟨key.control.status, key.control.cause, key.control.epc, key.control.badVaddr, key.control.prid⟩
      storage := ⟨key.storage.memory, key.storage.cache⟩
      environment := ⟨key.environment.busFailures, key.environment.busPolicy, key.environment.irqInput⟩
      draws := key.draws
      pc := hpc
      whenTaken := fun h => absurd (hP.1 h) (by decide)
      whenNotTaken := fun _ => ⟨hn, hd⟩ }

/-- The region jump's target as a number (R260). -/
theorem jumpTarget_toNat (slot : Word) (field : BitVec 26) :
    (jumpTarget slot field).toNat = slot.toNat / 2 ^ 28 * 2 ^ 28 + field.toNat * 4 := by
  have h : jumpTarget slot field = (slot >>> 28) <<< 28 ||| field.setWidth 32 <<< 2 := by
    refine congrArg (· ||| _) (BitVec.eq_of_getLsbD_eq fun k hk => ?_)
    interval_cases k <;> simp
  have hs := slot.isLt
  have hf := field.isLt
  have e1 : ((slot >>> 28) <<< 28).toNat = slot.toNat / 2 ^ 28 * 2 ^ 28 := by
    rw [BitVec.toNat_shiftLeft, BitVec.toNat_ushiftRight]
    simp only [Nat.shiftRight_eq_div_pow, Nat.shiftLeft_eq]; omega
  have e2 : (field.setWidth 32 <<< 2).toNat = field.toNat * 4 := by
    rw [BitVec.toNat_shiftLeft, BitVec.toNat_setWidth]
    simp only [Nat.shiftLeft_eq]; omega
  rw [h, BitVec.toNat_or, e1, e2, ← Nat.shiftLeft_eq, ← Nat.shiftLeft_add_eq_or_of_lt (by omega)]

/-! ### Loads and stores -/

/-- A load the bus answers (R282). -/
theorem loadDelayed_effect {s : State} (rt : Reg) {addr : Word} {n : Nat} (v : Word) (h : BusAnswers s .load addr n) :
    ∃ t, loadDelayed rt addr n v s = .next t ∧ DelayedEffect s t rt v ∧ t.freeCount = s.freeCount :=
  ⟨_, busAccess_of_answers h, delayedEffect_writeDelayed rt v s, by simp⟩

/-- A store the bus answers (R64). -/
theorem storeAccess_effect {s : State} {addr : Word} {n : Nat} (v : Word) (h : BusAnswers s .store addr n)
    (hn : n ≤ 4294967296) : ∃ t, storeAccess addr n v s = .next t ∧ StoreEffect s t addr n v :=
  ⟨_, busAccess_of_answers h, storeEffect_storeBytes addr n v s hn⟩

theorem wordAddress_of_toNat {addr aligned : Word} (h : aligned.toNat = addr.toNat / 4 * 4) :
    wordAddress addr = aligned := by
  apply BitVec.eq_of_toNat_eq; rw [wordAddress, wordAddress_toNat, h]

/-- The merge operand is the register as the retiring load leaves it (R291). -/
theorem mergeOperand_eq (s : State) {rt : Reg} (h : rt ≠ 0#5) : mergeOperand s rt = retiredReg s rt := by
  unfold mergeOperand retiredReg; cases s.pendingLoad <;> simp [h]

/-- Byte `j` of a word read is the byte of memory at its place (R63). -/
theorem memRead32_byte (s : State) (addr : Word) (j : Nat) (h : j < 4) :
    (memRead32 s.mem addr).extractLsb' (8 * j) 8 = readByte s.mem (addr + BitVec.ofNat 32 j).toNat := by
  refine BitVec.eq_of_getLsbD_eq fun i hi => ?_
  simp only [memRead32, wordOfBytes_littleEndian, byteAddress, BitVec.getLsbD_extractLsb', hi, decide_true, Bool.true_and,
    BitVec.getLsbD_append]
  interval_cases j <;> interval_cases i <;> rfl

/-- LWL's table, byte by byte (R292). -/
theorem mergeLeft_byte (old w : Word) (k j : Nat) (hk : k < 4) (hj : j < 4) :
    (mergeLeft old w k).extractLsb' (8 * j) 8 =
      if 3 - k ≤ j then w.extractLsb' (8 * (j - (3 - k))) 8 else old.extractLsb' (8 * j) 8 := by
  refine BitVec.eq_of_getLsbD_eq fun i hi => ?_
  interval_cases k <;> interval_cases j <;> interval_cases i <;> simp [mergeLeft]

/-- LWR's table, byte by byte (R293). -/
theorem mergeRight_byte (old w : Word) (k j : Nat) (hk : k < 4) (hj : j < 4) :
    (mergeRight old w k).extractLsb' (8 * j) 8 =
      if j ≤ 3 - k then w.extractLsb' (8 * (k + j)) 8 else old.extractLsb' (8 * j) 8 := by
  refine BitVec.eq_of_getLsbD_eq fun i hi => ?_
  interval_cases k <;> interval_cases j <;> interval_cases i <;> simp [mergeRight]

/-! ### The step -/

theorem sampleIrq_cause_getLsbD (s : State) (k : Nat) :
    (sampleIrq s).cause.getLsbD k = if k = 10 then s.irqInput.headD false else s.cause.getLsbD k :=
  getLsbD_setBit _ _ _ _ (by decide)

/-- The model's delivery test is the rule's condition (R346). -/
theorem interruptTaken_sampleIrq (s : State) : interruptTaken (sampleIrq s) = true ↔ InterruptDue s := by
  simp only [interruptTaken, interruptEnabled_iff, sampleIrq_cause_getLsbD]
  rfl

theorem step_of_interrupt {s : State} (h : InterruptDue s) : step s = .next (takeInterrupt (sampleIrq s)) := by
  simp only [step, runStep, (interruptTaken_sampleIrq s).2 h, if_true]

theorem step_of_no_interrupt {s : State} (h : ¬ InterruptDue s) : step s = stepInstruction (sampleIrq s) := by
  simp only [step, runStep, if_neg (mt (interruptTaken_sampleIrq s).1 h)]

/-- What a fetch answers, as a proposition (R72). -/
theorem fetchWord_of_fetches {s : State} {w : Word} (h : Fetches s w) :
    fetchWord (sampleIrq s) = some (w, afterFetch s w) := by
  have hc : (sampleIrq s).icache = s.icache := rfl
  have hp : (sampleIrq s).pc = s.pc := rfl
  unfold fetchWord afterFetch
  rcases h with h | ⟨h, hb, hw⟩
  · simp only [hc, hp, h, icacheStore]
    rfl
  · have hb' : busFails s.busFailures .fetch s.pc 4 = false := (busFails_eq_false_iff s _ _ _).2 hb
    have he : memRead32 s.mem s.pc = w := BitVec.eq_of_toNat_eq ((memRead32_toNat s s.pc).trans hw.symm)
    have hbf : (sampleIrq s).busFailures = s.busFailures := rfl
    have hm : (sampleIrq s).mem = s.mem := rfl
    simp only [hc, hp, hbf, hm, h, hb', he, Bool.false_eq_true, if_false]

theorem fetchWord_of_fails {s : State} (h : icacheFetch s.icache s.pc = none) (hb : ¬ BusAnswers s .fetch s.pc 4) :
    fetchWord (sampleIrq s) = none := by
  rw [← busFails_eq_false_iff, Bool.not_eq_false] at hb
  have hc : (sampleIrq s).icache = s.icache := rfl
  have hp : (sampleIrq s).pc = s.pc := rfl
  have hbf : (sampleIrq s).busFailures = s.busFailures := rfl
  simp only [fetchWord, hc, hp, hbf, h, hb, if_true]

/-- A step whose fetch answers runs what follows the word (R130). -/
theorem step_of_fetches {s : State} {w : Word} (hi : ¬ InterruptDue s) (ha : s.pc.toNat % 4 = 0) (hf : Fetches s w) :
    step s = dispatchWord w (afterFetch s w) := by
  have hp : wordAligned (sampleIrq s).pc = true := (wordAligned_iff s.pc).2 ha
  rw [step_of_no_interrupt hi, stepInstruction, hp, fetchWord_of_fetches hf]
  rfl

/-- Every step that answers a next state is one of four: an interrupt, a misaligned fetch, a reserved word, or an
instruction run on the state after the fetch. -/
theorem step_cases {s t : State} (h : step s = .next t) :
    (InterruptDue s ∧ t = takeInterrupt (sampleIrq s)) ∨
    (¬ InterruptDue s ∧ s.pc.toNat % 4 ≠ 0 ∧ t = takeFetchAddressError (sampleIrq s)) ∨
    (¬ InterruptDue s ∧ s.pc.toNat % 4 = 0 ∧ ∃ w, Fetches s w ∧
      ((decode w = .reserved ∧ t = raiseException .reservedInstruction (afterFetch s w)) ∨
        ∃ i, decode w = .instr i ∧ exec i (afterFetch s w) = .next t)) := by
  by_cases hi : InterruptDue s
  · rw [step_of_interrupt hi] at h
    exact .inl ⟨hi, (Host.Outcome.next.inj h).symm⟩
  · refine .inr ?_
    by_cases ha : s.pc.toNat % 4 = 0
    · refine .inr ⟨hi, ha, ?_⟩
      have hw : ∃ w, Fetches s w := by
        by_contra hc
        simp only [Fetches, not_exists, not_or] at hc
        rw [step_of_no_interrupt hi] at h
        have hp : wordAligned (sampleIrq s).pc = true := (wordAligned_iff s.pc).2 ha
        have hn : icacheFetch s.icache s.pc = none := by
          cases e : icacheFetch s.icache s.pc with
          | none => rfl
          | some w => exact absurd e (hc w).1
        have hb : ¬ BusAnswers s .fetch s.pc 4 := fun hb =>
          (hc (memRead32 s.mem s.pc)).2 ⟨hn, hb, memRead32_toNat s s.pc⟩
        rw [stepInstruction, hp, fetchWord_of_fails hn hb] at h
        cases h
      obtain ⟨w, hf⟩ := hw
      rw [step_of_fetches hi ha hf, dispatchWord] at h
      refine ⟨w, hf, ?_⟩
      cases hd : decode w with
      | instr i => rw [hd] at h; exact .inr ⟨i, rfl, h⟩
      | reserved => rw [hd] at h; exact .inl ⟨rfl, (Host.Outcome.next.inj h).symm⟩
      | coprocessor => rw [hd] at h; cases h
    · refine .inl ⟨hi, ha, ?_⟩
      have hp : wordAligned (sampleIrq s).pc = false := by
        rw [← Bool.not_eq_true, wordAligned_iff]; exact ha
      rw [step_of_no_interrupt hi, stepInstruction, hp] at h
      exact (Host.Outcome.next.inj h).symm

end Sys2Proof.Machine
end

