-- ==== Sys2Proof/Laws/Inversion.lean ====
section
/-! SUPPORT. Everything an instruction that answers a next state can have done: one inversion lemma over `exec`, for the
provers to case on in place of unfolding the meanings. -/

namespace Sys2Proof.Machine

open Sys2Proof.Claims

/-- The shapes of an instruction's next state. -/
inductive Shape (i : Instr) (s : State) : State → Prop where
  /-- an immediate write -/
  | write (rd : Reg) (v : Word) (h : immediateDestination i = some rd) (hi : ¬ IsTransfer i) (hh : ¬ WritesHiLo i)
      (hs : ¬ IsStore i) : Shape i s (writeReg rd v (advance s))
  /-- a write of HI and LO -/
  | hiLo (hi lo : Word) (h : WritesHiLo i) (hd : immediateDestination i = none) :
      Shape i s { advance s with hi := hi, lo := lo }
  /-- the overflow, system-call and breakpoint exceptions -/
  | exception (c : ExcCause) (h : c = .overflow ∨ c = .syscall ∨ c = .breakpoint) : Shape i s (raiseException c s)
  /-- the address error of a data access -/
  | addressError (c : ExcCause) (addr : Word) (h : c = .addressErrorLoad ∨ c = .addressErrorStore) :
      Shape i s (raiseAddressError c addr s)
  /-- a branch not taken, without link -/
  | fallThrough (h : IsTransfer i) (hd : immediateDestination i = none) : Shape i s (advance s)
  /-- a branch not taken, with link -/
  | linkOnly (h : IsTransfer i) (l : Reg) (hd : immediateDestination i = some l) :
      Shape i s (writeReg l (linkAddress (advance s)) (advance s))
  /-- a taken branch or a jump, without link -/
  | transfer (target : Word) (h : IsTransfer i) (hd : immediateDestination i = none) :
      Shape i s (stageTarget target (advance s))
  /-- a taken branch or a jump, with link -/
  | transferLink (target : Word) (h : IsTransfer i) (l : Reg) (hd : immediateDestination i = some l) :
      Shape i s (stageTarget target (writeReg l (linkAddress (advance s)) (advance s)))
  /-- a load, or MFC0, which may draw a free value -/
  | delayed (rt : Reg) (v : Word) (n : Nat) (hd : immediateDestination i = none) (hi : ¬ IsTransfer i)
      (hh : ¬ WritesHiLo i) (hs : ¬ IsStore i) :
      Shape i s { writeDelayed rt v (advance s) with freeCount := n }
  /-- a store -/
  | store (addr : Word) (n : Nat) (v : Word) (hn : n ≤ 4) (h : IsStore i) (hd : immediateDestination i = none)
      (hb : BusAnswers s .store addr n) : Shape i s (storeBytes addr n v (advance s))
  /-- MTC0 -/
  | mtc0 (rt : Reg) (rd : Nat) (h : i = .mtc0 rt rd) : Shape i s (writeCop0 rd (readReg s rt) (advance s))
  /-- RFE -/
  | rfe (h : i = .rfe) : Shape i s (returnFromException (advance s))

theorem writeResult_shape {i : Instr} {rd : Reg} {v : Word} {s t : State} (h : writeResult rd v s = .next t)
    (hd : immediateDestination i = some rd) (hi : ¬ IsTransfer i) (hh : ¬ WritesHiLo i) (hs : ¬ IsStore i) :
    Shape i s t := by
  cases h; exact .write rd v hd hi hh hs

theorem writeChecked_shape {i : Instr} {rd : Reg} {x : Int} {s t : State} (h : writeChecked rd x s = .next t)
    (hd : immediateDestination i = some rd) (hi : ¬ IsTransfer i) (hh : ¬ WritesHiLo i) (hs : ¬ IsStore i) :
    Shape i s t := by
  unfold writeChecked at h
  split at h
  · cases h; exact .exception _ (.inl rfl)
  · exact writeResult_shape h hd hi hh hs

theorem writeHiLo_shape {i : Instr} {hi lo : Word} {s t : State} (h : writeHiLo hi lo s = .next t)
    (hh : WritesHiLo i) (hd : immediateDestination i = none) : Shape i s t := by
  cases h; exact .hiLo hi lo hh hd

theorem execBranch_shape {i : Instr} {taken : Bool} {imm : BitVec 16} {s t : State}
    (h : execBranch taken imm s = .next t) (hi : IsTransfer i) (hd : immediateDestination i = none) : Shape i s t := by
  cases h
  cases taken
  · exact .fallThrough hi hd
  · exact .transfer _ hi hd

theorem execBranchLink_shape {i : Instr} {taken : Bool} {imm : BitVec 16} {s t : State}
    (h : execBranchLink taken imm s = .next t) (hi : IsTransfer i) (hd : immediateDestination i = some 31#5) :
    Shape i s t := by
  cases h
  cases taken
  · exact .linkOnly hi _ hd
  · exact .transferLink _ hi _ hd

theorem loadDelayed_shape {i : Instr} {rt : Reg} {addr : Word} {n : Nat} {v : Word} {s t : State}
    (h : loadDelayed rt addr n v s = .next t) (hd : immediateDestination i = none) (hi : ¬ IsTransfer i)
    (hh : ¬ WritesHiLo i) (hs : ¬ IsStore i) : Shape i s t := by
  unfold loadDelayed busAccess at h
  split at h
  · cases h
  · cases h; exact .delayed rt v _ hd hi hh hs

theorem alignedLoad_shape {i : Instr} {aligned : Bool} {rt : Reg} {addr : Word} {n : Nat} {v : Word} {s t : State}
    (h : alignedLoad aligned rt addr n v s = .next t) (hd : immediateDestination i = none) (hi : ¬ IsTransfer i)
    (hh : ¬ WritesHiLo i) (hs : ¬ IsStore i) : Shape i s t := by
  cases aligned
  · cases h; exact .addressError _ _ (.inl rfl)
  · exact loadDelayed_shape h hd hi hh hs

theorem storeAccess_shape {i : Instr} {addr : Word} {n : Nat} {v : Word} {s t : State}
    (h : storeAccess addr n v s = .next t) (hn : n ≤ 4) (hs : IsStore i) (hd : immediateDestination i = none) :
    Shape i s t := by
  unfold storeAccess busAccess at h
  split at h
  · cases h
  · next hb => cases h; exact .store addr n v hn hs hd ((busFails_eq_false_iff s _ _ _).1 (Bool.eq_false_iff.2 hb))

theorem alignedStore_shape {i : Instr} {aligned : Bool} {addr : Word} {n : Nat} {v : Word} {s t : State}
    (h : alignedStore aligned addr n v s = .next t) (hn : n ≤ 4) (hs : IsStore i)
    (hd : immediateDestination i = none) : Shape i s t := by
  cases aligned
  · cases h; exact .addressError _ _ (.inr rfl)
  · exact storeAccess_shape h hn hs hd

/-- The inversion lemma: what `exec i s` can answer as a next state. -/
theorem exec_cases {i : Instr} {s t : State} (h : exec i s = .next t) : Shape i s t := by
  cases i with
  | add | sub | addi => exact writeChecked_shape h rfl id id id
  | addu | subu | slt | sltu | addiu | slti | sltiu | and | or | xor | nor | andi | ori | xori | lui | sll | srl | sra
    | sllv | srlv | srav | mfhi | mflo => exact writeResult_shape h rfl id id id
  | mult | multu | div | divu | mthi | mtlo => exact writeHiLo_shape h trivial rfl
  | beq | bne | blez | bgtz | bltz | bgez => exact execBranch_shape h trivial rfl
  | bltzal | bgezal => exact execBranchLink_shape h trivial rfl
  | j | jr => cases h; exact .transfer _ trivial rfl
  | jal target =>
    cases h
    exact .transferLink _ (show IsTransfer (.jal target) from trivial) 31#5 rfl
  | jalr rd rs =>
    cases h
    exact .transferLink _ (show IsTransfer (.jalr rd rs) from trivial) rd rfl
  | lb | lbu | lwl | lwr => exact loadDelayed_shape h rfl id id id
  | lh | lhu | lw => exact alignedLoad_shape h rfl id id id
  | sb => exact storeAccess_shape h (by omega) trivial rfl
  | sh | sw => exact alignedStore_shape h (by omega) trivial rfl
  | swl rt base offset =>
    refine storeAccess_shape h ?_ trivial rfl
    rw [byteLane_eq]; omega
  | swr rt base offset => exact storeAccess_shape h (by omega) trivial rfl
  | syscall => cases h; exact .exception _ (.inr (.inl rfl))
  | brk => cases h; exact .exception _ (.inr (.inr rfl))
  | mfc0 rt rd =>
    simp only [exec, execMfc0] at h
    split at h <;> cases h
    · exact .delayed rt _ (writeDelayed rt _ (advance s)).freeCount rfl id id id
    · exact .delayed rt _ _ rfl id id id
  | mtc0 rt rd => cases h; exact .mtc0 rt rd rfl
  | rfe => cases h; exact .rfe rfl

end Sys2Proof.Machine
end

