-- ==== Sys2Proof/Laws/Invariant.lean ====
section
/-! SUPPORT. Laws for the parts of the invariant of Safety.lean: slot 0 of the register file, and exception entry. -/

namespace Sys2Proof.Machine

/-- No register write reaches slot 0 (R21). -/
theorem writeReg_zeroSlot (i : Reg) (v : Word) (s : State) (h : s.gpr[0] = 0#32) : (writeReg i v s).gpr[0] = 0#32 := by
  unfold writeReg
  split
  · exact h
  · next hi =>
    rw [Vector.getElem_set_ne]
    · exact h
    · intro e; exact hi (BitVec.eq_of_toNat_eq e)

theorem commitRetiring_zeroSlot (s : State) (h : s.gpr[0] = 0#32) : (commitRetiring s).gpr[0] = 0#32 := by
  unfold commitRetiring
  split
  · exact h
  · exact writeReg_zeroSlot _ _ _ h

/-- Exception entry after the retiring commit keeps the invariant. -/
theorem enterException_inv {s e : State} (c : ExcCause) (addr : Word) (bd : Bool) (h : Inv s) (hm : e.mem = s.mem)
    (hc : e.icache = s.icache) (hg : e.gpr = (commitRetiring s).gpr) (hp : e.prid = s.prid) :
    Inv (enterException c addr bd e) where
  memory := by simpa [hm] using h.memory
  cache := by simpa [hc] using h.cache
  zero := by simp only [enterException_gpr, hg]; exact commitRetiring_zeroSlot s h.zero
  holder := fun p hp => nomatch hp
  processorId := by simpa [hp] using h.processorId

theorem takeInterrupt_inv {s : State} (h : Inv s) : Inv (takeInterrupt s) :=
  enterException_inv _ _ _ h (by simp) (by simp) rfl (by simp)

end Sys2Proof.Machine
end

