-- ==== Sys2Proof/Laws/PerInstr.lean ====
section
/-! SUPPORT. A family of statements about every instruction as syntax: its encoding has the fixed bits of its row of
spec/opcode_table.json ("mask" and "match"), whatever its operands. -/

namespace Sys2Proof.Laws

/-- The "mask" and "match" of an instruction's row of spec/opcode_table.json. -/
def tableRow : Instr → Word × Word
  | .add .. => (0xFC00003F#32, 0x00000020#32)
  | .addu .. => (0xFC00003F#32, 0x00000021#32)
  | .sub .. => (0xFC00003F#32, 0x00000022#32)
  | .subu .. => (0xFC00003F#32, 0x00000023#32)
  | .slt .. => (0xFC00003F#32, 0x0000002A#32)
  | .sltu .. => (0xFC00003F#32, 0x0000002B#32)
  | .addi .. => (0xFC000000#32, 0x20000000#32)
  | .addiu .. => (0xFC000000#32, 0x24000000#32)
  | .slti .. => (0xFC000000#32, 0x28000000#32)
  | .sltiu .. => (0xFC000000#32, 0x2C000000#32)
  | .and .. => (0xFC00003F#32, 0x00000024#32)
  | .or .. => (0xFC00003F#32, 0x00000025#32)
  | .xor .. => (0xFC00003F#32, 0x00000026#32)
  | .nor .. => (0xFC00003F#32, 0x00000027#32)
  | .andi .. => (0xFC000000#32, 0x30000000#32)
  | .ori .. => (0xFC000000#32, 0x34000000#32)
  | .xori .. => (0xFC000000#32, 0x38000000#32)
  | .lui .. => (0xFC000000#32, 0x3C000000#32)
  | .sll .. => (0xFC00003F#32, 0x00000000#32)
  | .srl .. => (0xFC00003F#32, 0x00000002#32)
  | .sra .. => (0xFC00003F#32, 0x00000003#32)
  | .sllv .. => (0xFC00003F#32, 0x00000004#32)
  | .srlv .. => (0xFC00003F#32, 0x00000006#32)
  | .srav .. => (0xFC00003F#32, 0x00000007#32)
  | .mult .. => (0xFC00003F#32, 0x00000018#32)
  | .multu .. => (0xFC00003F#32, 0x00000019#32)
  | .div .. => (0xFC00003F#32, 0x0000001A#32)
  | .divu .. => (0xFC00003F#32, 0x0000001B#32)
  | .mfhi .. => (0xFC00003F#32, 0x00000010#32)
  | .mflo .. => (0xFC00003F#32, 0x00000012#32)
  | .mthi .. => (0xFC00003F#32, 0x00000011#32)
  | .mtlo .. => (0xFC00003F#32, 0x00000013#32)
  | .beq .. => (0xFC000000#32, 0x10000000#32)
  | .bne .. => (0xFC000000#32, 0x14000000#32)
  | .blez .. => (0xFC000000#32, 0x18000000#32)
  | .bgtz .. => (0xFC000000#32, 0x1C000000#32)
  | .bltz .. => (0xFC110000#32, 0x04000000#32)
  | .bgez .. => (0xFC110000#32, 0x04010000#32)
  | .bltzal .. => (0xFC110000#32, 0x04100000#32)
  | .bgezal .. => (0xFC110000#32, 0x04110000#32)
  | .j .. => (0xFC000000#32, 0x08000000#32)
  | .jal .. => (0xFC000000#32, 0x0C000000#32)
  | .jr .. => (0xFC00003F#32, 0x00000008#32)
  | .jalr .. => (0xFC00003F#32, 0x00000009#32)
  | .lb .. => (0xFC000000#32, 0x80000000#32)
  | .lbu .. => (0xFC000000#32, 0x90000000#32)
  | .lh .. => (0xFC000000#32, 0x84000000#32)
  | .lhu .. => (0xFC000000#32, 0x94000000#32)
  | .lw .. => (0xFC000000#32, 0x8C000000#32)
  | .lwl .. => (0xFC000000#32, 0x88000000#32)
  | .lwr .. => (0xFC000000#32, 0x98000000#32)
  | .sb .. => (0xFC000000#32, 0xA0000000#32)
  | .sh .. => (0xFC000000#32, 0xA4000000#32)
  | .sw .. => (0xFC000000#32, 0xAC000000#32)
  | .swl .. => (0xFC000000#32, 0xA8000000#32)
  | .swr .. => (0xFC000000#32, 0xB8000000#32)
  | .syscall .. => (0xFC00003F#32, 0x0000000C#32)
  | .brk .. => (0xFC00003F#32, 0x0000000D#32)
  | .mfc0 .. => (0xFFE00000#32, 0x40000000#32)
  | .mtc0 .. => (0xFFE00000#32, 0x40800000#32)
  | .rfe => (0xFE00003F#32, 0x42000010#32)

/-! ### The fixed bits of each format -/

theorem formatR_fixed (op : BitVec 6) (rs rt rd : Reg) (shamt : BitVec 5) (funct : BitVec 6) :
    formatR op rs rt rd shamt funct &&& 0xFC00003F#32 = formatR op 0 0 0 0 funct := by
  refine BitVec.eq_of_getLsbD_eq fun k hk => ?_
  simp only [formatR, BitVec.getLsbD_and, BitVec.getLsbD_append]
  interval_cases k <;> simp

theorem formatR_fixedRs (op : BitVec 6) (rs rt rd : Reg) (shamt : BitVec 5) (funct : BitVec 6) :
    formatR op rs rt rd shamt funct &&& 0xFFE00000#32 = formatR op rs 0 0 0 0 := by
  refine BitVec.eq_of_getLsbD_eq fun k hk => ?_
  simp only [formatR, BitVec.getLsbD_and, BitVec.getLsbD_append]
  interval_cases k <;> simp

theorem formatI_fixed (op : BitVec 6) (rs rt : Reg) (imm : BitVec 16) :
    formatI op rs rt imm &&& 0xFC000000#32 = formatI op 0 0 0 := by
  refine BitVec.eq_of_getLsbD_eq fun k hk => ?_
  simp only [formatI, BitVec.getLsbD_and, BitVec.getLsbD_append]
  interval_cases k <;> simp

theorem formatI_fixedRegimm (op : BitVec 6) (rs rt : Reg) (imm : BitVec 16) :
    formatI op rs rt imm &&& 0xFC110000#32 = formatI op 0 (rt &&& 0b10001#5) 0 := by
  refine BitVec.eq_of_getLsbD_eq fun k hk => ?_
  simp only [formatI, BitVec.getLsbD_and, BitVec.getLsbD_append]
  interval_cases k <;> simp

theorem formatJ_fixed (op : BitVec 6) (target : BitVec 26) :
    formatJ op target &&& 0xFC000000#32 = formatJ op 0 := by
  refine BitVec.eq_of_getLsbD_eq fun k hk => ?_
  simp only [formatJ, BitVec.getLsbD_and, BitVec.getLsbD_append]
  interval_cases k <;> simp

theorem formatCode_fixed (code : BitVec 20) (funct : BitVec 6) :
    formatCode code funct &&& 0xFC00003F#32 = formatCode 0 funct := by
  refine BitVec.eq_of_getLsbD_eq fun k hk => ?_
  simp only [formatCode, BitVec.getLsbD_and, BitVec.getLsbD_append]
  interval_cases k <;> simp

/-! ### The family -/

/-- The encoding of `i` has the fixed bits of its row. -/
def EncodeFitsTable.Statement (i : Instr) : Prop := encode i &&& (tableRow i).1 = (tableRow i).2

theorem EncodeFitsTable.add (rd rs rt : Reg) : Statement (.add rd rs rt) := (formatR_fixed _ _ _ _ _ _).trans rfl
theorem EncodeFitsTable.addu (rd rs rt : Reg) : Statement (.addu rd rs rt) := (formatR_fixed _ _ _ _ _ _).trans rfl
theorem EncodeFitsTable.sub (rd rs rt : Reg) : Statement (.sub rd rs rt) := (formatR_fixed _ _ _ _ _ _).trans rfl
theorem EncodeFitsTable.subu (rd rs rt : Reg) : Statement (.subu rd rs rt) := (formatR_fixed _ _ _ _ _ _).trans rfl
theorem EncodeFitsTable.slt (rd rs rt : Reg) : Statement (.slt rd rs rt) := (formatR_fixed _ _ _ _ _ _).trans rfl
theorem EncodeFitsTable.sltu (rd rs rt : Reg) : Statement (.sltu rd rs rt) := (formatR_fixed _ _ _ _ _ _).trans rfl
theorem EncodeFitsTable.addi (rt rs : Reg) (imm : BitVec 16) : Statement (.addi rt rs imm) :=
  (formatI_fixed _ _ _ _).trans rfl
theorem EncodeFitsTable.addiu (rt rs : Reg) (imm : BitVec 16) : Statement (.addiu rt rs imm) :=
  (formatI_fixed _ _ _ _).trans rfl
theorem EncodeFitsTable.slti (rt rs : Reg) (imm : BitVec 16) : Statement (.slti rt rs imm) :=
  (formatI_fixed _ _ _ _).trans rfl
theorem EncodeFitsTable.sltiu (rt rs : Reg) (imm : BitVec 16) : Statement (.sltiu rt rs imm) :=
  (formatI_fixed _ _ _ _).trans rfl
theorem EncodeFitsTable.and (rd rs rt : Reg) : Statement (.and rd rs rt) := (formatR_fixed _ _ _ _ _ _).trans rfl
theorem EncodeFitsTable.or (rd rs rt : Reg) : Statement (.or rd rs rt) := (formatR_fixed _ _ _ _ _ _).trans rfl
theorem EncodeFitsTable.xor (rd rs rt : Reg) : Statement (.xor rd rs rt) := (formatR_fixed _ _ _ _ _ _).trans rfl
theorem EncodeFitsTable.nor (rd rs rt : Reg) : Statement (.nor rd rs rt) := (formatR_fixed _ _ _ _ _ _).trans rfl
theorem EncodeFitsTable.andi (rt rs : Reg) (imm : BitVec 16) : Statement (.andi rt rs imm) :=
  (formatI_fixed _ _ _ _).trans rfl
theorem EncodeFitsTable.ori (rt rs : Reg) (imm : BitVec 16) : Statement (.ori rt rs imm) :=
  (formatI_fixed _ _ _ _).trans rfl
theorem EncodeFitsTable.xori (rt rs : Reg) (imm : BitVec 16) : Statement (.xori rt rs imm) :=
  (formatI_fixed _ _ _ _).trans rfl
theorem EncodeFitsTable.lui (rt : Reg) (imm : BitVec 16) : Statement (.lui rt imm) :=
  (formatI_fixed _ _ _ _).trans rfl
theorem EncodeFitsTable.sll (rd rt : Reg) (shamt : Nat) : Statement (.sll rd rt shamt) :=
  (formatR_fixed _ _ _ _ _ _).trans rfl
theorem EncodeFitsTable.srl (rd rt : Reg) (shamt : Nat) : Statement (.srl rd rt shamt) :=
  (formatR_fixed _ _ _ _ _ _).trans rfl
theorem EncodeFitsTable.sra (rd rt : Reg) (shamt : Nat) : Statement (.sra rd rt shamt) :=
  (formatR_fixed _ _ _ _ _ _).trans rfl
theorem EncodeFitsTable.sllv (rd rt rs : Reg) : Statement (.sllv rd rt rs) := (formatR_fixed _ _ _ _ _ _).trans rfl
theorem EncodeFitsTable.srlv (rd rt rs : Reg) : Statement (.srlv rd rt rs) := (formatR_fixed _ _ _ _ _ _).trans rfl
theorem EncodeFitsTable.srav (rd rt rs : Reg) : Statement (.srav rd rt rs) := (formatR_fixed _ _ _ _ _ _).trans rfl
theorem EncodeFitsTable.mult (rs rt : Reg) : Statement (.mult rs rt) := (formatR_fixed _ _ _ _ _ _).trans rfl
theorem EncodeFitsTable.multu (rs rt : Reg) : Statement (.multu rs rt) := (formatR_fixed _ _ _ _ _ _).trans rfl
theorem EncodeFitsTable.div (rs rt : Reg) : Statement (.div rs rt) := (formatR_fixed _ _ _ _ _ _).trans rfl
theorem EncodeFitsTable.divu (rs rt : Reg) : Statement (.divu rs rt) := (formatR_fixed _ _ _ _ _ _).trans rfl
theorem EncodeFitsTable.mfhi (rd : Reg) : Statement (.mfhi rd) := (formatR_fixed _ _ _ _ _ _).trans rfl
theorem EncodeFitsTable.mflo (rd : Reg) : Statement (.mflo rd) := (formatR_fixed _ _ _ _ _ _).trans rfl
theorem EncodeFitsTable.mthi (rs : Reg) : Statement (.mthi rs) := (formatR_fixed _ _ _ _ _ _).trans rfl
theorem EncodeFitsTable.mtlo (rs : Reg) : Statement (.mtlo rs) := (formatR_fixed _ _ _ _ _ _).trans rfl
theorem EncodeFitsTable.beq (rs rt : Reg) (imm : BitVec 16) : Statement (.beq rs rt imm) :=
  (formatI_fixed _ _ _ _).trans rfl
theorem EncodeFitsTable.bne (rs rt : Reg) (imm : BitVec 16) : Statement (.bne rs rt imm) :=
  (formatI_fixed _ _ _ _).trans rfl
theorem EncodeFitsTable.blez (rs : Reg) (imm : BitVec 16) : Statement (.blez rs imm) :=
  (formatI_fixed _ _ _ _).trans rfl
theorem EncodeFitsTable.bgtz (rs : Reg) (imm : BitVec 16) : Statement (.bgtz rs imm) :=
  (formatI_fixed _ _ _ _).trans rfl
theorem EncodeFitsTable.bltz (rs : Reg) (imm : BitVec 16) : Statement (.bltz rs imm) :=
  (formatI_fixedRegimm _ _ _ _).trans rfl
theorem EncodeFitsTable.bgez (rs : Reg) (imm : BitVec 16) : Statement (.bgez rs imm) :=
  (formatI_fixedRegimm _ _ _ _).trans rfl
theorem EncodeFitsTable.bltzal (rs : Reg) (imm : BitVec 16) : Statement (.bltzal rs imm) :=
  (formatI_fixedRegimm _ _ _ _).trans rfl
theorem EncodeFitsTable.bgezal (rs : Reg) (imm : BitVec 16) : Statement (.bgezal rs imm) :=
  (formatI_fixedRegimm _ _ _ _).trans rfl
theorem EncodeFitsTable.j (target : BitVec 26) : Statement (.j target) := (formatJ_fixed _ _).trans rfl
theorem EncodeFitsTable.jal (target : BitVec 26) : Statement (.jal target) := (formatJ_fixed _ _).trans rfl
theorem EncodeFitsTable.jr (rs : Reg) : Statement (.jr rs) := (formatR_fixed _ _ _ _ _ _).trans rfl
theorem EncodeFitsTable.jalr (rd rs : Reg) : Statement (.jalr rd rs) := (formatR_fixed _ _ _ _ _ _).trans rfl
theorem EncodeFitsTable.lb (rt base : Reg) (offset : BitVec 16) : Statement (.lb rt base offset) :=
  (formatI_fixed _ _ _ _).trans rfl
theorem EncodeFitsTable.lbu (rt base : Reg) (offset : BitVec 16) : Statement (.lbu rt base offset) :=
  (formatI_fixed _ _ _ _).trans rfl
theorem EncodeFitsTable.lh (rt base : Reg) (offset : BitVec 16) : Statement (.lh rt base offset) :=
  (formatI_fixed _ _ _ _).trans rfl
theorem EncodeFitsTable.lhu (rt base : Reg) (offset : BitVec 16) : Statement (.lhu rt base offset) :=
  (formatI_fixed _ _ _ _).trans rfl
theorem EncodeFitsTable.lw (rt base : Reg) (offset : BitVec 16) : Statement (.lw rt base offset) :=
  (formatI_fixed _ _ _ _).trans rfl
theorem EncodeFitsTable.lwl (rt base : Reg) (offset : BitVec 16) : Statement (.lwl rt base offset) :=
  (formatI_fixed _ _ _ _).trans rfl
theorem EncodeFitsTable.lwr (rt base : Reg) (offset : BitVec 16) : Statement (.lwr rt base offset) :=
  (formatI_fixed _ _ _ _).trans rfl
theorem EncodeFitsTable.sb (rt base : Reg) (offset : BitVec 16) : Statement (.sb rt base offset) :=
  (formatI_fixed _ _ _ _).trans rfl
theorem EncodeFitsTable.sh (rt base : Reg) (offset : BitVec 16) : Statement (.sh rt base offset) :=
  (formatI_fixed _ _ _ _).trans rfl
theorem EncodeFitsTable.sw (rt base : Reg) (offset : BitVec 16) : Statement (.sw rt base offset) :=
  (formatI_fixed _ _ _ _).trans rfl
theorem EncodeFitsTable.swl (rt base : Reg) (offset : BitVec 16) : Statement (.swl rt base offset) :=
  (formatI_fixed _ _ _ _).trans rfl
theorem EncodeFitsTable.swr (rt base : Reg) (offset : BitVec 16) : Statement (.swr rt base offset) :=
  (formatI_fixed _ _ _ _).trans rfl
theorem EncodeFitsTable.syscall (code : BitVec 20) : Statement (.syscall code) := (formatCode_fixed _ _).trans rfl
theorem EncodeFitsTable.brk (code : BitVec 20) : Statement (.brk code) := (formatCode_fixed _ _).trans rfl
theorem EncodeFitsTable.mfc0 (rt : Reg) (rd : Nat) : Statement (.mfc0 rt rd) :=
  (formatR_fixedRs _ _ _ _ _ _).trans rfl
theorem EncodeFitsTable.mtc0 (rt : Reg) (rd : Nat) : Statement (.mtc0 rt rd) :=
  (formatR_fixedRs _ _ _ _ _ _).trans rfl
theorem EncodeFitsTable.rfe : Statement (.rfe) := rfl

end Sys2Proof.Laws
end

