-- ==== Sys2Proof/Tests/Slice0.lean ====
section
/-! SUPPORT. The model's own tests: ill-formed terms refused, one decoded word for every instruction, at most two one-step
vectors for every instruction, the step's other outcomes, the host interface, and for every statement with hypotheses a
witness that meets them. Expected values are from spec/95_test_vectors.md (tables A to I, S1 to S12) unless a comment
says otherwise; a word is written out from the maps R107 to R110 where that file has none. -/

namespace Sys2Proof.Tests

open Sys2Proof.Machine Sys2Proof.Claims

/-! ### Helpers -/

/-- The answer is a next state with the property. -/
def checkNext (r : Result) (p : State → Bool) : Bool :=
  match r with
  | .next t => p t
  | .fault _ => false
  | .refused _ => false

theorem next_of_check {r : Result} {p : State → Bool} (h : checkNext r p = true) : ∃ t, r = .next t ∧ p t = true := by
  cases r with
  | next t => exact ⟨t, rfl, h⟩
  | fault => cases h
  | refused => cases h

/-- Registers set before a vector. -/
def withRegs : List (Reg × Word) → State → State
  | [], s => s
  | (r, v) :: rest, s => withRegs rest (writeReg r v s)

/-- The start state of the vectors: the reset state at 0x80010000, with the policy that invalidates nothing. -/
def start : State :=
  { State.reset with pc := 0x80010000#32, nextPc := 0x80010004#32, busPolicy := .never }

/-- The start state with registers set. -/
def regs (l : List (Reg × Word)) : State := withRegs l start

/-- x1 and x2 set, x3 holding 0x55. -/
def ops (a b : Word) : State := regs [(1, a), (2, b), (3, 0x55)]

/-- Table G: two words at 0x80020000, x1 the base, x2 as given. -/
def data (x2 : Word) : State :=
  { regs [(1, 0x80020000), (2, x2)] with
    mem := memWrite (memWrite [] 0x80020000#32 0x44332211#32 4) 0x80020004#32 0x88776655#32 4 }

/-- One step on the word placed at the pc. -/
def runs (s : State) (w : Nat) (p : State → Bool) : Bool := checkNext (step (s.withFetchWord 32 w)) p

/-- The word in memory at an address. -/
def wordAt (t : State) (a : Word) : Word := memRead32 t.mem a

/-- The Overflow vector "OV" of table A for destination `r`. -/
def isOV (r : Reg) (t : State) : Bool :=
  readReg t r == 0x55#32 && t.cause == 0x30#32 && t.epc == 0x80010000#32 && t.pc == 0xBFC00180#32

/-- "taken to T" of table E. -/
def takenTo (T : Word) (t : State) : Bool :=
  t.nextPc == T && t.inBranchDelay && t.pc == 0x80010004#32

/-- "not taken" of table E. -/
def notTaken (t : State) : Bool :=
  t.nextPc == 0x80010008#32 && !t.inBranchDelay && t.pc == 0x80010004#32

/-- The holder after the step is the given load, and x2 still the old value (table G). -/
def pends (r : Reg) (v old : Word) (t : State) : Bool :=
  decide (t.pendingLoad = some ⟨r, v⟩) && readReg t 2#5 == old

/-! ### Well-formedness: one ill-formed term for each check (R105) -/

theorem test_wf_sll : (Instr.sll 1 2 32).wellFormed = false := by decide
theorem test_wf_srl : (Instr.srl 1 2 32).wellFormed = false := by decide
theorem test_wf_sra : (Instr.sra 1 2 32).wellFormed = false := by decide
theorem test_wf_mfc0 : (Instr.mfc0 1 32).wellFormed = false := by decide
theorem test_wf_mtc0 : (Instr.mtc0 1 32).wellFormed = false := by decide

/-! ### Decoding: a word for every instruction -/

theorem test_decode_arithmetic :
    decode 0x00221820#32 = .instr (.add 3 1 2) ∧
    decode 0x00221821#32 = .instr (.addu 3 1 2) ∧
    decode 0x00221822#32 = .instr (.sub 3 1 2) ∧
    decode 0x00221823#32 = .instr (.subu 3 1 2) ∧
    decode 0x0022182A#32 = .instr (.slt 3 1 2) ∧
    decode 0x0022182B#32 = .instr (.sltu 3 1 2) ∧
    decode 0x2022FFFF#32 = .instr (.addi 2 1 0xFFFF) ∧
    decode 0x24228000#32 = .instr (.addiu 2 1 0x8000) ∧
    decode 0x2822FFFF#32 = .instr (.slti 2 1 0xFFFF) ∧
    decode 0x2C220001#32 = .instr (.sltiu 2 1 1) := by decide

theorem test_decode_logical :
    decode 0x00221824#32 = .instr (.and 3 1 2) ∧
    decode 0x00221825#32 = .instr (.or 3 1 2) ∧
    decode 0x00221826#32 = .instr (.xor 3 1 2) ∧
    decode 0x00221827#32 = .instr (.nor 3 1 2) ∧
    decode 0x30228000#32 = .instr (.andi 2 1 0x8000) ∧
    decode 0x34228000#32 = .instr (.ori 2 1 0x8000) ∧
    decode 0x3822FFFF#32 = .instr (.xori 2 1 0xFFFF) ∧
    decode 0x3C018000#32 = .instr (.lui 1 0x8000) := by decide

theorem test_decode_shift :
    decode 0x00021FC0#32 = .instr (.sll 3 2 31) ∧
    decode 0x00021902#32 = .instr (.srl 3 2 4) ∧
    decode 0x00021843#32 = .instr (.sra 3 2 1) ∧
    decode 0x00221804#32 = .instr (.sllv 3 2 1) ∧
    decode 0x00221806#32 = .instr (.srlv 3 2 1) ∧
    decode 0x00221807#32 = .instr (.srav 3 2 1) := by decide

theorem test_decode_muldiv :
    decode 0x00220018#32 = .instr (.mult 1 2) ∧
    decode 0x00220019#32 = .instr (.multu 1 2) ∧
    decode 0x0022001A#32 = .instr (.div 1 2) ∧
    decode 0x0022001B#32 = .instr (.divu 1 2) ∧
    decode 0x00001810#32 = .instr (.mfhi 3) ∧
    decode 0x00001812#32 = .instr (.mflo 3) ∧
    decode 0x00200011#32 = .instr (.mthi 1) ∧
    decode 0x00200013#32 = .instr (.mtlo 1) := by decide

theorem test_decode_branch :
    decode 0x10220004#32 = .instr (.beq 1 2 4) ∧
    decode 0x1420FFFD#32 = .instr (.bne 1 0 0xFFFD) ∧
    decode 0x18200002#32 = .instr (.blez 1 2) ∧
    decode 0x1C200002#32 = .instr (.bgtz 1 2) ∧
    decode 0x04200002#32 = .instr (.bltz 1 2) ∧
    decode 0x04210002#32 = .instr (.bgez 1 2) ∧
    decode 0x04300002#32 = .instr (.bltzal 1 2) ∧
    decode 0x07F10002#32 = .instr (.bgezal 31 2) := by decide

theorem test_decode_jump :
    decode 0x0BFFFFFF#32 = .instr (.j 0x3FFFFFF) ∧
    decode 0x0C004000#32 = .instr (.jal 0x4000) ∧
    decode 0x03E00008#32 = .instr (.jr 31) ∧
    decode 0x0040F809#32 = .instr (.jalr 31 2) := by decide

theorem test_decode_load_store :
    decode 0x80220007#32 = .instr (.lb 2 1 7) ∧
    decode 0x90220007#32 = .instr (.lbu 2 1 7) ∧
    decode 0x84220006#32 = .instr (.lh 2 1 6) ∧
    decode 0x94220006#32 = .instr (.lhu 2 1 6) ∧
    decode 0x8C22FFFC#32 = .instr (.lw 2 1 0xFFFC) ∧
    decode 0x88220001#32 = .instr (.lwl 2 1 1) ∧
    decode 0x98220002#32 = .instr (.lwr 2 1 2) ∧
    decode 0xA0220005#32 = .instr (.sb 2 1 5) ∧
    decode 0xA4220006#32 = .instr (.sh 2 1 6) ∧
    decode 0xAC220004#32 = .instr (.sw 2 1 4) ∧
    decode 0xA8220003#32 = .instr (.swl 2 1 3) ∧
    decode 0xB8220001#32 = .instr (.swr 2 1 1) := by decide

theorem test_decode_system :
    decode 0x0000000C#32 = .instr (.syscall 0) ∧
    decode 0x0000000D#32 = .instr (.brk 0) ∧
    decode 0x40027800#32 = .instr (.mfc0 2 15) ∧
    decode 0x40886000#32 = .instr (.mtc0 8 12) ∧
    decode 0x42000010#32 = .instr (.rfe) := by decide

/-- One word of each format bit by bit (R101 to R103): opcode, rs, rt, rd, shamt, funct of SUBU; opcode, base, rt, offset
of LWR; opcode, target of J; code field and funct of BREAK. -/
theorem test_decode_bits :
    decode (0b000000#6 ++ 0b11111#5 ++ 0b00001#5 ++ 0b10000#5 ++ 0b00000#5 ++ 0b100011#6) = .instr (.subu 16 31 1) ∧
    decode (0b100110#6 ++ 0b10000#5 ++ 0b00001#5 ++ 0b1000000000000001#16) = .instr (.lwr 1 16 0x8001) ∧
    decode (0b000010#6 ++ 0b10000000000000000000000001#26) = .instr (.j 0x2000001) ∧
    decode (0b000000#6 ++ 0b10000000000000000001#20 ++ 0b001101#6) = .instr (.brk 0x80001) := by decide

/-- Ignored bits (R104, R109, R110): a shift amount on ADD, rt values 2 and 0x13 of REGIMM, low bits on MFC0, a code
inside RFE's ignored bits. -/
theorem test_decode_ignored :
    decode 0x00221FE0#32 = .instr (.add 3 1 2) ∧ decode 0x04220002#32 = .instr (.bltz 1 2) ∧
    decode 0x04330002#32 = .instr (.bgezal 1 2) ∧ decode 0x40027FFF#32 = .instr (.mfc0 2 15) ∧
    decode 0x43FFFFD0#32 = .instr .rfe := by decide

/-- Reserved (R111) and refused (R112) words. -/
theorem test_decode_other :
    decode 0xFC000000#32 = .reserved ∧ decode 0x0000003F#32 = .reserved ∧ decode 0x50000000#32 = .reserved ∧
    decode 0x40420000#32 = .coprocessor ∧ decode 0x44000000#32 = .coprocessor ∧ decode 0x48000000#32 = .coprocessor ∧
    decode 0x4C000000#32 = .coprocessor ∧ decode 0xC4000000#32 = .coprocessor ∧ decode 0xE8000000#32 = .coprocessor := by
  decide

theorem test_decodeTableWord :
    decodeTableWord 32 0x00221820 = some (.add 3 1 2) ∧ decodeTableWord 32 0xFC000000 = none := by decide

/-- The second word of a byte sequence follows the first (R100, R67). -/
theorem test_decodeBytes :
    decodeBytes [0x20, 0x18, 0x22, 0x00, 0x0C] = some (.instr (.add 3 1 2), [0x0C]) ∧
    decodeBytes [0x20, 0x18, 0x22] = none := by decide


/-! ### Table A: arithmetic -/

theorem test_add :
    runs (ops 5 7) 0x00221820 (fun t => readReg t 3 == 0xC#32 && t.pc == 0x80010004#32 && t.nextPc == 0x80010008#32) = true := by decide
theorem test_add_overflow : runs (ops 0x7FFFFFFF 1) 0x00221820 (fun t => isOV 3 t) = true := by decide
theorem test_addu : runs (ops 0xFFFFFFFF 1) 0x00221821 (fun t => readReg t 3 == 0#32) = true := by decide
theorem test_sub : runs (ops 5 7) 0x00221822 (fun t => readReg t 3 == 0xFFFFFFFE#32) = true := by decide
theorem test_sub_overflow : runs (ops 0 0x80000000) 0x00221822 (fun t => isOV 3 t) = true := by decide
theorem test_subu : runs (ops 0 1) 0x00221823 (fun t => readReg t 3 == 0xFFFFFFFF#32) = true := by decide
theorem test_slt : runs (ops 0x80000000 0x7FFFFFFF) 0x0022182A (fun t => readReg t 3 == 1#32) = true := by decide
theorem test_slt_equal : runs (ops 5 5) 0x0022182A (fun t => readReg t 3 == 0#32) = true := by decide
theorem test_sltu : runs (ops 0xFFFFFFFF 1) 0x0022182B (fun t => readReg t 3 == 0#32) = true := by decide
theorem test_sltu_less : runs (ops 1 0xFFFFFFFF) 0x0022182B (fun t => readReg t 3 == 1#32) = true := by decide
theorem test_addi : runs (ops 0 0x55) 0x20228000 (fun t => readReg t 2 == 0xFFFF8000#32) = true := by decide
theorem test_addi_overflow : runs (ops 0x80000000 0x55) 0x2022FFFF (fun t => isOV 2 t) = true := by decide
theorem test_addiu : runs (ops 0x7FFFFFFF 0x55) 0x24220001 (fun t => readReg t 2 == 0x80000000#32) = true := by decide
theorem test_slti : runs (ops 0xFFFFFFFE 0x55) 0x2822FFFF (fun t => readReg t 2 == 1#32) = true := by decide
theorem test_slti_not : runs (ops 0 0x55) 0x2822FFFF (fun t => readReg t 2 == 0#32) = true := by decide
theorem test_sltiu : runs (ops 0xFFFF 0x55) 0x2C228000 (fun t => readReg t 2 == 1#32) = true := by decide
theorem test_sltiu_not : runs (ops 0xFFFFFFFF 0x55) 0x2C22FFFF (fun t => readReg t 2 == 0#32) = true := by decide

/-! ### Table B: logical -/

theorem test_and :
    runs (ops 0xF0F0A5A5 0x0FF05A5F) 0x00221824 (fun t => readReg t 3 == 0x00F00005#32) = true := by decide
theorem test_or :
    runs (ops 0xF0F0A5A5 0x0FF05A5F) 0x00221825 (fun t => readReg t 3 == 0xFFF0FFFF#32) = true := by decide
theorem test_xor :
    runs (ops 0xF0F0A5A5 0x0FF05A5F) 0x00221826 (fun t => readReg t 3 == 0xFF00FFFA#32) = true := by decide
theorem test_nor :
    runs (ops 0xF0F0A5A5 0x0FF05A5F) 0x00221827 (fun t => readReg t 3 == 0x000F0000#32) = true := by decide
theorem test_andi : runs (ops 0xFFFFFFFF 0) 0x30228000 (fun t => readReg t 2 == 0x8000#32) = true := by decide
theorem test_ori : runs (ops 0 0x55) 0x34228000 (fun t => readReg t 2 == 0x8000#32) = true := by decide
theorem test_xori : runs (ops 0xF0F0A5A5 0) 0x3822FFFF (fun t => readReg t 2 == 0xF0F05A5A#32) = true := by decide
theorem test_lui : runs (ops 0x1234 0) 0x3C018000 (fun t => readReg t 1 == 0x80000000#32) = true := by decide

/-! ### Table C: shift -/

theorem test_sll : runs (ops 0 0x80000011) 0x00021FC0 (fun t => readReg t 3 == 0x80000000#32) = true := by decide
theorem test_srl : runs (ops 0 0x80000011) 0x00021902 (fun t => readReg t 3 == 0x08000001#32) = true := by decide
theorem test_sra : runs (ops 0 0x80000011) 0x00021843 (fun t => readReg t 3 == 0xC0000008#32) = true := by decide
theorem test_sra_positive :
    runs (ops 0 0x7FFFFFF0) 0x00021903 (fun t => readReg t 3 == 0x07FFFFFF#32) = true := by decide
theorem test_sllv : runs (ops 33 0x80000011) 0x00221804 (fun t => readReg t 3 == 0x22#32) = true := by decide
theorem test_srlv : runs (ops 0xFF 0x80000011) 0x00221806 (fun t => readReg t 3 == 1#32) = true := by decide
theorem test_srav :
    runs (ops 0xFFFFFFE4 0x80000011) 0x00221807 (fun t => readReg t 3 == 0xF8000001#32) = true := by decide
theorem test_srav_32 : runs (ops 32 0x80000011) 0x00221807 (fun t => readReg t 3 == 0x80000011#32) = true := by decide

/-! ### Table D: multiply, divide, moves -/

theorem test_mult :
    runs (ops 0x12345678 0x9ABCDEF0) 0x00220018 (fun t => t.hi == 0xF8CC93D6#32 && t.lo == 0x242D2080#32) = true := by decide
theorem test_multu :
    runs (ops 0x12345678 0x9ABCDEF0) 0x00220019 (fun t => t.hi == 0x0B00EA4E#32 && t.lo == 0x242D2080#32) = true := by decide
theorem test_div :
    runs (ops 0xFFFFFFF9 2) 0x0022001A (fun t => t.hi == 0xFFFFFFFF#32 && t.lo == 0xFFFFFFFD#32) = true := by decide
theorem test_div_zero :
    runs (ops 0xFFFFFFFB 0) 0x0022001A (fun t => t.hi == 0xFFFFFFFB#32 && t.lo == 1#32) = true := by decide
theorem test_divu :
    runs (ops 0xFFFFFFF9 2) 0x0022001B (fun t => t.hi == 1#32 && t.lo == 0x7FFFFFFC#32) = true := by decide
theorem test_divu_zero :
    runs (ops 5 0) 0x0022001B (fun t => t.hi == 5#32 && t.lo == 0xFFFFFFFF#32) = true := by decide

/-- The start of the move vectors. -/
def hiLo : State := { regs [(1, 0xDEADBEEF)] with hi := 0x1234#32, lo := 0x5678#32 }

theorem test_mfhi : runs (hiLo) 0x00001810 (fun t => readReg t 3 == 0x1234#32) = true := by decide
theorem test_mflo : runs (hiLo) 0x00001812 (fun t => readReg t 3 == 0x5678#32) = true := by decide
theorem test_mthi : runs (hiLo) 0x00200011 (fun t => t.hi == 0xDEADBEEF#32 && t.lo == 0x5678#32) = true := by decide
theorem test_mtlo : runs (hiLo) 0x00200013 (fun t => t.hi == 0x1234#32 && t.lo == 0xDEADBEEF#32) = true := by decide

/-! ### Table E: branches -/

theorem test_beq : runs (ops 5 5) 0x10220004 (fun t => takenTo 0x80010014#32 t) = true := by decide
theorem test_beq_not : runs (ops 5 6) 0x10220004 (fun t => notTaken t) = true := by decide
theorem test_bne : runs (ops 1 0) 0x1420FFFD (fun t => takenTo 0x8000FFF8#32 t) = true := by decide
theorem test_bne_not : runs (ops 0 0) 0x1420FFFD (fun t => notTaken t) = true := by decide
theorem test_blez : runs (ops 0 0) 0x18200002 (fun t => takenTo 0x8001000C#32 t) = true := by decide
theorem test_blez_not : runs (ops 1 0) 0x18200002 (fun t => notTaken t) = true := by decide
theorem test_bgtz : runs (ops 1 0) 0x1C200002 (fun t => takenTo 0x8001000C#32 t) = true := by decide
theorem test_bgtz_not : runs (ops 0 0) 0x1C200002 (fun t => notTaken t) = true := by decide
theorem test_bltz :
    runs (ops 0xFFFFFFFF 0) 0x04200002 (fun t => takenTo 0x8001000C#32 t && readReg t 31 == 0#32) = true := by decide
theorem test_bltz_not : runs (ops 0 0) 0x04200002 (fun t => notTaken t) = true := by decide
theorem test_bgez : runs (ops 0 0) 0x04210002 (fun t => takenTo 0x8001000C#32 t) = true := by decide
theorem test_bgez_not : runs (ops 0x80000000 0) 0x04210002 (fun t => notTaken t) = true := by decide
theorem test_bltzal :
    runs (regs [(31, 0x80000000)]) 0x07F00002 (fun t => takenTo 0x8001000C#32 t && readReg t 31 == 0x80010008#32) = true := by decide
theorem test_bltzal_not :
    runs (ops 1 0) 0x04300002 (fun t => notTaken t && readReg t 31 == 0x80010008#32) = true := by decide
theorem test_bgezal :
    runs (ops 1 0) 0x04310002 (fun t => takenTo 0x8001000C#32 t && readReg t 31 == 0x80010008#32) = true := by decide
theorem test_bgezal_not :
    runs (regs [(31, 0x80000000)]) 0x07F10002 (fun t => notTaken t && readReg t 31 == 0x80010008#32) = true := by decide

/-! ### Table F: jumps -/

/-- The start state with the instruction elsewhere. -/
def startAt (pc : Word) (l : List (Reg × Word)) : State := { regs l with pc := pc, nextPc := pc + 4#32 }

theorem test_j :
    runs (startAt 0xA0000000#32 []) 0x0BFFFFFF (fun t => t.pc == 0xA0000004#32 && t.nextPc == 0xAFFFFFFC#32 && t.inBranchDelay) = true := by decide
theorem test_j_region :
    runs (startAt 0x8FFFFFFC#32 []) 0x08000000 (fun t => t.pc == 0x90000000#32 && t.nextPc == 0x90000000#32) = true := by decide
theorem test_jal :
    runs (startAt 0x80010100#32 []) 0x0C004000 (fun t => readReg t 31 == 0x80010108#32 && t.nextPc == 0x80010000#32 && t.inBranchDelay) = true := by decide
theorem test_jr :
    runs (regs [(31, 0x80010002)]) 0x03E00008 (fun t => t.nextPc == 0x80010002#32 && t.inBranchDelay) = true := by decide
theorem test_jalr :
    runs (ops 0 0x80020000) 0x0040F809 (fun t => readReg t 31 == 0x80010008#32 && t.nextPc == 0x80020000#32) = true := by decide
theorem test_jalr_same :
    runs (ops 0 0x80020000) 0x00401009 (fun t => readReg t 2 == 0x80010008#32 && t.nextPc == 0x80010008#32) = true := by decide

/-! ### Table G: loads and stores -/

theorem test_lb : runs (data 0xAABBCCDD) 0x80220007 (fun t => pends 2 0xFFFFFF88 0xAABBCCDD t) = true := by decide
theorem test_lbu : runs (data 0xAABBCCDD) 0x90220007 (fun t => pends 2 0x88 0xAABBCCDD t) = true := by decide
theorem test_lh : runs (data 0xAABBCCDD) 0x84220006 (fun t => pends 2 0xFFFF8877 0xAABBCCDD t) = true := by decide
theorem test_lh_misaligned :
    runs ({ data 0xAABBCCDD with status := 1#32 }) 0x84220001 (fun t => t.cause == 0x10#32 && t.badVaddr == 0x80020001#32 && t.epc == 0x80010000#32 && t.status == 4#32 && t.pc == 0x80000080#32) = true := by decide
theorem test_lhu : runs (data 0xAABBCCDD) 0x94220006 (fun t => pends 2 0x8877 0xAABBCCDD t) = true := by decide
theorem test_lw :
    runs (withRegs [(1, 0x80020008)] (data 0xAABBCCDD)) 0x8C22FFFC (fun t => pends 2 0x88776655 0xAABBCCDD t) = true := by decide
theorem test_lwl : runs (data 0xAABBCCDD) 0x88220001 (fun t => pends 2 0x2211CCDD 0xAABBCCDD t) = true := by decide
theorem test_lwl_2 : runs (data 0xAABBCCDD) 0x88220002 (fun t => pends 2 0x332211DD 0xAABBCCDD t) = true := by decide
theorem test_lwr : runs (data 0xAABBCCDD) 0x98220002 (fun t => pends 2 0xAABB4433 0xAABBCCDD t) = true := by decide
theorem test_lwr_forward :
    runs ({ data 0xAABBCCDD with pendingLoad := some ⟨2#5, 0x55BBCCDD#32⟩ }) 0x98220001 (fun t => pends 2 0x55443322 0x55BBCCDD t) = true := by decide
theorem test_sb :
    runs (data 0x12345678) 0xA0220005 (fun t => wordAt t 0x80020004#32 == 0x88777855#32) = true := by decide
theorem test_sh :
    runs (data 0x12345678) 0xA4220006 (fun t => wordAt t 0x80020004#32 == 0x56786655#32) = true := by decide
theorem test_sh_misaligned :
    runs (data 0x12345678) 0xA4220003 (fun t => t.cause == 0x14#32 && t.badVaddr == 0x80020003#32 && wordAt t 0x80020000#32 == 0x44332211#32) = true := by decide
theorem test_sw :
    runs (data 0x12345678) 0xAC220004 (fun t => wordAt t 0x80020004#32 == 0x12345678#32) = true := by decide
theorem test_sw_misaligned :
    runs (data 0x12345678) 0xAC220002 (fun t => t.cause == 0x14#32 && t.badVaddr == 0x80020002#32 && wordAt t 0x80020000#32 == 0x44332211#32) = true := by decide
theorem test_swl :
    runs (data 0xAABBCCDD) 0xA8220001 (fun t => wordAt t 0x80020000#32 == 0x4433AABB#32) = true := by decide
theorem test_swl_2 :
    runs (data 0xAABBCCDD) 0xA8220002 (fun t => wordAt t 0x80020000#32 == 0x44AABBCC#32) = true := by decide
theorem test_swr :
    runs (data 0xAABBCCDD) 0xB8220001 (fun t => wordAt t 0x80020000#32 == 0xBBCCDD11#32) = true := by decide
theorem test_swr_3 :
    runs (data 0xAABBCCDD) 0xB8220003 (fun t => wordAt t 0x80020000#32 == 0xDD332211#32) = true := by decide

/-- The load-delay vectors: x2 = 1 and a load of 0x99 to it retiring. -/
def retiring : State := { data 1 with pendingLoad := some ⟨2#5, 0x99#32⟩ }

theorem test_delay_own_write : runs (retiring) 0x24020007 (fun t => readReg t 2 == 7#32) = true := by decide
theorem test_delay_old_read :
    runs (retiring) 0x00401821 (fun t => readReg t 3 == 1#32 && readReg t 2 == 0x99#32) = true := by decide
theorem test_load_zero :
    runs (data 0xAABBCCDD) 0x8C200000 (fun t => decide (t.pendingLoad = none) && readReg t 0 == 0#32) = true := by decide

/-! ### Table H: system instructions and exception entry -/

theorem test_syscall :
    runs ({ start with status := 0x401#32 }) 0x0000000C (fun t => t.status == 0x404#32 && t.cause == 0x20#32 && t.epc == 0x80010000#32 && t.pc == 0x80000080#32 && t.nextPc == 0x80000084#32) = true := by decide
theorem test_syscall_boot :
    runs (start) 0x0000000C (fun t => t.status == 0x400000#32 && t.pc == 0xBFC00180#32) = true := by decide

/-- BREAK in the delay slot of a jump to 0x80010040. -/
def slotStart : State :=
  { start with status := 0x401#32, pc := 0x80010004#32, nextPc := 0x80010040#32, inBranchDelay := true }

theorem test_break_slot :
    runs (slotStart) 0x0000000D (fun t => t.status == 0x404#32 && t.cause == 0x80000024#32 && t.epc == 0x80010000#32 && t.pc == 0x80000080#32 && !t.inBranchDelay) = true := by decide
theorem test_mtc0_status :
    runs (regs [(8, 0xFFFFFFFF)]) 0x40886000 (fun t => t.status == 0xFFFFFFFF#32) = true := by decide
theorem test_mtc0_cause : runs (regs [(8, 0xFFFFFFFF)]) 0x40886800 (fun t => t.cause == 0x300#32) = true := by decide
theorem test_mfc0_prid : runs (regs [(2, 0x55)]) 0x40027800 (fun t => pends 2 2 0x55 t) = true := by decide
theorem test_mfc0_status : runs (regs [(2, 0x55)]) 0x40026000 (fun t => pends 2 0x400000 0x55 t) = true := by decide
theorem test_rfe :
    runs ({ start with status := 0x404#32 }) 0x42000010 (fun t => t.status == 0x401#32 && t.pc == 0x80010004#32) = true := by decide
theorem test_rfe_old :
    runs ({ start with status := 0x3C#32 }) 0x42000010 (fun t => t.status == 0x3F#32) = true := by decide
theorem test_reserved :
    runs ({ start with status := 1#32 }) 0xFC000000 (fun t => t.status == 4#32 && t.cause == 0x28#32 && t.epc == 0x80010000#32 && t.pc == 0x80000080#32) = true := by decide

theorem test_fetch_misaligned :
    checkNext (step { start with pc := 0x80010002#32, status := 1#32 }) (fun t =>
      t.status == 4#32 && t.cause == 0x10#32 && t.epc == 0x80010002#32 && t.badVaddr == 0x80010002#32 &&
      t.pc == 0x80000080#32) = true := by decide

theorem test_coprocessor : step (start.withFetchWord 32 0x48000000) = .refused (.coprocessor 0x48000000#32) := by rfl

/-- A failing fetch, load and store (R65, R283; hand calculation). -/
theorem test_bus_failure :
    step { start with busFailures := [⟨.fetch, 0x80010003, 1⟩] } = .fault (.busFailure 0x80010000#32 .fetch) ∧
    exec (.lw 2 1 4) { data 0 with busFailures := [⟨.load, 0x80020007, 1⟩] } =
      .fault (.busFailure 0x80020004#32 .load) ∧
    exec (.sb 2 1 5) { data 0 with busFailures := [⟨.store, 0x80020005, 1⟩] } =
      .fault (.busFailure 0x80020005#32 .store) := ⟨rfl, rfl, rfl⟩

/-! ### Table I: interrupts -/

/-- x2 = 1, a load of 0x77 to x3 retiring, the line's level at this step given. -/
def irqStart (status : Word) (level : Bool) : State :=
  { regs [(2, 1)] with status := status, pendingLoad := some ⟨3#5, 0x77#32⟩, irqInput := [level] }

theorem test_irq_taken :
    runs (irqStart 0x401#32 true) 0x24020007 (fun t => readReg t 3 == 0x77#32 && readReg t 2 == 1#32 && t.status == 0x404#32 && t.cause == 0x400#32 && t.epc == 0x80010000#32 && t.pc == 0x80000080#32) = true := by decide
theorem test_irq_masked :
    runs (irqStart 1#32 true) 0x24020007 (fun t => readReg t 2 == 7#32 && t.cause == 0x400#32 && t.pc == 0x80010004#32) = true := by decide
theorem test_irq_cleared :
    runs ({ irqStart 0x401#32 false with cause := 0x400#32 }) 0x24020007 (fun t => t.cause == 0#32 && readReg t 2 == 7#32) = true := by decide

theorem test_irq_slot :
    checkNext (step { slotStart with status := 0x00400401#32, irqInput := [true] }) (fun t =>
      t.status == 0x00400404#32 && t.cause == 0x80000400#32 && t.epc == 0x80010000#32 && t.pc == 0xBFC00180#32 &&
      !t.inBranchDelay) = true := by decide

theorem test_inject_taken :
    (fun t : State => readReg t 3 == 0x77#32 && t.status == 0x404#32 && t.cause == 0x400#32 && t.pc == 0x80000080#32)
      (applyHostOp (.inject 4#8) (irqStart 0x401#32 false)) = true := by decide

theorem test_inject_merged :
    (applyHostOp (.inject 4#8) (irqStart 0x400#32 false)).cause = 0x400#32 ∧
    (applyHostOp (.inject 4#8) (irqStart 0x400#32 false)).pc = 0x80010000#32 := by decide

/-! ### The instruction cache and the host (S12, R403; P5's store over a cached word under the two policies) -/

theorem test_prefill :
    checkNext (step (applyHostOp (.prefill 0x80010000#32 0x24020007#32) start)) (fun t => readReg t 2 == 7#32) = true := by
  decide

theorem test_invalidate :
    checkNext (step (applyHostOp (.invalidate 0x80010000#32) (applyHostOp (.prefill 0x80010000#32 0x24020007#32) start)))
      (fun t => readReg t 2 == 0#32 && decide (icacheFetch t.icache 0x80010000#32 = some 0#32)) = true := by decide

/-- A store over the word cached at 0x80020000 (hand calculation from R80). -/
def overCached (policy : BusPolicy) : State :=
  { data 0x24020002 with busPolicy := policy, icache := [(0x80020000, 0x24020001#32)] }


theorem test_policy_never :
    runs (overCached .never) 0xAC220000 (fun t => decide (icacheFetch t.icache 0x80020000#32 = some 0x24020001#32)) = true := by decide
theorem test_policy_always :
    runs (overCached .always) 0xA0220003 (fun t => decide (icacheFetch t.icache 0x80020000#32 = none)) = true := by decide

theorem test_forceSetPc :
    (applyHostOp (.forceSetPc 0xFFFFFFFC#32) slotStart).pc = 0xFFFFFFFC#32 ∧
    (applyHostOp (.forceSetPc 0xFFFFFFFC#32) slotStart).nextPc = 0#32 ∧
    (applyHostOp (.forceSetPc 0xFFFFFFFC#32) slotStart).inBranchDelay = false := by decide

/-! ### Memory stays canonical: writing what an unlisted byte reads as removes the entry -/

theorem test_memory_canonical :
    writeByte (writeByte [] 8 1#8) 8 0#8 = [] ∧ writeByte (writeByte [] 8 1#8) 4 2#8 = [(4, 2#8), (8, 1#8)] := by decide

/-! ### Witnesses: for every statement with hypotheses, a state and operands that meet them together -/

theorem busAnswers_of_none {s : State} (h : s.busFailures = []) (kind : AccessKind) (addr : Word) (n : Nat) :
    BusAnswers s kind addr n := fun r hr => by rw [h] at hr; cases hr

/-- The start state with a word placed. -/
def placed (w : Nat) : State := start.withFetchWord 32 w

theorem placed_fetches_add : Fetches (placed 0x00221820) 0x00221820#32 :=
  .inr ⟨by decide, busAnswers_of_none rfl _ _ _, by decide⟩

theorem placed_no_interrupt (w : Nat) : ¬ InterruptDue (placed w) := fun h => by
  have : (placed w).status.getLsbD 0 = false := show Config.resetStatus.getLsbD 0 = false by decide
  rw [h.1] at this; cases this

theorem test_witness_DecodeOfEncodeIsTheInstruction :
    (Instr.sra 31 31 31).wellFormed = true ∧ (Instr.mfc0 31 31).wellFormed = true ∧ Instr.rfe.wellFormed = true := by
  decide

theorem test_witness_DecodedInstructionEncodesTheUsedBits : decode 0x00221FE0#32 = .instr (.add 3 1 2) := by decide

theorem test_witness_IgnoredBitsDoNotChangeTheInstruction :
    decode 0x00221820#32 = .instr (.add 3 1 2) ∧
    0x00221FE0#32 &&& usedBits (.add 3 1 2) = 0x00221820#32 &&& usedBits (.add 3 1 2) := by decide

/-- The premise of Encodes, in the statements of every family, is met by the word of the row's fixed bits. -/
theorem test_witness_Encodes :
    ([0x00000020#32, 0x00000021#32, 0x00000022#32, 0x00000023#32, 0x0000002A#32, 0x0000002B#32, 0x00000024#32,
      0x00000025#32, 0x00000026#32, 0x00000027#32, 0x00000000#32, 0x00000002#32, 0x00000003#32, 0x00000004#32,
      0x00000006#32, 0x00000007#32, 0x00000018#32, 0x00000019#32, 0x0000001A#32, 0x0000001B#32, 0x00000010#32,
      0x00000012#32, 0x00000011#32, 0x00000013#32, 0x00000008#32, 0x00000009#32, 0x0000000C#32, 0x0000000D#32] : List Word).all (fun v => v &&& 0xFC00003F#32 == v) = true ∧
    ([0x20000000#32, 0x24000000#32, 0x28000000#32, 0x2C000000#32, 0x30000000#32, 0x34000000#32, 0x38000000#32,
      0x3C000000#32, 0x10000000#32, 0x14000000#32, 0x18000000#32, 0x1C000000#32, 0x08000000#32, 0x0C000000#32,
      0x80000000#32, 0x90000000#32, 0x84000000#32, 0x94000000#32, 0x8C000000#32, 0x88000000#32, 0x98000000#32,
      0xA0000000#32, 0xA4000000#32, 0xAC000000#32, 0xA8000000#32, 0xB8000000#32] : List Word).all (fun v => v &&& 0xFC000000#32 == v) = true ∧
    ([0x04000000#32, 0x04010000#32, 0x04100000#32, 0x04110000#32] : List Word).all (fun v => v &&& 0xFC110000#32 == v) = true ∧
    ([0x40000000#32, 0x40800000#32] : List Word).all (fun v => v &&& 0xFFE00000#32 == v) = true ∧
    ([0x42000010#32] : List Word).all (fun v => v &&& 0xFE00003F#32 == v) = true := by decide

theorem test_witness_StepRunsTheDecodedInstruction :
    ¬ InterruptDue (placed 0x00221820) ∧ (placed 0x00221820).pc.toNat % 4 = 0 ∧
    Fetches (placed 0x00221820) 0x00221820#32 ∧ decode 0x00221820#32 = .instr (.add 3 1 2) :=
  ⟨placed_no_interrupt _, by decide, placed_fetches_add, by decide⟩

/-- The lowest and the highest pending bit, and the sampled line. -/
theorem test_witness_InterruptIsTakenExactlyWhenDue :
    InterruptDue { start with status := 0x101#32, cause := 0x100#32 } ∧
    InterruptDue { start with status := 0x8001#32, cause := 0x8000#32 } ∧
    InterruptDue { start with status := 0x401#32, irqInput := [true] } ∧ ¬ InterruptDue (placed 0) :=
  ⟨⟨by decide, 0, by decide⟩, ⟨by decide, 7, by decide⟩, ⟨by decide, 2, by decide⟩, placed_no_interrupt _⟩

theorem test_witness_EveryStepMirrorsTheInterruptLine :
    ∃ t, step { placed 0x24020007 with irqInput := [true, false] } = .next t ∧ t.cause.getLsbD 10 = true :=
  next_of_check (p := fun t => t.cause.getLsbD 10) (by decide)

theorem test_witness_MisalignedFetchRaisesAddressError :
    ¬ InterruptDue { start with pc := 0x80010001#32 } ∧ ({ start with pc := 0x80010001#32 } : State).pc.toNat % 4 ≠ 0 :=
  ⟨placed_no_interrupt 0, by decide⟩

theorem test_witness_ReservedWordRaisesReservedInstruction :
    ¬ InterruptDue (placed 0xFC000000) ∧ (placed 0xFC000000).pc.toNat % 4 = 0 ∧
    Fetches (placed 0xFC000000) 0xFC000000#32 ∧ ReservedWord 0xFC000000#32 ∧
    ReservedWord 0x50000000#32 ∧ ReservedWord 0x00000001#32 ∧ ReservedWord 0x0000003F#32 :=
  ⟨placed_no_interrupt _, by decide, .inr ⟨by decide, busAnswers_of_none rfl _ _ _, by decide⟩,
    by unfold ReservedWord; decide, by unfold ReservedWord; decide, by unfold ReservedWord; decide,
    by unfold ReservedWord; decide⟩

/-- The word comes from the cache in the first clause; the last byte of the fetch fails in the second. -/
theorem test_witness_StepStopsOnCoprocessorWordOrFailingFetch :
    (¬ InterruptDue { start with icache := [(0x80010000, 0x48000000#32)] } ∧ start.pc.toNat % 4 = 0 ∧
      Fetches { start with icache := [(0x80010000, 0x48000000#32)] } 0x48000000#32 ∧
      RefusedWord 0x48000000#32 ∧ RefusedWord 0x42000000#32 ∧ RefusedWord 0xEC000000#32) ∧
    (icacheFetch start.icache start.pc = none ∧
      ¬ BusAnswers { start with busFailures := [⟨.fetch, 0x80010003, 1⟩] } .fetch start.pc 4) :=
  ⟨⟨placed_no_interrupt 0, by decide, .inl (by decide), by unfold RefusedWord; decide,
    by unfold RefusedWord; decide, by unfold RefusedWord; decide⟩, by decide,
    fun h => h ⟨.fetch, 0x80010003, 1⟩ (by decide) rfl 3 (by decide) (by decide)⟩

/-- Each range's two ends, and the first sums and differences outside them. -/
theorem test_witness_CheckedAddSubWritesOrTraps :
    ((readReg (ops 0x7FFFFFFE 1) 1).toInt + (readReg (ops 0x7FFFFFFE 1) 2).toInt = 2 ^ 31 - 1) ∧
    ((readReg (ops 0x7FFFFFFF 1) 1).toInt + (readReg (ops 0x7FFFFFFF 1) 2).toInt = 2 ^ 31) ∧
    ((readReg (ops 0x80000001 1) 1).toInt - (readReg (ops 0x80000001 1) 2).toInt = -2 ^ 31) ∧
    ((readReg (ops 0x80000000 1) 1).toInt - (readReg (ops 0x80000000 1) 2).toInt = -2 ^ 31 - 1) ∧
    ((readReg (ops 0x80000001 0) 1).toInt + (0xFFFF#16).toInt = -2 ^ 31) ∧
    ((readReg (ops 0x80000000 0) 1).toInt + (0xFFFF#16).toInt = -2 ^ 31 - 1) := by decide

theorem test_witness_OverflowIsTheSignRule :
    ((0x7FFFFFFF#32).getLsbD 31 = (1#32).getLsbD 31 ∧ (0x7FFFFFFF#32 + 1#32).getLsbD 31 ≠ (0x7FFFFFFF#32).getLsbD 31) ∧
    ¬ ((0xFFFFFFFF#32).getLsbD 31 = (1#32).getLsbD 31) ∧
    ((0#32).getLsbD 31 ≠ (0x80000000#32).getLsbD 31 ∧ (0#32 - 0x80000000#32).getLsbD 31 = (0x80000000#32).getLsbD 31) ∧
    ¬ ((5#32).getLsbD 31 ≠ (7#32).getLsbD 31) ∧
    readReg (ops 0x7FFFFFFF 1) 1 = 0x7FFFFFFF#32 ∧ readReg (ops 0x7FFFFFFF 1) 2 = 1#32 ∧
    2 ^ 31 - 1 < (0x7FFFFFFF#32).toInt + (1#16).toInt ∧ (0x80000000#32).toInt + (0xFFFF#16).toInt < -2 ^ 31 := by decide

/-- Numerators 0 and -1 over 0, the overflow case, and the minimum over 1. -/
theorem test_witness_SignedDivideIsTotal :
    (readReg (ops 0 0) 2 = 0#32 ∧ 0 ≤ (readReg (ops 0 0) 1).toInt) ∧
    (readReg (ops 0xFFFFFFFF 0) 2 = 0#32 ∧ (readReg (ops 0xFFFFFFFF 0) 1).toInt < 0) ∧
    (readReg (ops 0x80000000 0xFFFFFFFF) 1 = 0x80000000#32 ∧ readReg (ops 0x80000000 0xFFFFFFFF) 2 = 0xFFFFFFFF#32) ∧
    (readReg (ops 0x80000000 1) 2 ≠ 0#32 ∧
      ¬ (readReg (ops 0x80000000 1) 1 = 0x80000000#32 ∧ readReg (ops 0x80000000 1) 2 = 0xFFFFFFFF#32)) := by decide

theorem test_witness_UnsignedDivideWritesQuotientAndRemainder :
    readReg (ops 5 0) 2 = 0#32 ∧ readReg (ops 5 1) 2 ≠ 0#32 := by decide

theorem test_witness_OnlyMultiplyDivideAndMovesWriteHiLo :
    (∃ t, exec (.mfhi 3) hiLo = .next t) ∧ ¬ WritesHiLo (.mfhi 3) := ⟨⟨_, rfl⟩, id⟩

/-- The extreme displacements of a branch at 0x80010000 (table E). -/
theorem test_witness_BranchesStageTheirTarget :
    0x7FFF0004#32 = BitVec.ofInt 32 (start.nextPc.toNat + 4 * (0x8000#16).toInt) ∧
    0x80030000#32 = BitVec.ofInt 32 (start.nextPc.toNat + 4 * (0x7FFF#16).toInt) := by decide

theorem test_witness_LinkingBranchesAlwaysLink :
    0x8001000C#32 = BitVec.ofInt 32 (start.nextPc.toNat + 4 * (2#16).toInt) := by decide

theorem test_witness_RegisterJumpsTakeAnyTarget : (2#5 : Reg) ≠ 31#5 ∧ (2#5 : Reg) ≠ 0#5 := by decide

theorem test_witness_OnlyTransfersMarkADelaySlot :
    ∃ t, step (placed 0x08000000) = .next t ∧ t.inBranchDelay = true :=
  next_of_check (p := fun t => t.inBranchDelay) (by decide)

/-- A byte at an odd address, a halfword at 2 mod 4, a word at 0 mod 4, under one displacement each. -/
theorem test_witness_LoadsDeliverTheirValueLate :
    BusAnswers (data 0) .load 0x80020007#32 1 ∧
    0x80020007#32 = BitVec.ofInt 32 ((readReg (data 0) 1).toNat + (7#16).toInt) ∧
    BusAnswers (data 0) .load 0x80020006#32 2 ∧ (0x80020006#32).toNat % 2 = 0 ∧
    0x80020006#32 = BitVec.ofInt 32 ((readReg (data 0) 1).toNat + (6#16).toInt) ∧
    BusAnswers (data 0) .load 0x8001FFFC#32 4 ∧ (0x8001FFFC#32).toNat % 4 = 0 ∧
    0x8001FFFC#32 = BitVec.ofInt 32 ((readReg (data 0) 1).toNat + (0xFFFC#16).toInt) :=
  ⟨busAnswers_of_none rfl _ _ _, by decide, busAnswers_of_none rfl _ _ _, by decide, by decide,
    busAnswers_of_none rfl _ _ _, by decide, by decide⟩

/-- Lanes 0 and 3. -/
theorem test_witness_UnalignedLoadsMergeBytes :
    (0x80020004#32 = BitVec.ofInt 32 ((readReg (data 0) 1).toNat + (4#16).toInt) ∧ (0x80020004#32).toNat % 4 = 0 ∧
      (0x80020004#32).toNat = (0x80020004#32).toNat / 4 * 4) ∧
    (0x80020007#32 = BitVec.ofInt 32 ((readReg (data 0) 1).toNat + (7#16).toInt) ∧ 3 = (0x80020007#32).toNat % 4 ∧
      (0x80020004#32).toNat = (0x80020007#32).toNat / 4 * 4) ∧
    BusAnswers (data 0) .load 0x80020004#32 4 := ⟨by decide, by decide, busAnswers_of_none rfl _ _ _⟩

/-- At the top of the address space, where the pair wraps: p = 0xFFFFFFFE from base 0. -/
theorem test_witness_UnalignedLoadPairLoadsTheWord :
    (2#5 : Reg) ≠ 0#5 ∧ 0xFFFFFFFE#32 = BitVec.ofInt 32 ((readReg start 0).toNat + (0xFFFE#16).toInt) ∧
    (1#16).toInt = (0xFFFE#16).toInt + 3 ∧ (∀ q, start.pendingLoad = some q → q.reg ≠ 0#5) ∧
    BusAnswers start .load (0xFFFFFFFE#32 &&& 0xFFFFFFFC#32) 4 ∧
    BusAnswers start .load ((0xFFFFFFFE#32 + 3#32) &&& 0xFFFFFFFC#32) 4 :=
  ⟨by decide, by decide, by decide, fun q h => (nomatch h), busAnswers_of_none rfl _ _ _, busAnswers_of_none rfl _ _ _⟩

/-- The misaligned clauses of LoadsDeliverTheirValueLate and StoresWriteTheirBytes. -/
theorem test_witness_misaligned :
    (0x80020001#32 = BitVec.ofInt 32 ((readReg (data 0) 1).toNat + (1#16).toInt) ∧ (0x80020001#32).toNat % 2 ≠ 0) ∧
    (0x80020002#32 = BitVec.ofInt 32 ((readReg (data 0) 1).toNat + (2#16).toInt) ∧ (0x80020002#32).toNat % 4 ≠ 0) := by
  decide

theorem test_witness_StoresWriteTheirBytes :
    BusAnswers (data 0) .store 0x80020007#32 1 ∧
    0x80020007#32 = BitVec.ofInt 32 ((readReg (data 0) 1).toNat + (7#16).toInt) ∧
    BusAnswers (data 0) .store 0x80020006#32 2 ∧ (0x80020006#32).toNat % 2 = 0 ∧
    0x80020006#32 = BitVec.ofInt 32 ((readReg (data 0) 1).toNat + (6#16).toInt) ∧
    BusAnswers (data 0) .store 0x80020004#32 4 ∧ (0x80020004#32).toNat % 4 = 0 ∧
    0x80020004#32 = BitVec.ofInt 32 ((readReg (data 0) 1).toNat + (4#16).toInt) :=
  ⟨busAnswers_of_none rfl _ _ _, by decide, busAnswers_of_none rfl _ _ _, by decide, by decide,
    busAnswers_of_none rfl _ _ _, by decide, by decide⟩

/-- Lane 0, where SWL stores one byte and SWR four, and lane 3, where SWL stores four and SWR one. -/
theorem test_witness_UnalignedStoresWriteTheirBytes :
    (0x80020004#32 = BitVec.ofInt 32 ((readReg (data 0) 1).toNat + (4#16).toInt) ∧ 0 = (0x80020004#32).toNat % 4 ∧
      (0x80020004#32).toNat = (0x80020004#32).toNat / 4 * 4 ∧
      (0#32).toNat = (readReg (data 0) 2).toNat / 2 ^ (8 * (3 - 0)) ∧
      BusAnswers (data 0) .store 0x80020004#32 (0 + 1) ∧ BusAnswers (data 0) .store 0x80020004#32 (4 - 0)) ∧
    (0x80020007#32 = BitVec.ofInt 32 ((readReg (data 0) 1).toNat + (7#16).toInt) ∧ 3 = (0x80020007#32).toNat % 4 ∧
      (0x80020004#32).toNat = (0x80020007#32).toNat / 4 * 4 ∧
      (0#32).toNat = (readReg (data 0) 2).toNat / 2 ^ (8 * (3 - 3)) ∧
      BusAnswers (data 0) .store 0x80020004#32 (3 + 1) ∧ BusAnswers (data 0) .store 0x80020007#32 (4 - 3)) :=
  ⟨⟨by decide, by decide, by decide, by decide, busAnswers_of_none rfl _ _ _, busAnswers_of_none rfl _ _ _⟩,
    by decide, by decide, by decide, by decide, busAnswers_of_none rfl _ _ _, busAnswers_of_none rfl _ _ _⟩

theorem test_witness_UnalignedStorePairStoresTheWord :
    0xFFFFFFFE#32 = BitVec.ofInt 32 ((readReg start 0).toNat + (0xFFFE#16).toInt) ∧
    (1#16).toInt = (0xFFFE#16).toInt + 3 ∧
    (∀ q, start.pendingLoad = some q → q.reg ≠ 0#5 ∧ q.reg ≠ 2#5) ∧
    BusAnswers start .store ((0xFFFFFFFE#32 + 3#32) &&& 0xFFFFFFFC#32) ((0xFFFFFFFE#32 + 3#32).toNat % 4 + 1) ∧
    BusAnswers start .store 0xFFFFFFFE#32 (4 - (0xFFFFFFFE#32).toNat % 4) :=
  ⟨by decide, by decide, fun q h => (nomatch h), busAnswers_of_none rfl _ _ _, busAnswers_of_none rfl _ _ _⟩

/-- The data words with the last byte of the first one failing for loads and stores. -/
def failing : State :=
  { data 0 with busFailures := [⟨.load, 0x80020003, 1⟩, ⟨.store, 0x80020003, 1⟩] }

/-- The failing clauses of LoadOutcome and StoreOutcome: byte accesses at lane 3, halfwords at lane 2, words at lane 0,
the unaligned forms at lane 3. -/
theorem test_witness_failing :
    ¬ BusAnswers failing .load 0x80020003#32 1 ∧ ¬ BusAnswers failing .load 0x80020002#32 2 ∧
    ¬ BusAnswers failing .load 0x80020000#32 4 ∧ ¬ BusAnswers failing .store 0x80020003#32 1 ∧
    ¬ BusAnswers failing .store 0x80020002#32 2 ∧ ¬ BusAnswers failing .store 0x80020000#32 4 ∧
    ¬ BusAnswers failing .store 0x80020000#32 (3 + 1) ∧ ¬ BusAnswers failing .store 0x80020003#32 (4 - 3) ∧
    0x80020003#32 = BitVec.ofInt 32 ((readReg failing 1).toNat + (3#16).toInt) ∧
    0x80020002#32 = BitVec.ofInt 32 ((readReg failing 1).toNat + (2#16).toInt) ∧
    0x80020000#32 = BitVec.ofInt 32 ((readReg failing 1).toNat + (0#16).toInt) :=
  ⟨fun h => h ⟨.load, 0x80020003, 1⟩ (by decide) rfl 0 (by decide) (by decide),
    fun h => h ⟨.load, 0x80020003, 1⟩ (by decide) rfl 1 (by decide) (by decide),
    fun h => h ⟨.load, 0x80020003, 1⟩ (by decide) rfl 3 (by decide) (by decide),
    fun h => h ⟨.store, 0x80020003, 1⟩ (by decide) rfl 0 (by decide) (by decide),
    fun h => h ⟨.store, 0x80020003, 1⟩ (by decide) rfl 1 (by decide) (by decide),
    fun h => h ⟨.store, 0x80020003, 1⟩ (by decide) rfl 3 (by decide) (by decide),
    fun h => h ⟨.store, 0x80020003, 1⟩ (by decide) rfl 3 (by decide) (by decide),
    fun h => h ⟨.store, 0x80020003, 1⟩ (by decide) rfl 0 (by decide) (by decide),
    by decide, by decide, by decide⟩

theorem test_witness_OnlyStoresChangeMemory :
    (∃ t, exec (.lw 2 1 4) (data 0) = .next t) ∧ ¬ IsStore (.lw 2 1 4) := ⟨⟨_, rfl⟩, id⟩

theorem test_witness_CachedWordsAreSticky :
    (overCached .never).busPolicy = .never ∧
    (∃ t, step ((overCached .never).withFetchWord 32 0xAC220000) = .next t ∧ t.busPolicy = .never) ∧
    icacheFetch ((overCached .never).withFetchWord 32 0xAC220000).icache 0x80020000#32 = some 0x24020001#32 :=
  ⟨rfl, (next_of_check (p := fun t => decide (t.busPolicy = .never)) (by decide)).imp fun _ h =>
    ⟨h.1, of_decide_eq_true h.2⟩, by decide⟩

theorem test_witness_InstructionsWriteOnlyTheirDestination :
    (∃ t, exec (.addiu 2 0 7) retiring = .next t) ∧ immediateDestination (.addiu 2 0 7) ≠ some 3#5 :=
  ⟨⟨_, rfl⟩, by decide⟩

/-- LW to r2, then a second load to r2, which does not cancel the first. -/
theorem test_witness_LoadedValueIsVisibleOneInstructionLate :
    (2#5 : Reg) ≠ 0#5 ∧ (readReg (data 1) 1#5 + (4#16).signExtend 32).toNat % 4 = 0 ∧
    BusAnswers (data 1) .load (readReg (data 1) 1#5 + (4#16).signExtend 32) 4 ∧
    (∃ t u, exec (.lw 2 1 4) (data 1) = .next t ∧ exec (.lw 2 1 0) t = .next u) ∧
    immediateDestination (.lw 2 1 0) ≠ some 2#5 ∧ (3#5 : Reg) ≠ 0#5 ∧ (3#5 : Reg) ≠ 2#5 :=
  ⟨by decide, by decide, busAnswers_of_none rfl _ _ _, ⟨_, _, rfl, rfl⟩, by decide, by decide, by decide⟩

theorem test_witness_ReturnSequenceResumesAtEpc : (27#5 : Reg) ≠ 0#5 := by decide

theorem test_witness_RfeUndoesTheModePush :
    ∃ t u, ExceptionEffect slotStart t 9#5 slotStart.pc true slotStart.badVaddr ∧ exec .rfe t = .next u :=
  ⟨raiseException .breakpoint slotStart, _, raiseException_effect .breakpoint slotStart, rfl⟩

theorem test_witness_EveryInstructionCompletesOrIsPrecise :
    (∃ t, exec (.brk 0) slotStart = .next t) ∧ (∃ t, exec (.mtc0 8 13) start = .next t) := ⟨⟨_, rfl⟩, ⟨_, rfl⟩⟩

/-- RFE in a handler entered from user mode. -/
theorem test_witness_OnlyRfeAndMtc0LeavePrivilegedMode :
    ∃ t, step ({ start with status := 0x8#32 }.withFetchWord 32 0x42000010) = .next t ∧
      (0x8#32 : Word).getLsbD 1 = false ∧ t.status.getLsbD 1 = true :=
  (next_of_check (p := fun t => t.status.getLsbD 1) (by decide)).imp fun _ h => ⟨h.1, by decide, h.2⟩

theorem test_witness_PrivilegeBitIsNotChecked :
    (∀ rt, Instr.mtc0 8 12 ≠ .mfc0 rt 12) ∧ (∃ t, exec (.mtc0 8 12) start = .next t) ∧
    exec (.sb 2 1 3) failing = .fault (.busFailure 0x80020003#32 .store) :=
  ⟨fun _ h => (nomatch h), ⟨_, rfl⟩, rfl⟩

theorem test_witness_InjectMergesAndDelivers :
    ({ irqStart 0x401#32 false with cause := 0x400#32 } : State).cause.extractLsb' 8 8 =
      (irqStart 0x401#32 false).cause.extractLsb' 8 8 ||| 4#8 ∧
    (irqStart 0x401#32 false).status.getLsbD 0 = true ∧ (0x400#32 : Word).getLsbD 10 = true ∧
    (irqStart 0x401#32 false).status.getLsbD 10 = true ∧ (irqStart 0x400#32 false).status.getLsbD 0 = false := by decide

theorem test_witness_NestedEntriesLoseTheOldestPair : ({ start with status := 0x401#32 } : State).status = 0x00000401#32 := rfl

/-- A state with memory, cache and holder in use has the invariant, and a step from it goes on. -/
def busy : State := { overCached .always with pendingLoad := some ⟨3#5, 7#32⟩ }

theorem test_witness_EveryStepKeepsTheInvariant : Inv busy ∧ ∃ t, step busy = .next t ∧ t.prid = Config.pridValue :=
  ⟨⟨by decide, by decide, rfl, fun p h => by cases h; decide, rfl⟩,
    (next_of_check (p := fun t => decide (t.prid = Config.pridValue)) (by decide)).imp fun _ h =>
      ⟨h.1, of_decide_eq_true h.2⟩⟩

theorem test_witness_EveryHostOperationKeepsTheInvariant : Inv busy := test_witness_EveryStepKeepsTheInvariant.1

end Sys2Proof.Tests
end

section
/-! The obligations of spec/10_state.md: the invariant of Safety.lean, who writes HI and LO, who marks a delay slot. The
invariant is kept operation by operation, one rule each; `exec_cases` and `step_cases` then say which operations a step is
made of. -/

namespace Sys2Proof.Machine

open Sys2Proof.Claims

/-! ### The invariant, operation by operation -/

/-- The invariant looks at memory, cache, register file, holder and processor ID only. -/
theorem inv_congr {s e : State} (h : Inv s) (hm : e.mem = s.mem) (hc : e.icache = s.icache) (hg : e.gpr = s.gpr)
    (hp : e.pendingLoad = s.pendingLoad) (hid : e.prid = s.prid) : Inv e where
  memory := hm ▸ h.memory
  cache := hc ▸ h.cache
  zero := by rw [hg]; exact h.zero
  holder := hp ▸ h.holder
  processorId := hid.trans h.processorId

theorem writeReg_inv {s : State} (i : Reg) (v : Word) (h : Inv s) : Inv (writeReg i v s) where
  memory := by simpa using h.memory
  cache := by simpa using h.cache
  zero := writeReg_zeroSlot i v s h.zero
  holder := by simpa using h.holder
  processorId := by simpa using h.processorId

theorem advance_inv {s : State} (h : Inv s) : Inv (advance s) where
  memory := by simpa using h.memory
  cache := by simpa using h.cache
  zero := commitRetiring_zeroSlot s h.zero
  holder := by simp
  processorId := by simpa using h.processorId

/-- A delayed write to register 0 leaves the holder empty, so the holder never names it (R31). -/
theorem writeDelayed_inv {s : State} (i : Reg) (v : Word) (h : Inv s) : Inv (writeDelayed i v s) where
  memory := by simpa using h.memory
  cache := by simpa using h.cache
  zero := by simpa using commitRetiring_zeroSlot s h.zero
  holder := fun p hp => by
    rw [writeDelayed_pendingLoad] at hp
    split at hp
    · cases hp
    · next hi => cases hp; exact hi
  processorId := by simpa using h.processorId

theorem storeBytes_inv {s : State} (addr : Word) (n : Nat) (v : Word) (h : Inv s) : Inv (storeBytes addr n v s) where
  memory := memWrite_wf s.mem addr v n h.memory
  cache := applyBusPolicy_wf s.busPolicy addr n s.icache h.cache
  zero := h.zero
  holder := h.holder
  processorId := h.processorId

theorem stageTarget_inv {s : State} (target : Word) (h : Inv s) : Inv (stageTarget target s) :=
  inv_congr h rfl rfl rfl rfl rfl

theorem writeCop0_inv {s : State} (rd : Nat) (b : Word) (h : Inv s) : Inv (writeCop0 rd b s) :=
  inv_congr h (by simp) (by simp) (by simp) (by simp) (by simp)

theorem returnFromException_inv {s : State} (h : Inv s) : Inv (returnFromException s) :=
  inv_congr h rfl rfl rfl rfl rfl

theorem raiseException_inv {s : State} (c : ExcCause) (h : Inv s) : Inv (raiseException c s) :=
  enterException_inv c s.pc s.inBranchDelay h (by simp) (by simp) (by simp) (by simp)

theorem raiseAddressError_inv {s : State} (c : ExcCause) (addr : Word) (h : Inv s) : Inv (raiseAddressError c addr s) :=
  enterException_inv c s.pc s.inBranchDelay h (by simp) (by simp) (by simp) (by simp)

theorem takeFetchAddressError_inv {s : State} (h : Inv s) : Inv (takeFetchAddressError s) :=
  enterException_inv .addressErrorLoad s.pc s.inBranchDelay h (by simp) (by simp) rfl (by simp)

theorem sampleIrq_inv {s : State} (h : Inv s) : Inv (sampleIrq s) :=
  inv_congr h rfl rfl rfl rfl rfl

/-- Caching the fetched word keeps the cache canonical. -/
theorem afterFetch_inv {s : State} (w : Word) (h : Inv s) : Inv (afterFetch s w) where
  memory := h.memory
  cache := icacheStore_wf s.icache s.pc w h.cache
  zero := h.zero
  holder := h.holder
  processorId := h.processorId

/-! ### The invariant, instruction and step -/

/-- Every instruction that answers a next state keeps the invariant. -/
theorem exec_inv {i : Instr} {s t : State} (hs : Inv s) (h : exec i s = .next t) : Inv t := by
  have ha : Inv (advance s) := advance_inv hs
  cases exec_cases h with
  | write rd v => exact writeReg_inv rd v ha
  | hiLo => exact inv_congr ha rfl rfl rfl rfl rfl
  | exception c => exact raiseException_inv c hs
  | addressError c addr => exact raiseAddressError_inv c addr hs
  | fallThrough => exact ha
  | linkOnly _ l => exact writeReg_inv l _ ha
  | transfer target => exact stageTarget_inv target ha
  | transferLink target _ l => exact stageTarget_inv target (writeReg_inv l _ ha)
  | delayed rt v => exact inv_congr (writeDelayed_inv rt v ha) rfl rfl rfl rfl rfl
  | store addr n v => exact storeBytes_inv addr n v ha
  | mtc0 rt rd => exact writeCop0_inv rd _ ha
  | rfe => exact returnFromException_inv ha

theorem step_inv {s t : State} (hs : Inv s) (h : step s = .next t) : Inv t := by
  obtain ⟨-, rfl⟩ | ⟨-, -, rfl⟩ | ⟨-, -, w, -, ⟨-, rfl⟩ | ⟨i, -, hx⟩⟩ := step_cases h
  · exact takeInterrupt_inv (sampleIrq_inv hs)
  · exact takeFetchAddressError_inv (sampleIrq_inv hs)
  · exact raiseException_inv _ (afterFetch_inv w hs)
  · exact exec_inv (afterFetch_inv w hs) hx

theorem reset_inv : Inv State.reset where
  memory := by decide
  cache := by decide
  zero := rfl
  holder := fun _ hp => nomatch hp
  processorId := rfl

/-! ### HI, LO and the delay-slot mark -/

/-- Of an instruction's shapes only a HI/LO write touches HI or LO, and that is the shape of the six of R29 alone. -/
theorem exec_hiLoKept {i : Instr} {s t : State} (h : exec i s = .next t) (hw : ¬ WritesHiLo i) : HiLoKept s t := by
  cases exec_cases h with
  | hiLo _ _ hh => exact absurd hh hw
  | exception c => exact (raiseException_effect c s).hiLo
  | addressError c addr => exact (raiseAddressError_effect c addr s).hiLo
  | write | fallThrough | linkOnly | transfer | transferLink | delayed | store | mtc0 | rfe => exact ⟨by simp, by simp⟩

/-- Only the shapes that stage a target leave the mark set: `advance` clears it and exception entry clears it (R32). -/
theorem exec_inBranchDelay_isTransfer {i : Instr} {s t : State} (h : exec i s = .next t) (hd : t.inBranchDelay = true) :
    IsTransfer i := by
  cases exec_cases h with
  | transfer _ hi | transferLink _ hi => exact hi
  | exception c => rw [(raiseException_effect c s).slot] at hd; cases hd
  | addressError c addr => rw [(raiseAddressError_effect c addr s).slot] at hd; cases hd
  | write | hiLo | fallThrough | linkOnly | delayed | store | mtc0 | rfe => simp at hd

end Sys2Proof.Machine

namespace Sys2Proof.Proofs

open Sys2Proof.Machine Sys2Proof.Claims

/-- Settles O54: the step's outcomes by `step_cases`, an instruction's by `exec_cases`, and one rule per operation. -/
theorem everyStepKeepsTheInvariant : Obligations.EveryStepKeepsTheInvariant :=
  fun _ _ => step_inv

/-- Settles O24, by the shapes of an instruction's next state. -/
theorem onlyMultiplyDivideAndMovesWriteHiLo : Obligations.OnlyMultiplyDivideAndMovesWriteHiLo :=
  fun _ _ _ => exec_hiLoKept

/-- Settles O29: an interrupt, a misaligned fetch and a reserved word end in exception entry, which clears the mark; so the
step ran an instruction, and it is a branch or a jump. -/
theorem onlyTransfersMarkADelaySlot : Obligations.OnlyTransfersMarkADelaySlot := by
  intro s t h hd
  obtain ⟨-, rfl⟩ | ⟨-, -, rfl⟩ | ⟨-, -, w, hf, ⟨-, rfl⟩ | ⟨i, hi, hx⟩⟩ := step_cases h
  · rw [(takeInterrupt_effect _).slot] at hd; cases hd
  · rw [(takeFetchAddressError_effect _).slot] at hd; cases hd
  · rw [(raiseException_effect _ _).slot] at hd; cases hd
  · exact ⟨w, i, hf, hi, exec_inBranchDelay_isTransfer hx hd⟩

/-- Settles O56: both lists are empty, register 0 is 0, the holder is empty and `prid` is the constant. -/
theorem resetHasTheInvariant : Obligations.ResetHasTheInvariant := reset_inv

end Sys2Proof.Proofs
end

section
/-! The obligations of spec/20_memory.md: the cache is sticky when the bus invalidates nothing, and what the host's cache
operations do. An instruction reaches the cache only through the bus's policy after a store, and a fetch only inserts
where nothing is cached. -/

namespace Sys2Proof.Machine

open Sys2Proof.Claims

/-- `icache.store` "inserts if absent" (R71): a cached word is never overwritten. -/
theorem icacheFetch_store_of_cached {c : ICache} {a w : Word} (addr v : Word) (h : icacheFetch c a = some w) :
    icacheFetch (icacheStore c addr v) a = some w := by
  rw [icacheFetch_store]
  split
  · next e => rw [← e, h, Option.getD_some]
  · exact h

/-- Under the policy `never` no instruction changes what the cache answers: a store leaves it to the bus, and the other
shapes do not reach it (R77, R80). -/
theorem exec_icacheFetch_of_never {i : Instr} {s t : State} (hp : s.busPolicy = .never) (h : exec i s = .next t)
    (a : Word) : icacheFetch t.icache a = icacheFetch s.icache a := by
  cases exec_cases h with
  | store addr n v hn => exact (storeEffect_storeBytes addr n v s (by omega)).cacheNever hp a
  | exception c => exact (raiseException_effect c s).storage.cache a
  | addressError c addr => exact (raiseAddressError_effect c addr s).storage.cache a
  | write | hiLo | fallThrough | linkOnly | transfer | transferLink | delayed | mtc0 | rfe => simp

end Sys2Proof.Machine

namespace Sys2Proof.Proofs

open Sys2Proof.Machine Sys2Proof.Claims

/-- Settles O37: interrupt and misaligned fetch leave the cache alone; otherwise the word survives the fill of the fetch,
and then the exception of a reserved word or the instruction run under the policy `never`. -/
theorem cachedWordsAreSticky : Obligations.CachedWordsAreSticky := by
  intro s t a w hp h hc
  obtain ⟨-, rfl⟩ | ⟨-, -, rfl⟩ | ⟨-, -, v, -, hrun⟩ := step_cases h
  · exact ((takeInterrupt_effect _).storage.cache a).trans hc
  · exact ((takeFetchAddressError_effect _).storage.cache a).trans hc
  · have hfill : icacheFetch (afterFetch s v).icache a = some w := icacheFetch_store_of_cached s.pc v hc
    obtain ⟨-, rfl⟩ | ⟨i, -, hx⟩ := hrun
    · exact ((raiseException_effect _ _).storage.cache a).trans hfill
    · exact (exec_icacheFetch_of_never (s := afterFetch s v) hp hx a).trans hfill

/-- Settles O51: the cache's own read laws, one for each of the three operations. -/
theorem cacheOperationsAct : Obligations.CacheOperationsAct := fun s a b w =>
  ⟨icacheFetch_prefill s.icache b w a, icacheFetch_invalidate s.icache b a,
    fun limit => icacheFetch_invalidateRange s.icache b limit a⟩

end Sys2Proof.Proofs
end

section
/-! The obligations of spec/30_encoding.md. The key fact is `decode_eq_instr_iff`: a word decodes to `i` exactly when it
agrees with `encode i` on the bits that `i` uses. The round trips and the ignored bits follow from it; the reserved and
the refused words are found by the values of the selecting fields. -/

namespace Sys2Proof.Laws

open Sys2Proof.Claims

/-! ### Words compared field by field (R101 to R103) -/

theorem extract_eq_extract_iff (v w : Word) (start n : Nat) :
    v.extractLsb' start n = w.extractLsb' start n ↔ ∀ k < n, v.getLsbD (start + k) = w.getLsbD (start + k) := by
  refine ⟨fun h k hk => ?_, fun h => extract_eq v start _ fun k hk => ?_⟩
  · simpa [hk] using congrArg (·.getLsbD k) h
  · simpa [hk] using h k hk

/-- Two words agree on a field exactly when they agree on its two halves. -/
theorem extract_eq_iff_split (v w : Word) (start hi lo : Nat) :
    v.extractLsb' start (hi + lo) = w.extractLsb' start (hi + lo) ↔
      v.extractLsb' (start + lo) hi = w.extractLsb' (start + lo) hi ∧
      v.extractLsb' start lo = w.extractLsb' start lo := by
  simp only [extract_eq_extract_iff]
  refine ⟨fun h => ⟨fun k hk => ?_, fun k hk => h k (by omega)⟩, fun ⟨hh, hl⟩ k hk => ?_⟩
  · simpa only [Nat.add_assoc] using h (lo + k) (by omega)
  · by_cases hlo : k < lo
    · exact hl k hlo
    · simpa only [Nat.add_assoc, Nat.add_sub_cancel' (Nat.le_of_not_lt hlo)] using hh (k - lo) (by omega)

theorem eq_iff_fieldsJ (v w : Word) : v = w ↔ opcodeField v = opcodeField w ∧ targetField v = targetField w := by
  have h := extract_eq_iff_split v w 0 6 26
  rwa [BitVec.extractLsb'_eq_self, BitVec.extractLsb'_eq_self] at h

theorem eq_iff_fieldsCode (v w : Word) :
    v = w ↔ opcodeField v = opcodeField w ∧ codeField v = codeField w ∧ functField v = functField w :=
  (eq_iff_fieldsJ v w).trans (and_congr_right' (extract_eq_iff_split v w 0 20 6))

theorem eq_iff_fieldsI (v w : Word) :
    v = w ↔ opcodeField v = opcodeField w ∧ rsField v = rsField w ∧ rtField v = rtField w ∧ immField v = immField w :=
  (eq_iff_fieldsJ v w).trans (and_congr_right'
    ((extract_eq_iff_split v w 0 5 21).trans (and_congr_right' (extract_eq_iff_split v w 0 5 16))))

theorem eq_iff_fieldsR (v w : Word) :
    v = w ↔ opcodeField v = opcodeField w ∧ rsField v = rsField w ∧ rtField v = rtField w ∧ rdField v = rdField w ∧
      shamtField v = shamtField w ∧ functField v = functField w :=
  (eq_iff_fieldsI v w).trans (and_congr_right' (and_congr_right' (and_congr_right'
    ((extract_eq_iff_split v w 0 5 11).trans (and_congr_right' (extract_eq_iff_split v w 0 5 6))))))

/-! ### The fields of a masked word -/

@[simp] theorem fields_and (v w : Word) :
    opcodeField (v &&& w) = opcodeField v &&& opcodeField w ∧ rsField (v &&& w) = rsField v &&& rsField w ∧
    rtField (v &&& w) = rtField v &&& rtField w ∧ rdField (v &&& w) = rdField v &&& rdField w ∧
    shamtField (v &&& w) = shamtField v &&& shamtField w ∧ functField (v &&& w) = functField v &&& functField w ∧
    immField (v &&& w) = immField v &&& immField w :=
  ⟨BitVec.extractLsb'_and, BitVec.extractLsb'_and, BitVec.extractLsb'_and, BitVec.extractLsb'_and,
    BitVec.extractLsb'_and, BitVec.extractLsb'_and, BitVec.extractLsb'_and⟩

theorem extract_ofNat (m start n : Nat) (h : start + n ≤ 32) :
    (BitVec.ofNat 32 m).extractLsb' start n = BitVec.ofNat n (m / 2 ^ start) := by
  refine extract_eq _ _ _ fun k hk => ?_
  simp only [BitVec.getLsbD_ofNat, Nat.testBit_div_two_pow, hk, show start + k < 32 by omega, Nat.add_comm k]

@[simp] theorem fields_ofNat (m : Nat) :
    opcodeField (BitVec.ofNat 32 m) = BitVec.ofNat 6 (m / 2 ^ 26) ∧
    rsField (BitVec.ofNat 32 m) = BitVec.ofNat 5 (m / 2 ^ 21) ∧
    rtField (BitVec.ofNat 32 m) = BitVec.ofNat 5 (m / 2 ^ 16) ∧
    rdField (BitVec.ofNat 32 m) = BitVec.ofNat 5 (m / 2 ^ 11) ∧
    shamtField (BitVec.ofNat 32 m) = BitVec.ofNat 5 (m / 2 ^ 6) ∧
    functField (BitVec.ofNat 32 m) = BitVec.ofNat 6 (m / 2 ^ 0) ∧
    immField (BitVec.ofNat 32 m) = BitVec.ofNat 16 (m / 2 ^ 0) :=
  ⟨extract_ofNat m 26 6 (by decide), extract_ofNat m 21 5 (by decide), extract_ofNat m 16 5 (by decide),
    extract_ofNat m 11 5 (by decide), extract_ofNat m 6 5 (by decide), extract_ofNat m 0 6 (by decide),
    extract_ofNat m 0 16 (by decide)⟩

@[simp] theorem and_ones5 (x : Reg) : x &&& 31#5 = x := BitVec.and_allOnes
@[simp] theorem and_ones6 (x : BitVec 6) : x &&& 63#6 = x := BitVec.and_allOnes
@[simp] theorem and_ones16 (x : BitVec 16) : x &&& 0xFFFF#16 = x := BitVec.and_allOnes
@[simp] theorem and_ones32 (x : Word) : x &&& 0xFFFFFFFF#32 = x := BitVec.and_allOnes

/-- The rt bits that select in REGIMM are bits 20 and 16 of the word (R109). -/
theorem rtField_and_selector (w : Word) :
    rtField w &&& 17#5 = (if w.getLsbD 20 then 16#5 else 0#5) ||| (if w.getLsbD 16 then 1#5 else 0#5) := by
  have h (x : Reg) : x &&& 17#5 = (if x.getLsbD 4 then 16#5 else 0#5) ||| (if x.getLsbD 0 then 1#5 else 0#5) := by
    revert x; decide
  obtain ⟨h20, h16, -⟩ := selector_bits w
  rw [h, h20, h16]

/-- The rs bit that selects RFE is bit 25 of the word (R110). -/
theorem rsField_and_selector (w : Word) : rsField w &&& 16#5 = if w.getLsbD 25 then 16#5 else 0#5 := by
  have h (x : Reg) : x &&& 16#5 = if x.getLsbD 4 then 16#5 else 0#5 := by revert x; decide
  obtain ⟨-, -, h25⟩ := selector_bits w
  rw [h, h25]

/-! ### The words of an instruction -/

/-- `w` is a word of `i`: it agrees with the encoding of the well-formed `i` on the bits that `i` uses. -/
def IsWordOf (i : Instr) (w : Word) : Prop := i.wellFormed = true ∧ encode i &&& usedBits i = w &&& usedBits i

theorem isWordOf_encode {i : Instr} (h : i.wellFormed = true) : IsWordOf i (encode i) := ⟨h, rfl⟩

/-- The instruction of `i`'s row with the operands that `w` holds in the row's fields. -/
def readOperands (w : Word) : Instr → Instr
  | .add .. => .add (rdField w) (rsField w) (rtField w)
  | .addu .. => .addu (rdField w) (rsField w) (rtField w)
  | .sub .. => .sub (rdField w) (rsField w) (rtField w)
  | .subu .. => .subu (rdField w) (rsField w) (rtField w)
  | .slt .. => .slt (rdField w) (rsField w) (rtField w)
  | .sltu .. => .sltu (rdField w) (rsField w) (rtField w)
  | .addi .. => .addi (rtField w) (rsField w) (immField w)
  | .addiu .. => .addiu (rtField w) (rsField w) (immField w)
  | .slti .. => .slti (rtField w) (rsField w) (immField w)
  | .sltiu .. => .sltiu (rtField w) (rsField w) (immField w)
  | .and .. => .and (rdField w) (rsField w) (rtField w)
  | .or .. => .or (rdField w) (rsField w) (rtField w)
  | .xor .. => .xor (rdField w) (rsField w) (rtField w)
  | .nor .. => .nor (rdField w) (rsField w) (rtField w)
  | .andi .. => .andi (rtField w) (rsField w) (immField w)
  | .ori .. => .ori (rtField w) (rsField w) (immField w)
  | .xori .. => .xori (rtField w) (rsField w) (immField w)
  | .lui .. => .lui (rtField w) (immField w)
  | .sll .. => .sll (rdField w) (rtField w) (shamtField w).toNat
  | .srl .. => .srl (rdField w) (rtField w) (shamtField w).toNat
  | .sra .. => .sra (rdField w) (rtField w) (shamtField w).toNat
  | .sllv .. => .sllv (rdField w) (rtField w) (rsField w)
  | .srlv .. => .srlv (rdField w) (rtField w) (rsField w)
  | .srav .. => .srav (rdField w) (rtField w) (rsField w)
  | .mult .. => .mult (rsField w) (rtField w)
  | .multu .. => .multu (rsField w) (rtField w)
  | .div .. => .div (rsField w) (rtField w)
  | .divu .. => .divu (rsField w) (rtField w)
  | .mfhi .. => .mfhi (rdField w)
  | .mflo .. => .mflo (rdField w)
  | .mthi .. => .mthi (rsField w)
  | .mtlo .. => .mtlo (rsField w)
  | .beq .. => .beq (rsField w) (rtField w) (immField w)
  | .bne .. => .bne (rsField w) (rtField w) (immField w)
  | .blez .. => .blez (rsField w) (immField w)
  | .bgtz .. => .bgtz (rsField w) (immField w)
  | .bltz .. => .bltz (rsField w) (immField w)
  | .bgez .. => .bgez (rsField w) (immField w)
  | .bltzal .. => .bltzal (rsField w) (immField w)
  | .bgezal .. => .bgezal (rsField w) (immField w)
  | .j .. => .j (targetField w)
  | .jal .. => .jal (targetField w)
  | .jr .. => .jr (rsField w)
  | .jalr .. => .jalr (rdField w) (rsField w)
  | .lb .. => .lb (rtField w) (rsField w) (immField w)
  | .lbu .. => .lbu (rtField w) (rsField w) (immField w)
  | .lh .. => .lh (rtField w) (rsField w) (immField w)
  | .lhu .. => .lhu (rtField w) (rsField w) (immField w)
  | .lw .. => .lw (rtField w) (rsField w) (immField w)
  | .lwl .. => .lwl (rtField w) (rsField w) (immField w)
  | .lwr .. => .lwr (rtField w) (rsField w) (immField w)
  | .sb .. => .sb (rtField w) (rsField w) (immField w)
  | .sh .. => .sh (rtField w) (rsField w) (immField w)
  | .sw .. => .sw (rtField w) (rsField w) (immField w)
  | .swl .. => .swl (rtField w) (rsField w) (immField w)
  | .swr .. => .swr (rtField w) (rsField w) (immField w)
  | .syscall .. => .syscall (codeField w)
  | .brk .. => .brk (codeField w)
  | .mfc0 .. => .mfc0 (rtField w) (rdField w).toNat
  | .mtc0 .. => .mtc0 (rtField w) (rdField w).toNat
  | .rfe => .rfe

/-- Every row of the table decodes its words. -/
theorem encodes_tableRow (i : Instr) : Encodes (tableRow i).1 (tableRow i).2 (fun w => readOperands w i) := by
  cases i
  exacts [decode_add, decode_addu, decode_sub, decode_subu, decode_slt, decode_sltu, decode_addi, decode_addiu,
    decode_slti, decode_sltiu, decode_and, decode_or, decode_xor, decode_nor, decode_andi, decode_ori, decode_xori,
    decode_lui, decode_sll, decode_srl, decode_sra, decode_sllv, decode_srlv, decode_srav, decode_mult, decode_multu,
    decode_div, decode_divu, decode_mfhi, decode_mflo, decode_mthi, decode_mtlo, decode_beq, decode_bne, decode_blez,
    decode_bgtz, decode_bltz, decode_bgez, decode_bltzal, decode_bgezal, decode_j, decode_jal, decode_jr,
    decode_jalr, decode_lb, decode_lbu, decode_lh, decode_lhu, decode_lw, decode_lwl, decode_lwr, decode_sb,
    decode_sh, decode_sw, decode_swl, decode_swr, decode_syscall, decode_brk, decode_mfc0, decode_mtc0, decode_rfe]

open EncodeFitsTable in
theorem encode_fitsTable (i : Instr) : Statement i := by
  cases i
  exacts [add .., addu .., sub .., subu .., slt .., sltu .., addi .., addiu .., slti .., sltiu .., and .., or ..,
    xor .., nor .., andi .., ori .., xori .., lui .., sll .., srl .., sra .., sllv .., srlv .., srav .., mult ..,
    multu .., div .., divu .., mfhi .., mflo .., mthi .., mtlo .., beq .., bne .., blez .., bgtz .., bltz .., bgez ..,
    bltzal .., bgezal .., j .., jal .., jr .., jalr .., lb .., lbu .., lh .., lhu .., lw .., lwl .., lwr .., sb ..,
    sh .., sw .., swl .., swr .., syscall .., brk .., mfc0 .., mtc0 .., rfe]

theorem usedBits_and_mask (i : Instr) : usedBits i &&& (tableRow i).1 = (tableRow i).1 := by
  cases i <;> simp only [usedBits, tableRow] <;> decide

theorem fitsTable_of_isWordOf {i : Instr} {w : Word} (h : IsWordOf i w) : w &&& (tableRow i).1 = (tableRow i).2 := by
  rw [← usedBits_and_mask, ← BitVec.and_assoc, ← h.2, BitVec.and_assoc, usedBits_and_mask]
  exact encode_fitsTable i

/-- Agreement on the used bits is agreement on the operand fields, format by format; a count that fits its field is read
back from it. -/
theorem readOperands_of_isWordOf {w : Word} {i : Instr} (h : IsWordOf i w) : readOperands w i = i := by
  obtain ⟨hwf, h⟩ := h
  cases i
  case rfe => rfl
  case sll | srl | sra | mfc0 | mtc0 =>
    have hlt := of_decide_eq_true hwf
    simp [encode, usedBits, eq_iff_fieldsR, formatR_fields] at h
    simp [readOperands, ← h, Nat.mod_eq_of_lt hlt]
  case syscall | brk =>
    simp [encode, usedBits, eq_iff_fieldsCode, formatCode_fields] at h
    simp [readOperands, ← h]
  case j | jal =>
    simp [encode, usedBits, eq_iff_fieldsJ, formatJ_fields] at h
    simp [readOperands, ← h]
  case add | addu | sub | subu | slt | sltu | and | or | xor | nor | sllv | srlv | srav | mult | multu | div | divu
    | mfhi | mflo | mthi | mtlo | jr | jalr =>
    simp [encode, usedBits, eq_iff_fieldsR, formatR_fields] at h
    simp [readOperands, ← h]
  all_goals
    simp [encode, usedBits, eq_iff_fieldsI, formatI_fields] at h
    simp [readOperands, ← h]

theorem decode_of_isWordOf {w : Word} {i : Instr} (h : IsWordOf i w) : decode w = .instr i :=
  (encodes_tableRow i w (fitsTable_of_isWordOf h)).trans (congrArg _ (readOperands_of_isWordOf h))

/-! ### Every decoded word is a word of its instruction, map by map (R107 to R110) -/

theorem decodeSpecial_isWordOf {w : Word} {i : Instr} (hop : opcodeField w = 0#6) (h : decodeSpecial w = .instr i) :
    IsWordOf i w := by
  unfold decodeSpecial at h
  split at h <;> cases h <;> rename_i hf <;> rw [BitVec.toNat_eq_nat] at hf
  case h_1 | h_2 | h_3 =>
    exact ⟨decide_eq_true (shamtField w).isLt, by simp [encode, usedBits, eq_iff_fieldsR, formatR_fields, hop, hf]⟩
  case h_9 | h_10 =>
    exact ⟨rfl, by simp [encode, usedBits, eq_iff_fieldsCode, formatCode_fields, hop, hf]⟩
  all_goals
    exact ⟨rfl, by simp [encode, usedBits, eq_iff_fieldsR, formatR_fields, hop, hf]⟩

theorem decodeRegimm_isWordOf {w : Word} {i : Instr} (hop : opcodeField w = 1#6) (h : decodeRegimm w = .instr i) :
    IsWordOf i w := by
  have hrt := rtField_and_selector w
  unfold decodeRegimm at h
  split at h <;> cases h <;> rename_i h20 h16 <;> rw [h20, h16] at hrt
  all_goals
    exact ⟨rfl, by simp [encode, usedBits, eq_iff_fieldsI, formatI_fields, hop, hrt]⟩

theorem decodeCop0_isWordOf {w : Word} {i : Instr} (hop : opcodeField w = 16#6) (h : decodeCop0 w = .instr i) :
    IsWordOf i w := by
  unfold decodeCop0 at h
  split_ifs at h with hrs hrs hrfe <;> cases h
  case pos | pos =>
    exact ⟨decide_eq_true (rdField w).isLt, by simp [encode, usedBits, eq_iff_fieldsR, formatR_fields, hop, hrs]⟩
  case pos =>
    obtain ⟨h25, hf⟩ := hrfe
    have hrs := rsField_and_selector w
    rw [h25] at hrs
    exact ⟨rfl, by simp [encode, usedBits, eq_iff_fieldsR, formatR_fields, hop, hrs, hf]⟩

theorem decode_isWordOf {w : Word} {i : Instr} (h : decode w = .instr i) : IsWordOf i w := by
  unfold decode at h
  split at h
  case h_1 hop => exact decodeSpecial_isWordOf (BitVec.eq_of_toNat_eq hop) h
  case h_2 hop => exact decodeRegimm_isWordOf (BitVec.eq_of_toNat_eq hop) h
  case h_17 hop => exact decodeCop0_isWordOf (BitVec.eq_of_toNat_eq hop) h
  all_goals cases h <;> rename_i hop <;> rw [BitVec.toNat_eq_nat] at hop
  case h_3 | h_4 =>
    exact ⟨rfl, by simp [encode, usedBits, eq_iff_fieldsJ, formatJ_fields, hop]⟩
  all_goals
    exact ⟨rfl, by simp [encode, usedBits, eq_iff_fieldsI, formatI_fields, hop]⟩

/-- A word decodes to an instruction exactly when it is one of its words. -/
theorem decode_eq_instr_iff (w : Word) (i : Instr) : decode w = .instr i ↔ IsWordOf i w :=
  ⟨decode_isWordOf, decode_of_isWordOf⟩

/-! ### The words that are no instruction (R111, R112) -/

theorem decodeSpecial_eq_reserved_iff (w : Word) : decodeSpecial w = .reserved ↔
    ((functField w).toNat ∈ ([0x01, 0x05, 0x0A, 0x0B, 0x0E, 0x0F, 0x14, 0x15, 0x16, 0x17, 0x1C, 0x1D, 0x1E, 0x1F, 0x28,
      0x29, 0x2C, 0x2D, 0x2E, 0x2F] : List Nat) ∨ 0x30 ≤ (functField w).toNat) := by
  have hlt : (functField w).toNat < 64 := (functField w).isLt
  unfold decodeSpecial
  generalize (functField w).toNat = n at hlt
  interval_cases n <;> simp

theorem decodeRegimm_ne_reserved (w : Word) : decodeRegimm w ≠ .reserved := by
  unfold decodeRegimm; split <;> simp

theorem decodeSpecial_ne_coprocessor (w : Word) : decodeSpecial w ≠ .coprocessor := by
  unfold decodeSpecial; split <;> simp

theorem decodeRegimm_ne_coprocessor (w : Word) : decodeRegimm w ≠ .coprocessor := by
  unfold decodeRegimm; split <;> simp

theorem decodeCop0_ne_reserved (w : Word) : decodeCop0 w ≠ .reserved := by
  unfold decodeCop0; split_ifs <;> simp

theorem decodeCop0_eq_coprocessor_iff (w : Word) : decodeCop0 w = .coprocessor ↔
    (rsField w).toNat ≠ 0 ∧ (rsField w).toNat ≠ 4 ∧ ¬ (w.getLsbD 25 = true ∧ (functField w).toNat = 0x10) := by
  simp only [decodeCop0, ne_eq, BitVec.toNat_eq_nat]
  split_ifs <;> simp [*]
  tauto

theorem decode_eq_reserved_iff (w : Word) : decode w = .reserved ↔ ReservedWord w := by
  change _ ↔ (opcodeField w).toNat ∈ _ ∨ (opcodeField w).toNat = 0 ∧
    ((functField w).toNat ∈ _ ∨ 0x30 ≤ (functField w).toNat)
  rw [← decodeSpecial_eq_reserved_iff]
  have hlt : (opcodeField w).toNat < 64 := (opcodeField w).isLt
  unfold decode
  generalize (opcodeField w).toNat = n at hlt ⊢
  interval_cases n <;> simp [decodeRegimm_ne_reserved, decodeCop0_ne_reserved]

theorem decode_eq_coprocessor_iff (w : Word) : decode w = .coprocessor ↔ RefusedWord w := by
  change _ ↔ (opcodeField w).toNat ∈ _ ∨ (opcodeField w).toNat = 0x10 ∧
    (rsField w).toNat ≠ 0 ∧ (rsField w).toNat ≠ 4 ∧ ¬ (w.getLsbD 25 = true ∧ (functField w).toNat = 0x10)
  rw [← decodeCop0_eq_coprocessor_iff]
  have hlt : (opcodeField w).toNat < 64 := (opcodeField w).isLt
  unfold decode
  generalize (opcodeField w).toNat = n at hlt ⊢
  interval_cases n <;> simp [decodeSpecial_ne_coprocessor, decodeRegimm_ne_coprocessor]

end Sys2Proof.Laws

namespace Sys2Proof.Proofs

open Sys2Proof.Machine Sys2Proof.Claims Sys2Proof.Laws

/-- Settles O1: the encoding of a well-formed instruction is one of its words. -/
theorem decodeOfEncodeIsTheInstruction : Obligations.DecodeOfEncodeIsTheInstruction :=
  fun i h => (decode_eq_instr_iff (encode i) i).2 (isWordOf_encode h)

/-- Settles O2: one direction of `decode_eq_instr_iff`. -/
theorem decodedInstructionEncodesTheUsedBits : Obligations.DecodedInstructionEncodesTheUsedBits :=
  fun w i => (decode_eq_instr_iff w i).1

/-- Settles O3: a word that agrees with a word of `i` on the used bits is a word of `i`. -/
theorem ignoredBitsDoNotChangeTheInstruction : Obligations.IgnoredBitsDoNotChangeTheInstruction := by
  intro w w' i h hagree
  rw [decode_eq_instr_iff] at h ⊢
  obtain ⟨hwf, henc⟩ := h
  exact ⟨hwf, henc.trans hagree.symm⟩

/-- Settles O4, by the values of the opcode and function fields. -/
theorem wordClassesAreThoseOfTheMaps : Obligations.WordClassesAreThoseOfTheMaps :=
  fun w => ⟨decode_eq_reserved_iff w, decode_eq_coprocessor_iff w⟩

/-- Settles O5: each word has the fixed bits of its row, and its fields hold the operands. -/
theorem familyWordsDecode : Obligations.FamilyWordsDecode :=
  ⟨decode_add _ rfl, decode_andi _ rfl, decode_srav _ rfl, decode_div _ rfl, decode_bgezal _ rfl, decode_jal _ rfl,
    decode_swl _ rfl, decode_mfc0 _ rfl⟩

/-- Settles O10: the word is fetched, decodes to the reserved class, and the dispatch raises the exception. -/
theorem reservedWordRaisesReservedInstruction : Obligations.ReservedWordRaisesReservedInstruction := by
  intro s w hi ha hf hr
  refine ⟨raiseException .reservedInstruction (afterFetch s w), ?_, raiseException_effect .reservedInstruction _⟩
  rw [step_of_fetches hi ha hf, dispatchWord, (decode_eq_reserved_iff w).2 hr]

/-- Settles O11: the dispatch refuses the fetched word; a failing fetch dispatches nothing. -/
theorem stepStopsOnCoprocessorWordOrFailingFetch : Obligations.StepStopsOnCoprocessorWordOrFailingFetch := by
  intro s hi ha
  refine ⟨fun w hf hr => ?_, fun hc hb => ?_⟩
  · rw [step_of_fetches hi ha hf, dispatchWord, (decode_eq_coprocessor_iff w).2 hr]
  · have hp : wordAligned (sampleIrq s).pc = true := (wordAligned_iff s.pc).2 ha
    rw [step_of_no_interrupt hi, stepInstruction, if_pos hp, fetchWord_of_fails hc hb]
    rfl

end Sys2Proof.Proofs
end

section
/-! The obligations of spec/40_step_cycle.md: the step without an interrupt, what an instruction that is no store leaves in
memory and in the cache, the register frame of every instruction, and the load delay, which follows from that frame and
from what LW leaves in the holder. -/

namespace Sys2Proof.Machine

open Sys2Proof.Claims

/-! ### The step -/

/-- A misaligned fetch address ends the step before the bus is reached (R134). -/
theorem step_of_misaligned_fetch {s : State} (hi : ¬ InterruptDue s) (ha : s.pc.toNat % 4 ≠ 0) :
    step s = .next (takeFetchAddressError (sampleIrq s)) := by
  have hp : ¬ wordAligned (sampleIrq s).pc = true := mt (wordAligned_iff s.pc).1 ha
  rw [step_of_no_interrupt hi, stepInstruction, if_neg hp]

/-- What follows the fetch of a word of `i` is `i` itself (R139). -/
theorem dispatchWord_of_decode {w : Word} {i : Instr} (h : decode w = .instr i) (s : State) :
    dispatchWord w s = exec i s := by
  rw [dispatchWord, h]

/-! ### The frame of an instruction -/

/-- Memory and cache are reached by the shape of a store alone (R284). -/
theorem exec_storageKept {i : Instr} {s t : State} (h : exec i s = .next t) (hn : ¬ IsStore i) : StorageKept s t := by
  cases exec_cases h with
  | store _ _ _ _ hs => exact absurd hs hn
  | exception c => exact (raiseException_effect c s).storage
  | addressError c addr => exact (raiseAddressError_effect c addr s).storage
  | write | hiLo | fallThrough | linkOnly | transfer | transferLink | delayed | mtc0 | rfe =>
    exact storageKept_of_eq (by simp) (by simp)

theorem readReg_writeReg_of_ne {i r : Reg} (h : i ≠ r) (v : Word) (s : State) :
    readReg (writeReg i v s) r = readReg s r := by
  rw [readReg_writeReg, if_neg h.symm]
  split
  · next hr => rw [hr, readReg_zero]
  · rfl

/-- The shapes that write a register at once write the destination of `i`; every other shape leaves the register file to
the retiring load (R138, R140). -/
theorem exec_readReg_of_ne_destination {i : Instr} {s t : State} {r : Reg} (h : exec i s = .next t)
    (hr : immediateDestination i ≠ some r) : readReg t r = retiredReg s r := by
  have written (l : Reg) (v : Word) (hl : immediateDestination i = some l) :
      readReg (writeReg l v (advance s)) r = retiredReg s r := by
    have hne : l ≠ r := fun e => hr (hl.trans (congrArg some e))
    rw [readReg_writeReg_of_ne hne, readReg_advance]
  cases exec_cases h with
  | write rd v hd => exact written rd v hd
  | linkOnly _ l hd => exact written l _ hd
  | transferLink _ _ l hd => exact (readReg_congr (stageTarget_gpr _ _) r).trans (written l _ hd)
  | exception c => exact (raiseException_effect c s).registers r
  | addressError c addr => exact (raiseAddressError_effect c addr s).registers r
  | delayed rt v => exact (delayedEffect_writeDelayed rt v s).registers r
  | hiLo | fallThrough | transfer | store | mtc0 | rfe => exact registersRetired_of_gpr (by simp) r

/-! ### The load delay -/

/-- LW at an aligned address that the bus answers puts the loaded word into the holder (R289). -/
theorem exec_lw_of_answers {rt base : Reg} {offset : BitVec 16} {s : State}
    (ha : (effectiveAddress s base offset).toNat % 4 = 0) (hb : BusAnswers s .load (effectiveAddress s base offset) 4) :
    exec (.lw rt base offset) s =
      .next (writeDelayed rt (memRead32 s.mem (effectiveAddress s base offset)) (advance s)) := by
  have hw : wordAligned (effectiveAddress s base offset) = true := (wordAligned_iff _).2 ha
  simp only [exec, execLw, alignedLoad, hw, if_true]
  exact busAccess_of_answers hb

theorem retiredReg_of_some {s : State} {r : Reg} {v : Word} (h : s.pendingLoad = some ⟨r, v⟩) (hr : r ≠ 0#5) :
    retiredReg s r = v := by
  simp [retiredReg, h, hr]

/-- ADDU with register 0 copies the operand-phase value of `a` (R137, R164). -/
theorem exec_addu_zero_copies {d a : Reg} {s t : State} (hd : d ≠ 0#5) (h : exec (.addu d a 0#5) s = .next t) :
    readReg t d = readReg s a := by
  obtain ⟨t', ht', heffect⟩ := writeResult_effect d (readReg s a + readReg s 0#5) s
  obtain rfl : t' = t := Host.Outcome.next.inj (ht'.symm.trans h)
  rw [heffect.registers d, if_neg hd, if_pos rfl, readReg_zero, BitVec.add_zero]

end Sys2Proof.Machine

namespace Sys2Proof.Proofs

open Sys2Proof.Machine Sys2Proof.Claims

/-- Settles O9: the check on the fetch address comes first after the interrupt check. -/
theorem misalignedFetchRaisesAddressError : Obligations.MisalignedFetchRaisesAddressError :=
  fun s hi ha => ⟨_, step_of_misaligned_fetch hi ha, takeFetchAddressError_effect (sampleIrq s)⟩

/-- Settles O36, by the shapes of an instruction's next state. -/
theorem onlyStoresChangeMemory : Obligations.OnlyStoresChangeMemory :=
  fun _ _ _ => exec_storageKept

/-- Settles O38, by the shapes of an instruction's next state. -/
theorem instructionsWriteOnlyTheirDestination : Obligations.InstructionsWriteOnlyTheirDestination :=
  fun _ _ _ _ => exec_readReg_of_ne_destination

/-- Settles O39: LW leaves the register file to its own retiring load, so the next instruction reads the old value; the
word is in the holder, and the register frame of the instruction that follows says that it retires into `r`. -/
theorem loadedValueIsVisibleOneInstructionLate : Obligations.LoadedValueIsVisibleOneInstructionLate := by
  intro r base d offset i s t u hr ha hb hlw hi hdest
  obtain rfl := Host.Outcome.next.inj ((exec_lw_of_answers ha hb).symm.trans hlw)
  have hload := delayedEffect_writeDelayed r (memRead32 s.mem (effectiveAddress s base offset)) s
  refine ⟨hload.registers r, ?_, fun hd _ u' haddu => (exec_addu_zero_copies hd haddu).trans (hload.registers r)⟩
  have hheld := hload.holder.trans (if_neg hr)
  rw [exec_readReg_of_ne_destination hi hdest, retiredReg_of_some hheld hr]
  exact memRead32_toNat s (effectiveAddress s base offset)

/-- Settles O6: the step dispatches the fetched word, and the word is one of `i`. -/
theorem stepRunsTheDecodedInstruction : Obligations.StepRunsTheDecodedInstruction :=
  fun _ _ _ hi ha hf hd => (step_of_fetches hi ha hf).trans (dispatchWord_of_decode hd _)

end Sys2Proof.Proofs
end

section
/-! The obligations of spec/41_arithmetic.md. Each instruction is a checked or an unchecked write of a result that its
equation gives in the terms of the statements; the sign-bit rule is the library's bit-level characterisation of signed
overflow. -/

namespace Sys2Proof.Machine

open Sys2Proof.Claims

/-! ### Results as numbers -/

theorem toNat_ofInt_eq_emod (i : Int) : ((BitVec.ofInt 32 i).toNat : Int) = i % 2 ^ 32 := by
  rw [BitVec.toNat_ofInt]
  omega

/-- The sign-extended immediate read as an unsigned number (R170, R172). -/
theorem signedImm_toNat (imm : BitVec 16) : ((signedImm imm).toNat : Int) = imm.toInt % 2 ^ 32 :=
  toNat_ofInt_eq_emod imm.toInt

theorem toNat_sub_eq_emod (x y : Word) : ((x - y).toNat : Int) = ((x.toNat : Int) - y.toNat) % 2 ^ 32 := by
  have hx := x.isLt
  have hy := y.isLt
  rw [BitVec.toNat_sub]
  omega

theorem toNat_add_signedImm (x : Word) (imm : BitVec 16) :
    ((x + signedImm imm).toNat : Int) = ((x.toNat : Int) + imm.toInt) % 2 ^ 32 := by
  have himm := signedImm_toNat imm
  rw [BitVec.toNat_add]
  omega

theorem ofInt_toInt_add (x y : Word) : BitVec.ofInt 32 (x.toInt + y.toInt) = x + y := by
  rw [BitVec.ofInt_add, BitVec.ofInt_toInt, BitVec.ofInt_toInt]

theorem ofInt_toInt_sub (x y : Word) : BitVec.ofInt 32 (x.toInt - y.toInt) = x - y := by
  rw [Int.sub_eq_add_neg, BitVec.ofInt_add, BitVec.ofInt_neg, BitVec.ofInt_toInt, BitVec.ofInt_toInt,
    BitVec.sub_eq_add_neg]

/-! ### Overflow by sign bits (R161) -/

theorem add_overflows_iff_signs (x y : Word) :
    (x.toInt + y.toInt < -2 ^ 31 ∨ 2 ^ 31 - 1 < x.toInt + y.toInt) ↔
      x.getLsbD 31 = y.getLsbD 31 ∧ (x + y).getLsbD 31 ≠ x.getLsbD 31 := by
  have hbits := BitVec.saddOverflow_eq x y
  simp only [BitVec.msb_eq_getLsbD_last, Nat.add_one_sub_one] at hbits
  have hrange : x.saddOverflow y = true ↔ x.toInt + y.toInt < -2 ^ 31 ∨ 2 ^ 31 - 1 < x.toInt + y.toInt := by
    simp only [BitVec.saddOverflow, Bool.or_eq_true, decide_eq_true_eq]
    omega
  rw [← hrange, hbits]
  simp

theorem sub_overflows_iff_signs (x y : Word) :
    (x.toInt - y.toInt < -2 ^ 31 ∨ 2 ^ 31 - 1 < x.toInt - y.toInt) ↔
      x.getLsbD 31 ≠ y.getLsbD 31 ∧ (x - y).getLsbD 31 = y.getLsbD 31 := by
  have hbits := BitVec.ssubOverflow_eq x y
  simp only [BitVec.msb_eq_getLsbD_last, Nat.add_one_sub_one] at hbits
  have hrange : x.ssubOverflow y = true ↔ x.toInt - y.toInt < -2 ^ 31 ∨ 2 ^ 31 - 1 < x.toInt - y.toInt := by
    simp only [BitVec.ssubOverflow, Bool.or_eq_true, decide_eq_true_eq]
    omega
  rw [← hrange, hbits]
  cases x.getLsbD 31 <;> cases y.getLsbD 31 <;> simp

/-! ### Checked and unchecked writes -/

/-- What `writeChecked` does with a result, on both sides of the range (R161). -/
theorem writeChecked_cases (rd : Reg) (x : Int) (s : State) :
    (-2 ^ 31 ≤ x ∧ x ≤ 2 ^ 31 - 1 → ∃ t v, writeChecked rd x s = .next t ∧ RegisterEffect s t rd v ∧ v.toInt = x) ∧
    (¬ (-2 ^ 31 ≤ x ∧ x ≤ 2 ^ 31 - 1) →
      ∃ t, writeChecked rd x s = .next t ∧ ExceptionEffect s t Config.excOv s.pc s.inBranchDelay s.badVaddr) :=
  ⟨writeChecked_fits rd x s, writeChecked_overflow rd x s⟩

theorem writeChecked_outside (rd : Reg) {x : Int} (s : State) (h : x < -2 ^ 31 ∨ 2 ^ 31 - 1 < x) :
    ∃ t, writeChecked rd x s = .next t ∧ ExceptionEffect s t Config.excOv s.pc s.inBranchDelay s.badVaddr :=
  writeChecked_overflow rd x s (by omega)

/-- A result that fits is written as its low 32 bits: the word written is the one whose signed value is the result. -/
theorem writeChecked_inside (rd : Reg) {x : Int} (s : State) (h : ¬ (x < -2 ^ 31 ∨ 2 ^ 31 - 1 < x)) :
    ∃ t, writeChecked rd x s = .next t ∧ RegisterEffect s t rd (BitVec.ofInt 32 x) := by
  obtain ⟨t, v, ht, heffect, rfl⟩ := writeChecked_fits rd x s (by omega)
  exact ⟨t, ht, by rwa [BitVec.ofInt_toInt]⟩

/-- An unchecked write, with what is known of the word written. -/
theorem writeResult_effect_of (rd : Reg) {v : Word} (s : State) {known : Word → Prop} (h : known v) :
    ∃ t u, writeResult rd v s = .next t ∧ RegisterEffect s t rd u ∧ known u := by
  obtain ⟨t, ht, heffect⟩ := writeResult_effect rd v s
  exact ⟨t, v, ht, heffect, h⟩

/-! ### The instructions -/

theorem exec_add (d a b : Reg) (s : State) :
    exec (.add d a b) s = writeChecked d ((readReg s a).toInt + (readReg s b).toInt) s := rfl

theorem exec_sub (d a b : Reg) (s : State) :
    exec (.sub d a b) s = writeChecked d ((readReg s a).toInt - (readReg s b).toInt) s := rfl

theorem exec_addi (d a : Reg) (imm : BitVec 16) (s : State) :
    exec (.addi d a imm) s = writeChecked d ((readReg s a).toInt + imm.toInt) s := by
  rw [← signedImm_toInt]; rfl

theorem exec_addu (d a b : Reg) (s : State) :
    exec (.addu d a b) s = writeResult d (readReg s a + readReg s b) s := rfl

theorem exec_subu (d a b : Reg) (s : State) :
    exec (.subu d a b) s = writeResult d (readReg s a - readReg s b) s := rfl

theorem exec_addiu (d a : Reg) (imm : BitVec 16) (s : State) :
    exec (.addiu d a imm) s = writeResult d (readReg s a + signedImm imm) s := rfl

/-- A comparison that is decided writes 1 or 0 (R162). -/
theorem boolWord_decide (p : Prop) [Decidable p] : boolWord (decide p) = if p then 1#32 else 0#32 := by
  by_cases h : p <;> simp [boolWord, h]

theorem exec_slt (d a b : Reg) (s : State) :
    exec (.slt d a b) s = writeResult d (if (readReg s a).toInt < (readReg s b).toInt then 1#32 else 0#32) s := by
  rw [← boolWord_decide]; rfl

theorem exec_sltu (d a b : Reg) (s : State) :
    exec (.sltu d a b) s = writeResult d (if (readReg s a).toNat < (readReg s b).toNat then 1#32 else 0#32) s := by
  rw [← boolWord_decide]; rfl

theorem exec_slti (d a : Reg) (imm : BitVec 16) (s : State) :
    exec (.slti d a imm) s = writeResult d (if (readReg s a).toInt < imm.toInt then 1#32 else 0#32) s := by
  rw [← boolWord_decide, ← signedImm_toInt]; rfl

theorem exec_sltiu (d a : Reg) (imm : BitVec 16) (s : State) :
    exec (.sltiu d a imm) s =
      writeResult d (if ((readReg s a).toNat : Int) < imm.toInt % 2 ^ 32 then 1#32 else 0#32) s := by
  simp only [← signedImm_toNat, Int.ofNat_lt, ← boolWord_decide]; rfl

end Sys2Proof.Machine

namespace Sys2Proof.Proofs

open Sys2Proof.Machine Sys2Proof.Claims Sys2Proof.Laws

/-- Settles O12: each of the three is a checked write of its mathematical result. -/
theorem checkedAddSubWritesOrTraps : Obligations.CheckedAddSubWritesOrTraps := by
  refine ⟨decode_add, decode_sub, decode_addi, fun d a b imm s x => ⟨?_, ?_, ?_⟩⟩ <;> rintro rfl
  · rw [exec_add]; exact writeChecked_cases d _ s
  · rw [exec_sub]; exact writeChecked_cases d _ s
  · rw [exec_addi]; exact writeChecked_cases d _ s

/-- Settles O13: the two conditions are equivalent, and the checked write traps by the range. -/
theorem overflowIsTheSignRule : Obligations.OverflowIsTheSignRule := by
  rintro d a b imm s _ _ rfl rfl
  rw [exec_add, exec_sub, exec_addi, ← add_overflows_iff_signs, ← sub_overflows_iff_signs, ← ofInt_toInt_add,
    ← ofInt_toInt_sub]
  exact ⟨.rfl, .rfl, writeChecked_outside d s, writeChecked_inside d s, writeChecked_outside d s,
    writeChecked_inside d s, writeChecked_outside d s⟩

/-- Settles O14: each of the three is an unchecked write, and the word written is the result modulo 2^32. -/
theorem unsignedAddSubWraps : Obligations.UnsignedAddSubWraps := by
  refine ⟨decode_addu, decode_subu, decode_addiu, fun d a b imm s => ?_⟩
  rw [exec_addu, exec_subu, exec_addiu]
  exact ⟨writeResult_effect_of d s (BitVec.toNat_add _ _), writeResult_effect_of d s (toNat_sub_eq_emod _ _),
    writeResult_effect_of d s (toNat_add_signedImm _ imm)⟩

/-- Settles O15: each of the four is an unchecked write of its comparison's 1 or 0. -/
theorem setLessThanWritesOneOrZero : Obligations.SetLessThanWritesOneOrZero := by
  refine ⟨decode_slt, decode_sltu, decode_slti, decode_sltiu, fun d a b imm s => ?_⟩
  rw [exec_slt, exec_sltu, exec_slti, exec_sltiu]
  exact ⟨writeResult_effect d _ s, writeResult_effect d _ s, writeResult_effect d _ s, writeResult_effect d _ s⟩

end Sys2Proof.Proofs
end

section
/-! The obligations of spec/42_logical.md. Each instruction is an unchecked write of its result; what the statements say of
the result's bits is the bit of a bitwise operation, and for the immediate forms the bit of the zero-extended immediate. -/

namespace Sys2Proof.Machine

open Sys2Proof.Claims

/-! ### The bits of the results -/

theorem nor_getLsbD (x y : Word) : ∀ k < 32, (~~~(x ||| y)).getLsbD k = !(x.getLsbD k || y.getLsbD k) := by
  intro k hk
  simp [hk]

/-- Zero extension, bit by bit (R180). -/
theorem unsignedImm_getLsbD (imm : BitVec 16) (k : Nat) :
    (unsignedImm imm).getLsbD k = if k < 16 then imm.getLsbD k else false := by
  rw [unsignedImm, BitVec.getLsbD_setWidth]
  split
  · simp [show k < 32 by omega]
  · simp [BitVec.getLsbD_of_ge imm k (by omega)]

/-- Bits 31 to 16 of ANDI's result are 0 (R185). -/
theorem and_unsignedImm_getLsbD (x : Word) (imm : BitVec 16) (k : Nat) :
    (x &&& unsignedImm imm).getLsbD k = if k < 16 then x.getLsbD k && imm.getLsbD k else false := by
  rw [BitVec.getLsbD_and, unsignedImm_getLsbD]
  split <;> simp

/-- Bits 31 to 16 of ORI's operand pass through (R186). -/
theorem or_unsignedImm_getLsbD (x : Word) (imm : BitVec 16) (k : Nat) :
    (x ||| unsignedImm imm).getLsbD k = if k < 16 then x.getLsbD k || imm.getLsbD k else x.getLsbD k := by
  rw [BitVec.getLsbD_or, unsignedImm_getLsbD]
  split <;> simp

/-- Bits 31 to 16 of XORI's operand pass through (R187). -/
theorem xor_unsignedImm_getLsbD (x : Word) (imm : BitVec 16) (k : Nat) :
    (x ^^^ unsignedImm imm).getLsbD k = if k < 16 then x.getLsbD k != imm.getLsbD k else x.getLsbD k := by
  rw [BitVec.getLsbD_xor, unsignedImm_getLsbD]
  split <;> simp

/-- The immediate over sixteen zeros, as a number (R188). -/
theorem upperImm_toNat (imm : BitVec 16) : (upperImm imm).toNat = imm.toNat * 65536 := by
  rw [upperImm, BitVec.toNat_append, Nat.shiftLeft_eq]
  simp

/-! ### The instructions -/

theorem exec_and (d a b : Reg) (s : State) :
    exec (.and d a b) s = writeResult d (readReg s a &&& readReg s b) s := rfl

theorem exec_or (d a b : Reg) (s : State) :
    exec (.or d a b) s = writeResult d (readReg s a ||| readReg s b) s := rfl

theorem exec_xor (d a b : Reg) (s : State) :
    exec (.xor d a b) s = writeResult d (readReg s a ^^^ readReg s b) s := rfl

theorem exec_nor (d a b : Reg) (s : State) :
    exec (.nor d a b) s = writeResult d (~~~(readReg s a ||| readReg s b)) s := rfl

theorem exec_andi (d a : Reg) (imm : BitVec 16) (s : State) :
    exec (.andi d a imm) s = writeResult d (readReg s a &&& unsignedImm imm) s := rfl

theorem exec_ori (d a : Reg) (imm : BitVec 16) (s : State) :
    exec (.ori d a imm) s = writeResult d (readReg s a ||| unsignedImm imm) s := rfl

theorem exec_xori (d a : Reg) (imm : BitVec 16) (s : State) :
    exec (.xori d a imm) s = writeResult d (readReg s a ^^^ unsignedImm imm) s := rfl

theorem exec_lui (d : Reg) (imm : BitVec 16) (s : State) :
    exec (.lui d imm) s = writeResult d (upperImm imm) s := rfl

end Sys2Proof.Machine

namespace Sys2Proof.Proofs

open Sys2Proof.Machine Sys2Proof.Claims Sys2Proof.Laws

/-- Settles O16: each of the four is an unchecked write of a bitwise operation. -/
theorem logicalRegisterFormsAreBitwise : Obligations.LogicalRegisterFormsAreBitwise := by
  refine ⟨decode_and, decode_or, decode_xor, decode_nor, fun d a b s => ?_⟩
  rw [exec_and, exec_or, exec_xor, exec_nor]
  exact ⟨writeResult_effect_of d s fun _ _ => BitVec.getLsbD_and, writeResult_effect_of d s fun _ _ => BitVec.getLsbD_or,
    writeResult_effect_of d s fun _ _ => BitVec.getLsbD_xor, writeResult_effect_of d s (nor_getLsbD _ _)⟩

/-- Settles O17: each of the four is an unchecked write, of an operation on the zero-extended immediate or of the immediate
over zeros. -/
theorem logicalImmediatesAreZeroExtended : Obligations.LogicalImmediatesAreZeroExtended := by
  refine ⟨decode_andi, decode_ori, decode_xori, decode_lui, fun d a imm s => ?_⟩
  rw [exec_andi, exec_ori, exec_xori, exec_lui]
  exact ⟨writeResult_effect_of d s fun k _ => and_unsignedImm_getLsbD _ imm k,
    writeResult_effect_of d s fun k _ => or_unsignedImm_getLsbD _ imm k,
    writeResult_effect_of d s fun k _ => xor_unsignedImm_getLsbD _ imm k,
    writeResult_effect_of d s (upperImm_toNat imm)⟩

end Sys2Proof.Proofs
end

section
/-! The obligations of spec/43_shift.md. Each instruction is an unchecked write of a shifted word, and a shift scales the
operand by a power of two; the variable forms are the fixed ones with the count modulo 32. -/

namespace Sys2Proof.Machine

open Sys2Proof.Claims

/-! ### Shifts as scalings -/

theorem shiftLeft_toNat (x : Word) (n : Nat) : (x <<< n).toNat = x.toNat * 2 ^ n % 2 ^ 32 := by
  rw [BitVec.toNat_shiftLeft, Nat.shiftLeft_eq]

theorem ushiftRight_toNat (x : Word) (n : Nat) : (x >>> n).toNat = x.toNat / 2 ^ n := by
  rw [BitVec.toNat_ushiftRight, Nat.shiftRight_eq_div_pow]

/-- The arithmetic shift rounds toward minus infinity (R203): `/` on `Int` by a positive divisor is the floor. -/
theorem sshiftRight_toInt (x : Word) (n : Nat) : (x.sshiftRight n).toInt = x.toInt / 2 ^ n := by
  rw [BitVec.toInt_sshiftRight, Int.shiftRight_eq_div_pow]
  norm_cast

/-! ### The instructions -/

theorem exec_sll (d b : Reg) (shamt : Nat) (s : State) :
    exec (.sll d b shamt) s = writeResult d (readReg s b <<< shamt) s := rfl

theorem exec_srl (d b : Reg) (shamt : Nat) (s : State) :
    exec (.srl d b shamt) s = writeResult d (readReg s b >>> shamt) s := rfl

theorem exec_sra (d b : Reg) (shamt : Nat) (s : State) :
    exec (.sra d b shamt) s = writeResult d ((readReg s b).sshiftRight shamt) s := rfl

/-- SLLV is SLL by the low 5 bits of the count register (R204). -/
theorem exec_sllv (d b a : Reg) (s : State) :
    exec (.sllv d b a) s = exec (.sll d b ((readReg s a).toNat % 32)) s := by
  rw [← variableShift_eq]; rfl

/-- SRLV is SRL by the low 5 bits of the count register (R205). -/
theorem exec_srlv (d b a : Reg) (s : State) :
    exec (.srlv d b a) s = exec (.srl d b ((readReg s a).toNat % 32)) s := by
  rw [← variableShift_eq]; rfl

/-- SRAV is SRA by the low 5 bits of the count register (R206). -/
theorem exec_srav (d b a : Reg) (s : State) :
    exec (.srav d b a) s = exec (.sra d b ((readReg s a).toNat % 32)) s := by
  rw [← variableShift_eq]; rfl

end Sys2Proof.Machine

namespace Sys2Proof.Proofs

open Sys2Proof.Machine Sys2Proof.Claims Sys2Proof.Laws

/-- Settles O18: each of the three is an unchecked write of a shifted word, and the shift is a scaling. -/
theorem fixedShiftsAreScalings : Obligations.FixedShiftsAreScalings := by
  refine ⟨decode_sll, decode_srl, decode_sra, fun d b shamt s => ?_⟩
  rw [exec_sll, exec_srl, exec_sra]
  exact ⟨writeResult_effect_of d s (shiftLeft_toNat _ shamt), writeResult_effect_of d s (ushiftRight_toNat _ shamt),
    writeResult_effect_of d s (sshiftRight_toInt _ shamt)⟩

/-- Settles O19: each variable form is the fixed form with the count modulo 32, so O18's scalings apply. -/
theorem variableShiftsUseTheLowFiveBits : Obligations.VariableShiftsUseTheLowFiveBits := by
  obtain ⟨-, -, -, scalings⟩ := fixedShiftsAreScalings
  refine ⟨decode_sllv, decode_srlv, decode_srav, fun d b a s => ?_⟩
  rw [exec_sllv, exec_srlv, exec_srav]
  exact scalings d b ((readReg s a).toNat % 32) s

end Sys2Proof.Proofs
end

section
/-! The obligations of spec/44_muldiv.md. Each of the six that write HI and LO is a `writeHiLo` of two results and never
anything else; what remains is arithmetic: a 64-bit product read from its halves, and division that rounds toward zero. -/

namespace Sys2Proof.Machine

open Sys2Proof.Claims

/-! ### A product and its halves (R221, R222) -/

theorem halves_append (p : BitVec 64) : p.extractLsb' 32 32 ++ p.extractLsb' 0 32 = p := by
  rw [BitVec.extractLsb'_append_extractLsb'_eq_extractLsb' (show 32 = 0 + 32 from rfl), BitVec.extractLsb'_eq_self]

theorem halves_toInt (p : BitVec 64) :
    (p.extractLsb' 32 32).toInt * 2 ^ 32 + (p.extractLsb' 0 32).toNat = p.toInt := by
  conv_rhs => rw [← halves_append p, BitVec.toInt_append, if_neg (by decide), mul_comm]

theorem halves_toNat (p : BitVec 64) :
    (p.extractLsb' 32 32).toNat * 2 ^ 32 + (p.extractLsb' 0 32).toNat = p.toNat := by
  conv_rhs => rw [← halves_append p, BitVec.toNat_append, ← Nat.shiftLeft_add_eq_or_of_lt (BitVec.isLt _),
    Nat.shiftLeft_eq]

/-- "The product of two 32-bit signed values always fits in 64 bits" (R221). -/
theorem signedProduct_toInt (x y : Word) : (BitVec.ofInt 64 (x.toInt * y.toInt)).toInt = x.toInt * y.toInt := by
  have hlow := BitVec.le_toInt_mul_toInt (x := x) (y := y)
  have hhigh := BitVec.toInt_mul_toInt_le (x := x) (y := y)
  exact BitVec.toInt_ofInt_eq_self (by decide) (by omega) (by omega)

theorem unsignedProduct_toNat (x y : Word) : (BitVec.ofNat 64 (x.toNat * y.toNat)).toNat = x.toNat * y.toNat := by
  rw [BitVec.toNat_ofNat, Nat.mod_eq_of_lt BitVec.toNat_mul_toNat_lt]

/-! ### Signed division (R223) -/

section SignedDivision

variable {a b : Word}

theorem signedQuotient_by_zero_of_nonneg (hb : b = 0#32) (ha : 0 ≤ a.toInt) : signedQuotient a b = 0xFFFFFFFF#32 := by
  rw [signedQuotient, if_pos hb, if_pos ha]

theorem signedQuotient_by_zero_of_neg (hb : b = 0#32) (ha : a.toInt < 0) : signedQuotient a b = 1#32 := by
  rw [signedQuotient, if_pos hb, if_neg (Int.not_le.2 ha)]

theorem signedRemainder_by_zero (hb : b = 0#32) : signedRemainder a b = a := if_pos hb

theorem signedQuotient_min_by_neg_one : signedQuotient 0x80000000#32 0xFFFFFFFF#32 = 0x80000000#32 := by decide

theorem signedRemainder_min_by_neg_one : signedRemainder 0x80000000#32 0xFFFFFFFF#32 = 0#32 := by decide

variable (hb : b ≠ 0#32) (hfits : ¬ (a = 0x80000000#32 ∧ b = 0xFFFFFFFF#32))
include hb hfits

/-- Only the minimum by -1 leaves the signed range, so elsewhere the word written is the quotient itself. -/
theorem signedQuotient_toInt : (signedQuotient a b).toInt = a.toInt.tdiv b.toInt := by
  have hquot : (a.sdiv b).toInt = a.toInt.tdiv b.toInt :=
    BitVec.toInt_sdiv_of_ne_or_ne a b (not_and_or.1 hfits)
  rw [signedQuotient, if_neg hb, if_neg hfits, ← hquot, BitVec.ofInt_toInt]

theorem signedRemainder_toInt : (signedRemainder a b).toInt = a.toInt.tmod b.toInt := by
  rw [signedRemainder, if_neg hb, if_neg hfits, mul_comm, ← Int.tmod_def, ← BitVec.toInt_srem, BitVec.ofInt_toInt]

/-- The quotient rounds toward zero: the remainder completes it to the numerator, is smaller than the divisor and has the
numerator's sign, or is 0. -/
theorem signedDivision_rounds_toward_zero :
    (signedQuotient a b).toInt * b.toInt + (signedRemainder a b).toInt = a.toInt ∧
    (signedRemainder a b).toInt.natAbs < b.toInt.natAbs ∧
    (0 ≤ a.toInt → 0 ≤ (signedRemainder a b).toInt) ∧ (a.toInt ≤ 0 → (signedRemainder a b).toInt ≤ 0) := by
  have hpos : 0 < b.toInt.natAbs := Int.natAbs_pos.2 fun h => hb (BitVec.eq_of_toInt_eq h)
  rw [signedQuotient_toInt hb hfits, signedRemainder_toInt hb hfits]
  refine ⟨Int.tdiv_mul_add_tmod _ _, ?_, Int.tmod_nonneg _, fun ha => ?_⟩
  · rw [Int.natAbs_tmod]
    exact Nat.mod_lt _ hpos
  · have hneg := Int.tmod_nonneg b.toInt (Int.neg_nonneg.2 ha)
    rw [Int.neg_tmod] at hneg
    exact Int.neg_nonneg.1 hneg

end SignedDivision

/-! ### Unsigned division (R224) -/

section UnsignedDivision

variable {a b : Word}

theorem unsignedQuotient_by_zero (hb : b = 0#32) : unsignedQuotient a b = 0xFFFFFFFF#32 := if_pos hb

theorem unsignedRemainder_by_zero (hb : b = 0#32) : unsignedRemainder a b = a := if_pos hb

theorem unsignedQuotient_toNat (hb : b ≠ 0#32) : (unsignedQuotient a b).toNat = a.toNat / b.toNat := by
  rw [unsignedQuotient, if_neg hb, ← BitVec.toNat_udiv, BitVec.ofNat_toNat, BitVec.setWidth_eq]

theorem unsignedRemainder_toNat (hb : b ≠ 0#32) : (unsignedRemainder a b).toNat = a.toNat % b.toNat := by
  rw [unsignedRemainder, if_neg hb, ← BitVec.toNat_umod, BitVec.ofNat_toNat, BitVec.setWidth_eq]

theorem unsignedDivision_rounds_down (hb : b ≠ 0#32) :
    (unsignedQuotient a b).toNat * b.toNat + (unsignedRemainder a b).toNat = a.toNat ∧
    (unsignedRemainder a b).toNat < b.toNat := by
  have hpos : 0 < b.toNat := Nat.pos_of_ne_zero fun h => hb (BitVec.eq_of_toNat_eq h)
  rw [unsignedQuotient_toNat hb, unsignedRemainder_toNat hb]
  exact ⟨Nat.div_add_mod' _ _, Nat.mod_lt _ hpos⟩

end UnsignedDivision

/-! ### The instructions -/

/-- A write of HI and LO, with what is known of the two words written. -/
theorem writeHiLo_effect_of {hi lo : Word} (s : State) {known : Word → Word → Prop} (h : known hi lo) :
    ∃ t u v, writeHiLo hi lo s = .next t ∧ HiLoEffect s t u v ∧ known u v := by
  obtain ⟨t, ht, heffect⟩ := writeHiLo_effect hi lo s
  exact ⟨t, hi, lo, ht, heffect, h⟩

theorem exec_mult (a b : Reg) (s : State) :
    exec (.mult a b) s = writeProduct (BitVec.ofInt 64 ((readReg s a).toInt * (readReg s b).toInt)) s := rfl

theorem exec_multu (a b : Reg) (s : State) :
    exec (.multu a b) s = writeProduct (BitVec.ofNat 64 ((readReg s a).toNat * (readReg s b).toNat)) s := rfl

theorem exec_div (a b : Reg) (s : State) :
    exec (.div a b) s =
      writeHiLo (signedRemainder (readReg s a) (readReg s b)) (signedQuotient (readReg s a) (readReg s b)) s := rfl

theorem exec_divu (a b : Reg) (s : State) :
    exec (.divu a b) s =
      writeHiLo (unsignedRemainder (readReg s a) (readReg s b)) (unsignedQuotient (readReg s a) (readReg s b)) s := rfl

theorem exec_mfhi (d : Reg) (s : State) : exec (.mfhi d) s = writeResult d s.hi s := rfl

theorem exec_mflo (d : Reg) (s : State) : exec (.mflo d) s = writeResult d s.lo s := rfl

theorem exec_mthi (a : Reg) (s : State) : exec (.mthi a) s = writeHiLo (readReg s a) s.lo s := rfl

theorem exec_mtlo (a : Reg) (s : State) : exec (.mtlo a) s = writeHiLo s.hi (readReg s a) s := rfl

end Sys2Proof.Machine

namespace Sys2Proof.Proofs

open Sys2Proof.Machine Sys2Proof.Claims Sys2Proof.Laws

/-- Settles O20: the product fits in 64 bits, and its halves are what HI and LO receive. -/
theorem multiplyWritesTheExactProduct : Obligations.MultiplyWritesTheExactProduct := by
  refine ⟨decode_mult, decode_multu, fun a b s => ?_⟩
  rw [exec_mult, exec_multu]
  exact ⟨writeHiLo_effect_of s ((halves_toInt _).trans (signedProduct_toInt _ _)),
    writeHiLo_effect_of s ((halves_toNat _).trans (unsignedProduct_toNat _ _))⟩

/-- Settles O21: DIV is one write of HI and LO whatever the operands, and its two words are known in each of R223's
cases. -/
theorem signedDivideIsTotal : Obligations.SignedDivideIsTotal := by
  refine ⟨decode_div, fun a b s => ?_⟩
  rw [exec_div]
  refine ⟨fun hb ha => ?_, fun hb ha => ?_, fun ha hb => ?_, fun hb hfits => ?_⟩
  · rw [signedRemainder_by_zero hb, signedQuotient_by_zero_of_nonneg hb ha]
    exact writeHiLo_effect _ _ s
  · rw [signedRemainder_by_zero hb, signedQuotient_by_zero_of_neg hb ha]
    exact writeHiLo_effect _ _ s
  · rw [ha, hb, signedRemainder_min_by_neg_one, signedQuotient_min_by_neg_one]
    exact writeHiLo_effect _ _ s
  · exact writeHiLo_effect_of s (signedDivision_rounds_toward_zero hb hfits)

/-- Settles O22: DIVU is one write of HI and LO, of the numerator and all ones by zero and of the remainder and the
quotient otherwise. -/
theorem unsignedDivideWritesQuotientAndRemainder : Obligations.UnsignedDivideWritesQuotientAndRemainder := by
  refine ⟨decode_divu, fun a b s => ?_⟩
  rw [exec_divu]
  refine ⟨fun hb => ?_, fun hb => ?_⟩
  · rw [unsignedRemainder_by_zero hb, unsignedQuotient_by_zero hb]
    exact writeHiLo_effect _ _ s
  · exact writeHiLo_effect_of s (unsignedDivision_rounds_down hb)

/-- Settles O23: the moves from HI and LO are immediate writes, the moves to them write one half over the other kept. -/
theorem hiLoMoves : Obligations.HiLoMoves := by
  refine ⟨decode_mfhi, decode_mflo, decode_mthi, decode_mtlo, fun r s => ?_⟩
  rw [exec_mfhi, exec_mflo, exec_mthi, exec_mtlo]
  exact ⟨writeResult_effect r _ s, writeResult_effect r _ s, writeHiLo_effect _ _ s, writeHiLo_effect _ _ s⟩

end Sys2Proof.Proofs
end

section
/-! The obligations of spec/45_branch.md. Each of the eight is `execBranch` or `execBranchLink` of its condition, read from
the operand-phase registers; the effect of both, taken or not, is `branchIf_effect`. -/

namespace Sys2Proof.Machine

open Sys2Proof.Claims

/-! ### The two forms of branch, by their condition -/

section Effects

variable (cond : Prop) [Decidable cond] {imm : BitVec 16} {s : State} {target : Word}
  (htarget : target = BitVec.ofInt 32 (s.nextPc.toNat + 4 * imm.toInt))
include htarget

/-- A branch without link writes no register of its own (R240, R241). -/
theorem execBranch_effect :
    ∃ t, execBranch (decide cond) imm s = .next t ∧ TransferEffect s t none cond target :=
  ⟨_, rfl, branchIf_effect (decide cond) imm s (advance s) none cond decide_eq_true_iff.symm target htarget
    (.inl ⟨rfl, rfl⟩)⟩

/-- A linking branch stages its target on the state that already holds the link, so it links in both outcomes (R248). -/
theorem execBranchLink_effect :
    ∃ t, execBranchLink (decide cond) imm s = .next t ∧ TransferEffect s t (some 31#5) cond target :=
  ⟨_, rfl, branchIf_effect (decide cond) imm s (writeReg 31#5 (linkAddress (advance s)) (advance s)) (some 31#5) cond
    decide_eq_true_iff.symm target htarget (.inr ⟨31#5, rfl, rfl⟩)⟩

end Effects

/-! ### The instructions -/

theorem exec_beq (a b : Reg) (imm : BitVec 16) (s : State) :
    exec (.beq a b imm) s = execBranch (decide (readReg s a = readReg s b)) imm s := rfl

theorem exec_bne (a b : Reg) (imm : BitVec 16) (s : State) :
    exec (.bne a b imm) s = execBranch (decide (readReg s a ≠ readReg s b)) imm s := rfl

theorem exec_blez (a : Reg) (imm : BitVec 16) (s : State) :
    exec (.blez a imm) s = execBranch (decide ((readReg s a).toInt ≤ 0)) imm s := rfl

theorem exec_bgtz (a : Reg) (imm : BitVec 16) (s : State) :
    exec (.bgtz a imm) s = execBranch (decide (0 < (readReg s a).toInt)) imm s := rfl

theorem exec_bltz (a : Reg) (imm : BitVec 16) (s : State) :
    exec (.bltz a imm) s = execBranch (decide ((readReg s a).toInt < 0)) imm s := rfl

theorem exec_bgez (a : Reg) (imm : BitVec 16) (s : State) :
    exec (.bgez a imm) s = execBranch (decide (0 ≤ (readReg s a).toInt)) imm s := rfl

theorem exec_bltzal (a : Reg) (imm : BitVec 16) (s : State) :
    exec (.bltzal a imm) s = execBranchLink (decide ((readReg s a).toInt < 0)) imm s := rfl

theorem exec_bgezal (a : Reg) (imm : BitVec 16) (s : State) :
    exec (.bgezal a imm) s = execBranchLink (decide (0 ≤ (readReg s a).toInt)) imm s := rfl

end Sys2Proof.Machine

namespace Sys2Proof.Proofs

open Sys2Proof.Machine Sys2Proof.Claims Sys2Proof.Laws

/-- Settles O25: each of the six is a branch without link under its own condition. -/
theorem branchesStageTheirTarget : Obligations.BranchesStageTheirTarget := by
  refine ⟨decode_beq, decode_bne, decode_blez, decode_bgtz, decode_bltz, decode_bgez, fun a b imm s target ht => ?_⟩
  rw [exec_beq, exec_bne, exec_blez, exec_bgtz, exec_bltz, exec_bgez]
  exact ⟨execBranch_effect _ ht, execBranch_effect _ ht, execBranch_effect _ ht, execBranch_effect _ ht,
    execBranch_effect _ ht, execBranch_effect _ ht⟩

/-- Settles O26: both are linking branches whose condition is read from the state before the link is written, so register
31 as source gives its old value. -/
theorem linkingBranchesAlwaysLink : Obligations.LinkingBranchesAlwaysLink := by
  refine ⟨decode_bltzal, decode_bgezal, fun a imm s target ht => ?_⟩
  rw [exec_bltzal, exec_bgezal]
  exact ⟨execBranchLink_effect _ ht, execBranchLink_effect _ ht⟩

end Sys2Proof.Proofs
end

section
/-! The obligations of spec/46_jump.md. Each of the four stages its target on the effect-phase state, linked or not, so
`stageTarget_effect` gives its effect; what remains is which target it stages. -/

namespace Sys2Proof.Machine

open Sys2Proof.Claims

theorem j_effect (field : BitVec 26) (s : State) :
    ∃ t, exec (.j field) s = .next t ∧ TransferEffect s t none True (jumpTarget s.nextPc field) :=
  ⟨_, rfl, stageTarget_effect s none _ _ (.inl ⟨rfl, rfl⟩)⟩

theorem jal_effect (field : BitVec 26) (s : State) :
    ∃ t, exec (.jal field) s = .next t ∧ TransferEffect s t (some 31#5) True (jumpTarget s.nextPc field) :=
  ⟨_, rfl, stageTarget_effect s (some 31#5) _ _ (.inr ⟨31#5, rfl, rfl⟩)⟩

theorem jr_effect (a : Reg) (s : State) :
    ∃ t, exec (.jr a) s = .next t ∧ TransferEffect s t none True (readReg s a) :=
  ⟨_, rfl, stageTarget_effect s none _ _ (.inl ⟨rfl, rfl⟩)⟩

/-- "The target is read after the link write" (R263): it is the link value exactly when the write reached the source. -/
theorem jalr_effect (d a : Reg) (s : State) :
    ∃ t, exec (.jalr d a) s = .next t ∧
      TransferEffect s t (some d) True (if a = d ∧ d ≠ 0#5 then s.nextPc + 4#32 else readReg s a) :=
  ⟨_, rfl, stageTarget_effect s (some d) _ _ (.inr ⟨d, rfl, rfl⟩)⟩

end Sys2Proof.Machine

namespace Sys2Proof.Proofs

open Sys2Proof.Machine Sys2Proof.Claims Sys2Proof.Laws

/-- Settles O27: both stage the region target of the delay-slot address, whose number is `jumpTarget_toNat`. -/
theorem regionJumpsKeepTheTopBits : Obligations.RegionJumpsKeepTheTopBits := by
  refine ⟨decode_j, decode_jal, fun field s => ?_⟩
  have htarget := jumpTarget_toNat s.nextPc field
  obtain ⟨t, hj, hjump⟩ := j_effect field s
  obtain ⟨u, hjal, hlink⟩ := jal_effect field s
  exact ⟨⟨t, _, hj, hjump, htarget⟩, ⟨u, _, hjal, hlink, htarget⟩⟩

/-- Settles O28: JALR's one target is the link value, or the operand-phase value of the source, which for register 0
is 0. -/
theorem registerJumpsTakeAnyTarget : Obligations.RegisterJumpsTakeAnyTarget := by
  refine ⟨decode_jr, decode_jalr, fun d a s => ?_⟩
  have hjalr := jalr_effect d a s
  refine ⟨jr_effect a s, fun hne => ?_, fun heq hd => ?_, fun heq hd => ?_⟩
  · rwa [if_neg fun h => hne h.1] at hjalr
  · rwa [if_pos ⟨heq, hd⟩] at hjalr
  · have hzero : readReg s a = 0#32 := by rw [heq, hd, readReg_zero]
    rwa [if_neg fun h => h.2 hd, hzero] at hjalr

end Sys2Proof.Proofs
end

section
/-! The obligations of spec/47_load_store.md. Every load is one `loadDelayed` and every store one `storeAccess`, so the
bus and alignment outcomes are settled once for each of the two; what remains is which bytes are read or stored. The two
unaligned pairs are then consequences of the statements about their halves. -/

namespace Sys2Proof.Machine

open Sys2Proof.Claims

/-! ### The outcomes of an access -/

section Outcomes

variable {i : Instr} {s : State} {addr : Word} {n : Nat} {v : Word}

/-- A load's one access has the two outcomes of R282 and R283. -/
theorem loadOutcome_of_loadDelayed {rt : Reg} {value : Word → Prop} (hi : exec i s = loadDelayed rt addr n v s)
    (hv : value v) : LoadOutcome i s rt addr n value := by
  rw [LoadOutcome, hi]
  refine ⟨fun hb => ?_, busAccess_of_fails⟩
  obtain ⟨t, ht, heffect, hdraws⟩ := loadDelayed_effect rt v hb
  exact ⟨t, v, ht, heffect, hv, hdraws⟩

/-- A store's one access has the two outcomes of R64 and R283. -/
theorem storeOutcome_of_storeAccess (hi : exec i s = storeAccess addr n v s) (hn : n ≤ 4) :
    StoreOutcome i s addr n v := by
  rw [StoreOutcome, hi]
  exact ⟨fun hb => storeAccess_effect v hb (by omega), busAccess_of_fails⟩

variable {aligned : Bool} {P : Prop} (hP : aligned = true ↔ P)
include hP

/-- A load that must be aligned accesses the bus where it is and raises the address error where it is not (R281). -/
theorem alignedLoad_outcomes {rt : Reg} {value : Word → Prop} (hi : exec i s = alignedLoad aligned rt addr n v s)
    (hv : value v) :
    (P → LoadOutcome i s rt addr n value) ∧ (¬ P → RaisesAddressError i s Config.excAdel addr) := by
  refine ⟨fun h => ?_, fun h => ?_⟩
  · rw [hP.2 h] at hi
    exact loadOutcome_of_loadDelayed hi hv
  · rw [Bool.eq_false_iff.2 (mt hP.1 h)] at hi
    exact ⟨_, hi, raiseAddressError_effect .addressErrorLoad addr s⟩

/-- The same for a store (R281). -/
theorem alignedStore_outcomes (hi : exec i s = alignedStore aligned addr n v s) (hn : n ≤ 4) :
    (P → StoreOutcome i s addr n v) ∧ (¬ P → RaisesAddressError i s Config.excAdes addr) := by
  refine ⟨fun h => ?_, fun h => ?_⟩
  · rw [hP.2 h] at hi
    exact storeOutcome_of_storeAccess hi hn
  · rw [Bool.eq_false_iff.2 (mt hP.1 h)] at hi
    exact ⟨_, hi, raiseAddressError_effect .addressErrorStore addr s⟩

end Outcomes

/-! ### Values and bytes -/

/-- The sign extension of `n` bits has their two's-complement value (R9, R285, R287). -/
theorem signExtend_toInt_eq_signedValue {n : Nat} (hpos : 0 < n) (hn : n ≤ 32) (x : BitVec n) :
    (x.signExtend 32).toInt = signedValue n x.toNat := by
  have hpow : 2 ^ n = 2 * 2 ^ (n - 1) := (mul_pow_sub_one hpos.ne' 2).symm
  have hhalf : 2 * x.toNat < 2 ^ n ↔ x.toNat < 2 ^ (n - 1) := by omega
  rw [BitVec.toInt_signExtend_of_le hn, BitVec.toInt_eq_toNat_cond, signedValue, if_congr hhalf rfl rfl]
  push_cast
  rfl

/-- A word whose bytes are those of memory from `p` up is the little-endian word at `p` (R63). -/
theorem toNat_eq_littleEndian_of_bytes {s : State} {p v : Word}
    (h : ∀ j < 4, (v.extractLsb' (8 * j) 8).toNat = byteAt s p j) : v.toNat = littleEndian s p 4 := by
  simp only [littleEndian, ← h 0 (by decide), ← h 1 (by decide), ← h 2 (by decide), ← h 3 (by decide),
    BitVec.extractLsb'_toNat, Nat.shiftRight_eq_div_pow]
  omega

theorem memRead32_byte_toNat (s : State) (addr : Word) {j : Nat} (h : j < 4) :
    ((memRead32 s.mem addr).extractLsb' (8 * j) 8).toNat = byteAt s addr j := by
  rw [memRead32_byte s addr j h, byteAt]

/-! ### The aligned word and the lane in it -/

theorem byteLane_lt (addr : Word) : byteLane addr < 4 := by
  rw [byteLane_eq]; omega

theorem wordAddress_add_byteLane (addr : Word) : wordAddress addr + BitVec.ofNat 32 (byteLane addr) = addr := by
  apply BitVec.eq_of_toNat_eq
  rw [BitVec.toNat_add, wordAddress, wordAddress_toNat, byteLane_eq, BitVec.toNat_ofNat]
  omega

/-- Counted from the aligned word's start, byte `j` from `addr` lies `j` bytes above the lane. -/
theorem wordAddress_add_lane (addr : Word) (j : Nat) :
    wordAddress addr + BitVec.ofNat 32 (byteLane addr + j) = addr + BitVec.ofNat 32 j := by
  rw [BitVec.ofNat_add, ← BitVec.add_assoc, wordAddress_add_byteLane]

/-- The aligned word of `p + 3`, up to `p + 3` itself, holds the last bytes of the four at `p` (R290). -/
theorem wordAddress_add_three (p : Word) {j : Nat} (h : 3 - byteLane (p + 3#32) ≤ j) :
    wordAddress (p + 3#32) + BitVec.ofNat 32 (j - (3 - byteLane (p + 3#32))) = p + BitVec.ofNat 32 j := by
  have hlane := byteLane_lt (p + 3#32)
  have hsum : byteLane (p + 3#32) + j = j - (3 - byteLane (p + 3#32)) + 3 := by omega
  have hshift := wordAddress_add_lane (p + 3#32) j
  rw [hsum, BitVec.ofNat_add, ← add_assoc, add_right_comm p] at hshift
  exact add_right_cancel hshift

/-- Between them the lanes of `p` and `p + 3` leave no byte of the four out: those that the aligned word of `p` does not
hold are in that of `p + 3` (R290). -/
theorem byteLane_pair_covers {p : Word} {j : Nat} (h : 4 - byteLane p ≤ j) (hj : j < 4) :
    3 - byteLane (p + 3#32) ≤ j := by
  rw [byteLane_eq] at h ⊢
  rw [BitVec.toNat_add]
  simp only [BitVec.toNat_ofNat]
  omega

/-! ### The instructions -/

section Instructions

variable {rt base : Reg} {offset : BitVec 16} {s : State} {addr : Word}
  (haddr : effectiveAddress s base offset = addr)
include haddr

theorem exec_lb : exec (.lb rt base offset) s =
    loadDelayed rt addr 1 ((memRead8 s.mem addr).signExtend 32) s := by
  subst haddr; rfl

theorem exec_lbu : exec (.lbu rt base offset) s =
    loadDelayed rt addr 1 ((memRead8 s.mem addr).setWidth 32) s := by
  subst haddr; rfl

theorem exec_lh : exec (.lh rt base offset) s =
    alignedLoad (halfwordAligned addr) rt addr 2 ((memRead16 s.mem addr).signExtend 32) s := by
  subst haddr; rfl

theorem exec_lhu : exec (.lhu rt base offset) s =
    alignedLoad (halfwordAligned addr) rt addr 2 ((memRead16 s.mem addr).setWidth 32) s := by
  subst haddr; rfl

theorem exec_lw : exec (.lw rt base offset) s =
    alignedLoad (wordAligned addr) rt addr 4 (memRead32 s.mem addr) s := by
  subst haddr; rfl

theorem exec_lwl : exec (.lwl rt base offset) s =
    loadDelayed rt (wordAddress addr) 4
      (mergeLeft (mergeOperand s rt) (memRead32 s.mem (wordAddress addr)) (byteLane addr)) s := by
  subst haddr; rfl

theorem exec_lwr : exec (.lwr rt base offset) s =
    loadDelayed rt (wordAddress addr) 4
      (mergeRight (mergeOperand s rt) (memRead32 s.mem (wordAddress addr)) (byteLane addr)) s := by
  subst haddr; rfl

theorem exec_sb : exec (.sb rt base offset) s =
    storeAccess addr 1 (readReg s rt) s := by
  subst haddr; rfl

theorem exec_sh : exec (.sh rt base offset) s =
    alignedStore (halfwordAligned addr) addr 2 (readReg s rt) s := by
  subst haddr; rfl

theorem exec_sw : exec (.sw rt base offset) s =
    alignedStore (wordAligned addr) addr 4 (readReg s rt) s := by
  subst haddr; rfl

theorem exec_swl : exec (.swl rt base offset) s =
    storeAccess (wordAddress addr) (byteLane addr + 1) (readReg s rt >>> (8 * (3 - byteLane addr))) s := by
  subst haddr; rfl

theorem exec_swr : exec (.swr rt base offset) s =
    storeAccess addr (4 - byteLane addr) (readReg s rt) s := by
  subst haddr; rfl

/-! ### The unaligned forms, by lane -/

/-- LWL reads the aligned word and puts its bytes up to `addr` over the high end of the retired register (R291, R292). -/
theorem lwl_outcome : LoadOutcome (.lwl rt base offset) s rt (wordAddress addr) 4 fun v =>
    rt ≠ 0#5 → ∀ j < 4, (v.extractLsb' (8 * j) 8).toNat =
      if 3 - byteLane addr ≤ j then byteAt s (wordAddress addr) (j - (3 - byteLane addr))
      else ((retiredReg s rt).extractLsb' (8 * j) 8).toNat := by
  refine loadOutcome_of_loadDelayed (exec_lwl haddr) fun hrt j hj => ?_
  rw [mergeLeft_byte _ _ _ _ (byteLane_lt addr) hj, mergeOperand_eq s hrt]
  split
  · exact memRead32_byte_toNat s _ (by omega)
  · rfl

/-- LWR reads the aligned word and puts its bytes from `addr` up over the low end of the retired register (R291, R293). -/
theorem lwr_outcome : LoadOutcome (.lwr rt base offset) s rt (wordAddress addr) 4 fun v =>
    rt ≠ 0#5 → ∀ j < 4, (v.extractLsb' (8 * j) 8).toNat =
      if j ≤ 3 - byteLane addr then byteAt s (wordAddress addr) (byteLane addr + j)
      else ((retiredReg s rt).extractLsb' (8 * j) 8).toNat := by
  have hlane := byteLane_lt addr
  refine loadOutcome_of_loadDelayed (exec_lwr haddr) fun hrt j hj => ?_
  rw [mergeRight_byte _ _ _ _ hlane hj, mergeOperand_eq s hrt]
  split
  · exact memRead32_byte_toNat s _ (by omega)
  · rfl

/-- SWL stores the register shifted right, so that the low bytes stored are its high-order part (R297). -/
theorem swl_outcome : StoreOutcome (.swl rt base offset) s (wordAddress addr) (byteLane addr + 1)
    (readReg s rt >>> (8 * (3 - byteLane addr))) :=
  storeOutcome_of_storeAccess (exec_swl haddr) (byteLane_lt addr)

/-- SWR stores from `addr` to the end of the aligned word (R298). -/
theorem swr_outcome : StoreOutcome (.swr rt base offset) s addr (4 - byteLane addr) (readReg s rt) :=
  storeOutcome_of_storeAccess (exec_swr haddr) (Nat.sub_le _ _)

end Instructions

/-! ### Two accesses back to back -/

theorem effectiveAddress_add_three {s : State} {base : Reg} {high low : BitVec 16} (h : high.toInt = low.toInt + 3) :
    effectiveAddress s base high = effectiveAddress s base low + 3#32 := by
  rw [effectiveAddress_eq, effectiveAddress_eq, h, ← add_assoc, BitVec.ofInt_add]
  rfl

/-- A register the retiring load does not name keeps its value (R138). -/
theorem retiredReg_of_ne {s : State} {r : Reg} (h : ∀ q, s.pendingLoad = some q → q.reg ≠ r) :
    retiredReg s r = readReg s r := by
  unfold retiredReg
  split
  · next q hq => exact if_neg fun hr => h q hq hr.1
  · rfl

/-- The second of two instructions reads `r` as the first did, when the first wrote no register and no load to `r` retired
in it. -/
theorem readReg_of_retired {s t : State} {r : Reg} (h : RegistersRetired s t)
    (hr : ∀ q, s.pendingLoad = some q → q.reg ≠ r) : readReg t r = readReg s r :=
  (h r).trans (retiredReg_of_ne hr)

theorem effectiveAddress_congr {s t : State} {base : Reg} (h : readReg t base = readReg s base) (offset : BitVec 16) :
    effectiveAddress t base offset = effectiveAddress s base offset := by
  rw [effectiveAddress, effectiveAddress, h]

theorem busAnswers_congr {s t : State} (h : t.busFailures = s.busFailures) {kind : AccessKind} {addr : Word} {n : Nat}
    (hb : BusAnswers s kind addr n) : BusAnswers t kind addr n := by
  rwa [BusAnswers, h]

theorem byteAt_congr {s t : State} (h : StorageKept s t) (addr : Word) (k : Nat) : byteAt t addr k = byteAt s addr k :=
  congrArg BitVec.toNat (h.memory _)

theorem byteAt_wordAddress_lane (s : State) (p : Word) (j : Nat) :
    byteAt s (wordAddress p) (byteLane p + j) = byteAt s p j := by
  rw [byteAt, wordAddress_add_lane, byteAt]

theorem byteAt_wordAddress_add_three (s : State) {p : Word} {j : Nat} (h : 3 - byteLane (p + 3#32) ≤ j) :
    byteAt s (wordAddress (p + 3#32)) (j - (3 - byteLane (p + 3#32))) = byteAt s p j := by
  rw [byteAt, wordAddress_add_three p h, byteAt]

/-- Byte `j - d` of a word shifted right by `d` bytes is its byte `j`. -/
theorem extractLsb'_ushiftRight_bytes (x : Word) {d j : Nat} (h : d ≤ j) :
    (x >>> (8 * d)).extractLsb' (8 * (j - d)) 8 = x.extractLsb' (8 * j) 8 := by
  have hsum : 8 * d + 8 * (j - d) = 8 * j := by omega
  apply BitVec.eq_of_toNat_eq
  rw [BitVec.extractLsb'_toNat, BitVec.toNat_ushiftRight, ← Nat.shiftRight_add, hsum, ← BitVec.extractLsb'_toNat]

/-- The two stores of the unaligned pair leave `x` at `p` and every other byte as it was: the second stores the bytes up
to the end of the aligned word of `p`, the first those after it, and both stay within the four (R297, R298). -/
theorem storePair_memory {s t u : State} {p x : Word}
    (hhigh : StoreEffect s t (wordAddress (p + 3#32)) (byteLane (p + 3#32) + 1) (x >>> (8 * (3 - byteLane (p + 3#32)))))
    (hlow : StoreEffect t u p (4 - byteLane p) x) :
    (∀ j < 4, readByte u.mem (p + BitVec.ofNat 32 j).toNat = x.extractLsb' (8 * j) 8) ∧
    ∀ a, (∀ j < 4, a ≠ (p + BitVec.ofNat 32 j).toNat) → readByte u.mem a = readByte s.mem a := by
  have hlane := byteLane_lt (p + 3#32)
  refine ⟨fun j hj => ?_, fun a ha => ?_⟩
  · by_cases hj' : j < 4 - byteLane p
    · exact hlow.stored j hj'
    · have hgap := byteLane_pair_covers (Nat.le_of_not_lt hj') hj
      have houtside : ∀ k < 4 - byteLane p, (p + BitVec.ofNat 32 j).toNat ≠ (p + BitVec.ofNat 32 k).toNat :=
        fun k hk e => hj' (byteAddress_inj (addr := p) (j := j) (k := k) (by omega) (by omega) e ▸ hk)
      rw [hlow.memory _ houtside, ← wordAddress_add_three p hgap, hhigh.stored _ (by omega),
        extractLsb'_ushiftRight_bytes x hgap]
  · rw [hlow.memory a fun k hk => ha k (by omega), hhigh.memory a fun k hk => ?_]
    have hplace := wordAddress_add_three p (Nat.le_add_left (3 - byteLane (p + 3#32)) k)
    rw [Nat.add_sub_cancel] at hplace
    rw [hplace]
    exact ha _ (by omega)

end Sys2Proof.Machine

namespace Sys2Proof.Proofs

open Sys2Proof.Machine Sys2Proof.Claims Sys2Proof.Laws

/-- Settles O30: the two byte loads are one load access each, the other three one where they are aligned; the values
are the reads of 1, 2 and 4 bytes, extended. -/
theorem loadsDeliverTheirValueLate : Obligations.LoadsDeliverTheirValueLate := by
  refine ⟨decode_lb, decode_lbu, decode_lh, decode_lhu, decode_lw, fun rt base offset s addr h => ?_⟩
  have haddr := (effectiveAddress_eq s base offset).trans h.symm
  have hbyte := memRead8_toNat s addr
  have hhalf := memRead16_toNat s addr
  obtain ⟨lh, lhMisaligned⟩ := alignedLoad_outcomes (halfwordAligned_iff addr) (exec_lh (rt := rt) haddr)
    (value := fun v => v.toInt = signedValue 16 (littleEndian s addr 2))
    (hhalf ▸ signExtend_toInt_eq_signedValue (by decide) (by decide) _)
  obtain ⟨lhu, lhuMisaligned⟩ := alignedLoad_outcomes (halfwordAligned_iff addr) (exec_lhu (rt := rt) haddr)
    (value := fun v => v.toNat = littleEndian s addr 2) ((BitVec.toNat_setWidth_of_le (by decide)).trans hhalf)
  obtain ⟨lw, lwMisaligned⟩ := alignedLoad_outcomes (wordAligned_iff addr) (exec_lw (rt := rt) haddr)
    (value := fun v => v.toNat = littleEndian s addr 4) (memRead32_toNat s addr)
  exact ⟨loadOutcome_of_loadDelayed (exec_lb haddr)
      (hbyte ▸ signExtend_toInt_eq_signedValue (by decide) (by decide) _),
    loadOutcome_of_loadDelayed (exec_lbu haddr) ((BitVec.toNat_setWidth_of_le (by decide)).trans hbyte),
    fun h => ⟨lh h, lhu h⟩, lw, fun h => ⟨lhMisaligned h, lhuMisaligned h⟩, lwMisaligned⟩

/-- Settles O31: the aligned word and the lane are the model's own. -/
theorem unalignedLoadsMergeBytes : Obligations.UnalignedLoadsMergeBytes := by
  refine ⟨decode_lwl, decode_lwr, fun rt base offset s addr aligned k h hk haligned => ?_⟩
  have haddr := (effectiveAddress_eq s base offset).trans h.symm
  obtain rfl := wordAddress_of_toNat haligned
  obtain rfl := hk.trans (byteLane_eq addr).symm
  exact ⟨lwl_outcome haddr, lwr_outcome haddr⟩

/-- Settles O32: LWR merges into the word LWL has just put into the holder, which retires in LWR's own step; each byte of
the four comes from the aligned word of `p` where that holds it, and otherwise from the aligned word of `p + 3`. -/
theorem unalignedLoadPairLoadsTheWord : Obligations.UnalignedLoadPairLoadsTheWord := by
  intro rt base high low s p hp hhigh hbase hbusLow hbusHigh
  have hlowAddr := (effectiveAddress_eq s base low).trans hp.symm
  have hhighAddr : effectiveAddress s base high = p + 3#32 := by rw [effectiveAddress_add_three hhigh, hlowAddr]
  obtain ⟨t, v, ht, hfirst, hv, -⟩ := (lwl_outcome (rt := rt) hhighAddr).1 hbusHigh
  have hlowAddr' : effectiveAddress t base low = p :=
    (effectiveAddress_congr (readReg_of_retired hfirst.registers hbase) low).trans hlowAddr
  obtain ⟨u, w, hu, hsecond, hw, -⟩ :=
    (lwr_outcome (rt := rt) hlowAddr').1 (busAnswers_congr hfirst.environment.busFailures hbusLow)
  refine ⟨t, u, w, ht, hu, hsecond.holder, fun hrt => toNat_eq_littleEndian_of_bytes fun j hj => ?_⟩
  rw [hw hrt j hj]
  split
  · rw [byteAt_wordAddress_lane, byteAt_congr hfirst.storage]
  · have hgap := byteLane_pair_covers (p := p) (j := j) (by omega) hj
    have hheld := hfirst.holder.trans (if_neg hrt)
    rw [retiredReg_of_some hheld hrt, hv hrt j hj, if_pos hgap, byteAt_wordAddress_add_three s hgap]

/-- Settles O33: SB is one store access, SH and SW one where they are aligned. -/
theorem storesWriteTheirBytes : Obligations.StoresWriteTheirBytes := by
  refine ⟨decode_sb, decode_sh, decode_sw, fun rt base offset s addr h => ?_⟩
  have haddr := (effectiveAddress_eq s base offset).trans h.symm
  obtain ⟨sh, shMisaligned⟩ :=
    alignedStore_outcomes (halfwordAligned_iff addr) (exec_sh (rt := rt) haddr) (by decide)
  obtain ⟨sw, swMisaligned⟩ := alignedStore_outcomes (wordAligned_iff addr) (exec_sw (rt := rt) haddr) (by decide)
  exact ⟨storeOutcome_of_storeAccess (exec_sb haddr) (by decide), sh, sw, shMisaligned, swMisaligned⟩

/-- Settles O34: the aligned word and the lane are the model's own, and the high-order part is the register shifted
right. -/
theorem unalignedStoresWriteTheirBytes : Obligations.UnalignedStoresWriteTheirBytes := by
  refine ⟨decode_swl, decode_swr, fun rt base offset s addr aligned high k h hk haligned hhigh => ?_⟩
  have haddr := (effectiveAddress_eq s base offset).trans h.symm
  obtain rfl := wordAddress_of_toNat haligned
  obtain rfl := hk.trans (byteLane_eq addr).symm
  obtain rfl := BitVec.eq_of_toNat_eq (hhigh.trans (ushiftRight_toNat _ _).symm)
  exact ⟨swl_outcome haddr, swr_outcome haddr⟩

/-- Settles O35: SWL leaves base and rt as they were, so SWR stores the rest of the same word. -/
theorem unalignedStorePairStoresTheWord : Obligations.UnalignedStorePairStoresTheWord := by
  intro rt base high low s p hp hhigh hpending hbusHigh hbusLow
  have hlowAddr := (effectiveAddress_eq s base low).trans hp.symm
  have hhighAddr : effectiveAddress s base high = p + 3#32 := by rw [effectiveAddress_add_three hhigh, hlowAddr]
  rw [← byteLane_eq] at hbusHigh hbusLow
  obtain ⟨t, ht, hfirst⟩ := (swl_outcome (rt := rt) hhighAddr).1 hbusHigh
  have hbase := readReg_of_retired hfirst.registers fun q hq => (hpending q hq).1
  have hrt := readReg_of_retired hfirst.registers fun q hq => (hpending q hq).2
  obtain ⟨u, hu, hsecond⟩ := (swr_outcome (rt := rt) ((effectiveAddress_congr hbase low).trans hlowAddr)).1
    (busAnswers_congr hfirst.environment.busFailures hbusLow)
  rw [hrt] at hsecond
  obtain ⟨hstored, hother⟩ := storePair_memory hfirst hsecond
  refine ⟨t, u, ht, hu, (toNat_eq_littleEndian_of_bytes fun j hj => ?_).symm, hother⟩
  rw [byteAt, hstored j hj]

end Sys2Proof.Proofs
end

section
/-! The obligations of spec/48_system.md. For every instruction `exec_control` says once what it does to the COP0 registers
and to `pc`: it raises an exception, leaves them alone, or is MTC0 or RFE. -/

namespace Sys2Proof.Machine

open Sys2Proof.Claims

/-! ### What an instruction does to the COP0 registers -/

/-- The ways an instruction can treat the COP0 registers and `pc` (R35 to R39, R342). -/
inductive ControlShape (i : Instr) (s t : State) : Prop where
  /-- the overflow, system-call and breakpoint exceptions -/
  | exception (c : ExcCause) (hc : c = .overflow ∨ c = .syscall ∨ c = .breakpoint)
      (h : ExceptionEffect s t (excCode c) s.pc s.inBranchDelay s.badVaddr)
  /-- the address error of a data access -/
  | addressError (c : ExcCause) (addr : Word) (hc : c = .addressErrorLoad ∨ c = .addressErrorStore)
      (h : ExceptionEffect s t (excCode c) s.pc s.inBranchDelay addr)
  /-- every instruction that completes but MTC0 and RFE -/
  | kept (h : ControlKept s t) (hpc : t.pc = s.nextPc)
  /-- MTC0 -/
  | mtc0 (rt : Reg) (rd : Nat) (hi : i = .mtc0 rt rd) (ht : t = writeCop0 rd (readReg s rt) (advance s))
  /-- RFE -/
  | rfe (hi : i = .rfe) (ht : t = returnFromException (advance s))

theorem exec_control {i : Instr} {s t : State} (h : exec i s = .next t) : ControlShape i s t := by
  cases exec_cases h with
  | exception c hc => exact .exception c hc (raiseException_effect c s)
  | addressError c addr hc => exact .addressError c addr hc (raiseAddressError_effect c addr s)
  | mtc0 rt rd hi => exact .mtc0 rt rd hi rfl
  | rfe hi => exact .rfe hi rfl
  | write | hiLo | fallThrough | linkOnly | transfer | transferLink | delayed | store =>
    exact .kept ⟨by simp, by simp, by simp, by simp, by simp⟩ (by simp)

/-! ### Who leaves privileged mode (R360) -/

/-- Exception entry pushes a privileged mode (R336). -/
theorem exceptionEffect_privileged {s t : State} {code : BitVec 5} {addr bad : Word} {bd : Bool}
    (h : ExceptionEffect s t code addr bd bad) : t.status.getLsbD 1 = false :=
  h.modePushed 1 (by decide)

theorem exec_leaves_privileged {i : Instr} {s t : State} (h : exec i s = .next t) (hs : s.status.getLsbD 1 = false)
    (ht : t.status.getLsbD 1 = true) : i = .rfe ∨ ∃ rt, i = .mtc0 rt 12 := by
  cases exec_control h with
  | exception _ _ he | addressError _ _ _ he => rw [exceptionEffect_privileged he] at ht; cases ht
  | kept hk => rw [hk.status, hs] at ht; cases ht
  | rfe hi => exact .inl hi
  | mtc0 rt rd hi htarget =>
    refine .inr ⟨rt, ?_⟩
    by_cases hrd : rd = 12
    · rw [hi, hrd]
    · rw [htarget, writeCop0_status, if_neg hrd, advance_status, hs] at ht; cases ht

/-! ### The instructions -/

/-- A draw of a free value is no part of a delayed write's effect (R40). -/
theorem delayedEffect_withFreeCount {s t : State} {rt : Reg} {v : Word} (h : DelayedEffect s t rt v) (n : Nat) :
    DelayedEffect s { t with freeCount := n } rt v where
  registers := h.registers
  holder := h.holder
  hiLo := ⟨h.hiLo.hi, h.hiLo.lo⟩
  control := ⟨h.control.status, h.control.cause, h.control.epc, h.control.badVaddr, h.control.prid⟩
  storage := ⟨h.storage.memory, h.storage.cache⟩
  environment := ⟨h.environment.busFailures, h.environment.busPolicy, h.environment.irqInput⟩
  flow := ⟨h.flow.pc, h.flow.nextPc, h.flow.slot⟩

/-- MFC0 completes, and what it delivers is the content of the register if there is one (R312). -/
theorem mfc0_effect (rt : Reg) (rd : Nat) (s : State) :
    ∃ t v, exec (.mfc0 rt rd) s = .next t ∧ DelayedEffect s t rt v ∧ ∀ u, cop0Register s rd = some u → v = u := by
  simp only [exec, execMfc0]
  cases hu : cop0Register s rd with
  | some u => exact ⟨_, u, rfl, delayedEffect_writeDelayed rt u s, fun _ h => Option.some.inj h⟩
  | none =>
    exact ⟨_, Config.freeValue s.freeCount, rfl, delayedEffect_withFreeCount (delayedEffect_writeDelayed rt _ s) _,
      fun _ h => nomatch h⟩

theorem exec_mtc0 (rt : Reg) (rd : Nat) (s : State) :
    exec (.mtc0 rt rd) s = .next (writeCop0 rd (readReg s rt) (advance s)) := rfl

theorem exec_rfe (s : State) : exec .rfe s = .next (returnFromException (advance s)) := rfl

/-- MTC0 to Cause reaches bits 9 and 8 alone (R36, R313). -/
theorem writeCop0_cause_getLsbD (rd : Nat) (b : Word) (s : State) (k : Nat) :
    (writeCop0 rd b s).cause.getLsbD k =
      if rd = 13 ∧ (k = 8 ∨ k = 9) then b.getLsbD k else s.cause.getLsbD k := by
  rw [writeCop0_cause]
  by_cases hrd : rd = 13
  · simp only [hrd, if_true, true_and, getLsbD_softwareInterrupts]
  · simp only [hrd, if_false, false_and]

/-- RFE's pop, bit by bit (R314). -/
theorem rfe_status_getLsbD (s : State) (k : Nat) : (returnFromException (advance s)).status.getLsbD k =
    if k < 4 then s.status.getLsbD (k + 2) else s.status.getLsbD k := by
  rw [returnFromException_status, advance_status, getLsbD_popMode]

end Sys2Proof.Machine

namespace Sys2Proof.Proofs

open Sys2Proof.Machine Sys2Proof.Claims Sys2Proof.Laws

/-- Settles O48: an interrupt, a misaligned fetch and a reserved word enter an exception, which pushes a privileged mode;
so the step ran an instruction, and of these only RFE and MTC0 to Status can set the bit. -/
theorem onlyRfeAndMtc0LeavePrivilegedMode : Obligations.OnlyRfeAndMtc0LeavePrivilegedMode := by
  intro s t h hs ht
  obtain ⟨-, rfl⟩ | ⟨-, -, rfl⟩ | ⟨-, -, w, hf, ⟨-, rfl⟩ | ⟨i, hi, hx⟩⟩ := step_cases h
  · rw [exceptionEffect_privileged (takeInterrupt_effect _)] at ht; cases ht
  · rw [exceptionEffect_privileged (takeFetchAddressError_effect _)] at ht; cases ht
  · rw [exceptionEffect_privileged (raiseException_effect _ _)] at ht; cases ht
  · refine ⟨w, hf, ?_⟩
    obtain rfl | ⟨rt, rfl⟩ := exec_leaves_privileged (s := afterFetch s w) hx hs ht
    · exact .inl hi
    · exact .inr ⟨rt, hi⟩

/-- Settles O41: both raise their exception whatever the code field. -/
theorem syscallAndBreakEnterTheHandler : Obligations.SyscallAndBreakEnterTheHandler :=
  ⟨decode_syscall, decode_brk, fun _ s =>
    ⟨⟨_, rfl, raiseException_effect .syscall s⟩, ⟨_, rfl, raiseException_effect .breakpoint s⟩⟩⟩

/-- Settles O42: the five numbers name a register of the block, whose content MFC0 delivers. -/
theorem mfc0DeliversTheControlRegister : Obligations.Mfc0DeliversTheControlRegister := by
  refine ⟨decode_mfc0, fun rt rd s => ?_⟩
  obtain ⟨t, v, ht, heffect, hv⟩ := mfc0_effect rt rd s
  refine ⟨t, v, ht, heffect, ?_, ?_, ?_, ?_, ?_⟩ <;> rintro rfl <;> exact hv _ rfl

/-- Settles O43: `writeCop0` acts on the effect-phase state. -/
theorem mtc0WritesStatusAndSoftwareInterrupts : Obligations.Mtc0WritesStatusAndSoftwareInterrupts := by
  refine ⟨decode_mtc0, fun rt rd s => ⟨_, exec_mtc0 rt rd s, ?_⟩⟩
  refine ⟨by simp, fun k => by rw [writeCop0_cause_getLsbD, advance_cause], by simp, by simp, by simp, ?_⟩
  exact ⟨registersRetired_of_gpr (by simp), by simp, ⟨by simp, by simp⟩, storageKept_of_eq (by simp) (by simp),
    ⟨by simp, by simp, by simp⟩, by simp, ⟨by simp, by simp, by simp⟩⟩

/-- Settles O44: the mode pop acts on the effect-phase state. -/
theorem rfePopsTheModeStack : Obligations.RfePopsTheModeStack := by
  refine ⟨decode_rfe, fun s => ⟨_, exec_rfe s, rfe_status_getLsbD s, by simp, by simp, by simp, by simp, ?_⟩⟩
  exact ⟨registersRetired_of_gpr (by simp), by simp, ⟨by simp, by simp⟩, storageKept_of_eq (by simp) (by simp),
    ⟨by simp, by simp, by simp⟩, by simp, ⟨by simp, by simp, by simp⟩⟩

/-- Settles O46: below bit 4 the pop reads what the push has put two bits higher; from bit 6 up neither writes. -/
theorem rfeUndoesTheModePush : Obligations.RfeUndoesTheModePush := by
  intro s t u code addr bad bd hentry hrfe k hk
  obtain rfl := Host.Outcome.next.inj ((exec_rfe t).symm.trans hrfe)
  rw [rfe_status_getLsbD]
  by_cases hlow : k < 4
  · rw [if_pos hlow, hentry.modePushed (k + 2) (by omega), if_neg (by omega), Nat.add_sub_cancel]
  · rw [if_neg hlow, hentry.statusRest k (by omega)]

end Sys2Proof.Proofs
end

section
/-! The obligations of spec/60_exceptions.md: interrupt delivery, exception entry and return, the dichotomy of completed and
precise instructions, and that no rule reads the privilege bit. The last is an argument over two runs: every shared
operation commutes with a change of Status, exception entry as long as bit 22, which selects the vector, is kept. -/

namespace Sys2Proof.Machine

open Sys2Proof.Claims

/-! ### Cause and the interrupt line over a step -/

/-- An instruction changes Cause in the code field, the branch-delay flag and the software-interrupt bits alone (R36). -/
theorem exec_cause_kept {i : Instr} {s t : State} (h : exec i s = .next t) {k : Nat} (hcode : ¬ (2 ≤ k ∧ k ≤ 6))
    (hsoft : ¬ (k = 8 ∨ k = 9)) (hbd : k ≠ 31) : t.cause.getLsbD k = s.cause.getLsbD k := by
  cases exec_control h with
  | exception _ _ he | addressError _ _ _ he => exact he.causeRest k hcode hbd
  | kept hk => rw [hk.cause]
  | mtc0 rt rd _ ht => rw [ht, writeCop0_cause_getLsbD, if_neg fun hw => hsoft hw.2, advance_cause]
  | rfe _ ht => rw [ht, returnFromException_cause, advance_cause]

/-- No instruction reads or writes the environment's side of the line (R344). -/
theorem exec_irqInput {i : Instr} {s t : State} (h : exec i s = .next t) : t.irqInput = s.irqInput := by
  cases exec_cases h with
  | exception c => exact (raiseException_effect c s).environment.irqInput
  | addressError c addr => exact (raiseAddressError_effect c addr s).environment.irqInput
  | write | hiLo | fallThrough | linkOnly | transfer | transferLink | delayed | store | mtc0 | rfe => simp

/-- After the sampling a step changes Cause as its instruction or its exception entry does (R36, R345). -/
theorem step_cause_kept {s t : State} (h : step s = .next t) {k : Nat} (hcode : ¬ (2 ≤ k ∧ k ≤ 6))
    (hsoft : ¬ (k = 8 ∨ k = 9)) (hbd : k ≠ 31) : t.cause.getLsbD k = (sampleIrq s).cause.getLsbD k := by
  obtain ⟨-, rfl⟩ | ⟨-, -, rfl⟩ | ⟨-, -, w, -, ⟨-, rfl⟩ | ⟨i, -, hx⟩⟩ := step_cases h
  · exact (takeInterrupt_effect _).causeRest k hcode hbd
  · exact (takeFetchAddressError_effect _).causeRest k hcode hbd
  · exact (raiseException_effect _ (afterFetch s w)).causeRest k hcode hbd
  · exact exec_cause_kept (s := afterFetch s w) hx hcode hsoft hbd

theorem step_irqInput {s t : State} (h : step s = .next t) : t.irqInput = s.irqInput.tail := by
  obtain ⟨-, rfl⟩ | ⟨-, -, rfl⟩ | ⟨-, -, w, -, ⟨-, rfl⟩ | ⟨i, -, hx⟩⟩ := step_cases h
  · exact (takeInterrupt_effect _).environment.irqInput
  · exact (takeFetchAddressError_effect _).environment.irqInput
  · exact (raiseException_effect _ (afterFetch s w)).environment.irqInput
  · exact exec_irqInput (s := afterFetch s w) hx

/-! ### The host's inject (R349) -/

theorem getLsbD_mergePending (m : BitVec 8) (cause : Word) (k : Nat) :
    (mergePending m cause).getLsbD k =
      if 8 ≤ k ∧ k ≤ 15 then cause.getLsbD k || m.getLsbD (k - 8) else cause.getLsbD k := by
  simp only [mergePending, BitVec.getLsbD_or, BitVec.getLsbD_shiftLeft, BitVec.getLsbD_setWidth]
  by_cases hk : 8 ≤ k ∧ k ≤ 15
  · simp [hk, show k < 32 by omega, show ¬ k < 8 by omega, show k - 8 < 32 by omega]
  · have hm : k < 8 ∨ m.getLsbD (k - 8) = false :=
      (Nat.lt_or_ge k 8).imp_right fun h => BitVec.getLsbD_of_ge m _ (by omega)
    rw [if_neg hk]
    rcases hm with hm | hm <;> simp [hm]

/-- The merged Cause is the one whose field is the OR and whose other bits are kept. -/
theorem eq_mergePending {m : BitVec 8} {cause merged : Word}
    (hfield : merged.extractLsb' 8 8 = cause.extractLsb' 8 8 ||| m)
    (hrest : ∀ k, ¬ (8 ≤ k ∧ k ≤ 15) → merged.getLsbD k = cause.getLsbD k) : merged = mergePending m cause := by
  refine BitVec.eq_of_getLsbD_eq fun k _ => ?_
  rw [getLsbD_mergePending]
  by_cases hk : 8 ≤ k ∧ k ≤ 15
  · have hbit := congrArg (fun f => f.getLsbD (k - 8)) hfield
    simp only [BitVec.getLsbD_or, BitVec.getLsbD_extractLsb', show k - 8 < 8 by omega, decide_true, Bool.true_and,
      show 8 + (k - 8) = k by omega] at hbit
    rw [if_pos hk, hbit]
  · rw [if_neg hk, hrest k hk]

/-- The state with the mask merged into the pending field. -/
def withPending (m : BitVec 8) (s : State) : State := { s with cause := mergePending m s.cause }

theorem hostInject_eq (m : BitVec 8) (s : State) : hostInject m s =
    if interruptTaken (withPending m s) then takeInterrupt (withPending m s) else withPending m s := rfl

/-- The delivery condition over the bits 8 to 15 (R346). -/
theorem interruptTaken_iff (s : State) : interruptTaken s = true ↔
    s.status.getLsbD 0 = true ∧ ∃ k, 8 ≤ k ∧ k ≤ 15 ∧ s.cause.getLsbD k = true ∧ s.status.getLsbD k = true := by
  rw [interruptTaken, interruptEnabled_iff]
  refine and_congr_right fun _ => ⟨fun ⟨k, hk, h⟩ => ⟨8 + k, by omega, by omega, h⟩, fun ⟨k, hlo, hhi, h⟩ => ?_⟩
  refine ⟨k - 8, by omega, ?_⟩
  rwa [show 8 + (k - 8) = k by omega]

/-! ### Operations under a change of Status -/

/-- The state with another content of Status. -/
def withStatus (v : Word) (s : State) : State := { s with status := v }

section Operations
variable (v : Word) (s : State)

theorem writeReg_withStatus (i : Reg) (x : Word) : writeReg i x (withStatus v s) = withStatus v (writeReg i x s) := by
  unfold writeReg; split <;> rfl

theorem commitRetiring_withStatus : commitRetiring (withStatus v s) = withStatus v (commitRetiring s) := by
  unfold commitRetiring
  rw [show (withStatus v s).pendingLoad = s.pendingLoad from rfl]
  split
  · rfl
  · rw [writeReg_withStatus]; rfl

theorem advance_withStatus : advance (withStatus v s) = withStatus v (advance s) := by
  unfold advance; rw [commitRetiring_withStatus]; rfl

theorem writeDelayed_withStatus (i : Reg) (x : Word) :
    writeDelayed i x (withStatus v s) = withStatus v (writeDelayed i x s) := by
  unfold writeDelayed; rw [commitRetiring_withStatus]; split <;> rfl

theorem linked_withStatus (l : Reg) : writeReg l (linkAddress (advance (withStatus v s))) (advance (withStatus v s)) =
    withStatus v (writeReg l (linkAddress (advance s)) (advance s)) := by
  rw [advance_withStatus, writeReg_withStatus]; rfl

theorem branchIf_withStatus (taken : Bool) (imm : BitVec 16) :
    branchIf taken imm (withStatus v s) = withStatus v (branchIf taken imm s) := by
  cases taken <;> rfl

/-- MTC0 leaves the new content of Status, or to another register the old one. -/
theorem writeCop0_withStatus (rd : Nat) (b : Word) :
    writeCop0 rd b (withStatus v s) = withStatus (if rd = 12 then b else v) (writeCop0 rd b s) := by
  unfold writeCop0; split <;> simp_all [withStatus]

theorem cop0Register_withStatus {rd : Nat} (h : rd ≠ 12) : cop0Register (withStatus v s) rd = cop0Register s rd := by
  unfold cop0Register
  split
  · rfl
  · exact absurd rfl h
  all_goals rfl

end Operations

/-- Exception entry reads of Status, beside the mode stack it pushes, bit 22 alone (R338). -/
theorem enterException_withStatus {v : Word} {s : State} (hv : v.getLsbD 22 = s.status.getLsbD 22) (c : ExcCause)
    (addr : Word) (bd : Bool) :
    enterException c addr bd (withStatus v s) = withStatus (pushMode v) (enterException c addr bd s) := by
  have hvector : excVector (pushMode v) = excVector (pushMode s.status) := by
    rw [excVector_pushMode, excVector_pushMode, hv]
  simp only [enterException, withStatus, hvector]

/-! ### Outcomes under a change of Status -/

/-- Two outcomes that are the same fault, or next states that differ in Status at most. -/
inductive SameUpToStatus : Result → Result → Prop where
  | next (t : State) (v : Word) : SameUpToStatus (.next t) (.next (withStatus v t))
  | fault (f : Fault) : SameUpToStatus (.fault f) (.fault f)

theorem sameUpToStatus_next {t t' : State} {v : Word} (h : t' = withStatus v t) :
    SameUpToStatus (.next t) (.next t') := h ▸ .next t v

theorem sameUpToStatus_outcomes {r r' : Result} (h : SameUpToStatus r r') :
    (∀ t, r = .next t → ∃ t', r' = .next t' ∧ t' = { t with status := t'.status }) ∧
      ∀ f, r = .fault f → r' = .fault f := by
  cases h with
  | next t v => exact ⟨fun _ ht => ⟨_, rfl, by cases ht; rfl⟩, fun _ hf => nomatch hf⟩
  | fault f => exact ⟨fun _ ht => (nomatch ht), fun _ hf => hf⟩

section Outcomes
variable {v : Word} {s : State}

theorem busAccess_sameUpToStatus {r r' : Result} (h : SameUpToStatus r r') (kind : AccessKind) (addr : Word) (n : Nat) :
    SameUpToStatus (busAccess kind addr n s r) (busAccess kind addr n (withStatus v s) r') := by
  unfold busAccess
  rw [show (withStatus v s).busFailures = s.busFailures from rfl]
  split
  · exact .fault _
  · exact h

theorem writeResult_sameUpToStatus (rd : Reg) (x : Word) :
    SameUpToStatus (writeResult rd x s) (writeResult rd x (withStatus v s)) :=
  sameUpToStatus_next (by rw [advance_withStatus, writeReg_withStatus])

theorem writeHiLo_sameUpToStatus (hi lo : Word) :
    SameUpToStatus (writeHiLo hi lo s) (writeHiLo hi lo (withStatus v s)) :=
  sameUpToStatus_next (v := v) (by rw [advance_withStatus]; rfl)

theorem execBranch_sameUpToStatus (taken : Bool) (imm : BitVec 16) :
    SameUpToStatus (execBranch taken imm s) (execBranch taken imm (withStatus v s)) :=
  sameUpToStatus_next (by rw [advance_withStatus, branchIf_withStatus])

theorem execBranchLink_sameUpToStatus (taken : Bool) (imm : BitVec 16) :
    SameUpToStatus (execBranchLink taken imm s) (execBranchLink taken imm (withStatus v s)) :=
  sameUpToStatus_next (by rw [linked_withStatus, branchIf_withStatus])

theorem loadDelayed_sameUpToStatus (rt : Reg) (addr : Word) (n : Nat) (x : Word) :
    SameUpToStatus (loadDelayed rt addr n x s) (loadDelayed rt addr n x (withStatus v s)) :=
  busAccess_sameUpToStatus (sameUpToStatus_next (by rw [advance_withStatus, writeDelayed_withStatus])) _ _ _

theorem storeAccess_sameUpToStatus (addr : Word) (n : Nat) (x : Word) :
    SameUpToStatus (storeAccess addr n x s) (storeAccess addr n x (withStatus v s)) :=
  busAccess_sameUpToStatus (sameUpToStatus_next (v := v) (by rw [advance_withStatus]; rfl)) _ _ _

theorem mfc0_sameUpToStatus (rt : Reg) {rd : Nat} (h : rd ≠ 12) :
    SameUpToStatus (execMfc0 rt rd s) (execMfc0 rt rd (withStatus v s)) := by
  unfold execMfc0
  rw [cop0Register_withStatus v s h, advance_withStatus]
  cases cop0Register s rd with
  | some x => exact sameUpToStatus_next (writeDelayed_withStatus v _ rt x)
  | none => exact sameUpToStatus_next (v := v) (by rw [writeDelayed_withStatus]; rfl)

variable (hv : v.getLsbD 22 = s.status.getLsbD 22)
include hv

theorem raiseException_sameUpToStatus (c : ExcCause) :
    SameUpToStatus (.next (raiseException c s)) (.next (raiseException c (withStatus v s))) := by
  refine sameUpToStatus_next (v := pushMode v) ?_
  rw [raiseException, advance_withStatus]
  exact enterException_withStatus (s := advance s) (by rw [advance_status, hv]) c _ _

theorem raiseAddressError_sameUpToStatus (c : ExcCause) (addr : Word) :
    SameUpToStatus (.next (raiseAddressError c addr s)) (.next (raiseAddressError c addr (withStatus v s))) := by
  refine sameUpToStatus_next (v := pushMode v) ?_
  rw [raiseAddressError, advance_withStatus]
  exact enterException_withStatus (v := v) (s := { advance s with badVaddr := addr }) (by rw [advance_status, hv]) c _ _

theorem writeChecked_sameUpToStatus (rd : Reg) (x : Int) :
    SameUpToStatus (writeChecked rd x s) (writeChecked rd x (withStatus v s)) := by
  unfold writeChecked
  split
  · exact raiseException_sameUpToStatus hv .overflow
  · exact writeResult_sameUpToStatus rd _

theorem alignedLoad_sameUpToStatus (aligned : Bool) (rt : Reg) (addr : Word) (n : Nat) (x : Word) :
    SameUpToStatus (alignedLoad aligned rt addr n x s) (alignedLoad aligned rt addr n x (withStatus v s)) := by
  cases aligned with
  | true => exact loadDelayed_sameUpToStatus rt addr n x
  | false => exact raiseAddressError_sameUpToStatus hv .addressErrorLoad addr

theorem alignedStore_sameUpToStatus (aligned : Bool) (addr : Word) (n : Nat) (x : Word) :
    SameUpToStatus (alignedStore aligned addr n x s) (alignedStore aligned addr n x (withStatus v s)) := by
  cases aligned with
  | true => exact storeAccess_sameUpToStatus addr n x
  | false => exact raiseAddressError_sameUpToStatus hv .addressErrorStore addr

/-- Of Status an instruction reads bit 22 alone, MFC0 from Status apart (R338, R360). -/
theorem exec_sameUpToStatus (i : Instr) (hi : ∀ rt, i ≠ .mfc0 rt 12) :
    SameUpToStatus (exec i s) (exec i (withStatus v s)) := by
  cases i with
  | add | sub | addi => exact writeChecked_sameUpToStatus hv _ _
  | addu | subu | slt | sltu | addiu | slti | sltiu | and | or | xor | nor | andi | ori | xori | lui | sll | srl | sra
    | sllv | srlv | srav | mfhi | mflo => exact writeResult_sameUpToStatus _ _
  | mult | multu | div | divu | mthi | mtlo => exact writeHiLo_sameUpToStatus _ _
  | beq | bne | blez | bgtz | bltz | bgez => exact execBranch_sameUpToStatus _ _
  | bltzal | bgezal => exact execBranchLink_sameUpToStatus _ _
  | j | jr => exact sameUpToStatus_next (v := v) (by rw [advance_withStatus]; rfl)
  | jal | jalr => exact sameUpToStatus_next (v := v) (by rw [linked_withStatus]; rfl)
  | lb | lbu | lwl | lwr => exact loadDelayed_sameUpToStatus _ _ _ _
  | lh | lhu | lw => exact alignedLoad_sameUpToStatus hv _ _ _ _ _
  | sb | swl | swr => exact storeAccess_sameUpToStatus _ _ _
  | sh | sw => exact alignedStore_sameUpToStatus hv _ _ _ _
  | syscall => exact raiseException_sameUpToStatus hv .syscall
  | brk => exact raiseException_sameUpToStatus hv .breakpoint
  | mfc0 rt rd => exact mfc0_sameUpToStatus rt fun h => hi rt (by rw [h])
  | mtc0 rt rd => exact sameUpToStatus_next (by rw [advance_withStatus]; exact writeCop0_withStatus v _ rd _)
  | rfe => exact sameUpToStatus_next (v := popMode v) (by rw [advance_withStatus]; rfl)

end Outcomes

/-! ### The return sequence (R350) -/

theorem nop_effect (s : State) : ∃ t, exec (.sll 0#5 0#5 0) s = .next t ∧ RegistersRetired s t ∧ ControlKept s t := by
  obtain ⟨t, ht, heffect⟩ := writeResult_effect 0#5 (readReg s 0#5 <<< 0) s
  refine ⟨t, ht, fun r => ?_, heffect.control⟩
  rw [heffect.registers r]
  by_cases hr : r = 0#5
  · rw [if_pos hr, hr, retiredReg_zero]
  · rw [if_neg hr, if_neg hr]

end Sys2Proof.Machine

namespace Sys2Proof.Proofs

open Sys2Proof.Machine Sys2Proof.Claims

/-- Settles O7: the model's delivery test is the rule's condition, and what it leads to is interrupt entry. -/
theorem interruptIsTakenExactlyWhenDue : Obligations.InterruptIsTakenExactlyWhenDue :=
  fun s => ⟨fun hdue => ⟨_, step_of_interrupt hdue, takeInterrupt_effect (sampleIrq s)⟩, step_of_no_interrupt⟩

/-- Settles O8: the sampling writes bit 10 alone, and what follows it writes none of the bits named. -/
theorem everyStepMirrorsTheInterruptLine : Obligations.EveryStepMirrorsTheInterruptLine := by
  intro s t h
  refine ⟨?_, step_irqInput h, fun k hk => ?_⟩
  · exact (step_cause_kept h (by decide) (by decide) (by decide)).trans (sampleIrq_cause_getLsbD s 10)
  · rw [step_cause_kept h (by omega) (by omega) (by omega), sampleIrq_cause_getLsbD, if_neg (by omega)]

/-- Settles O40: entry empties the holder without a write, so it is entry from the state with an empty holder. -/
theorem exceptionEntrySavesAndRedirects : Obligations.ExceptionEntrySavesAndRedirects :=
  ⟨⟨rfl, rfl, rfl, rfl, rfl, rfl, rfl⟩, fun c addr bd s =>
    exceptionEffect_enterException c { s with pendingLoad := none } s addr s.badVaddr bd rfl⟩

/-- Settles O45: EPC retires into k0 during the NOP, JR stages it, and RFE in the delay slot advances to it. -/
theorem returnSequenceResumesAtEpc : Obligations.ReturnSequenceResumesAtEpc := by
  intro k0 s hk0
  obtain ⟨t1, v, h1, hmfc0, hv⟩ := mfc0_effect k0 14 s
  obtain rfl := hv s.epc rfl
  obtain ⟨t2, h2, hregisters, hcontrol⟩ := nop_effect t1
  obtain ⟨t3, h3, hjr⟩ := jr_effect k0 t2
  have hheld := hmfc0.holder.trans (if_neg hk0)
  have htarget : t3.nextPc = s.epc := by
    rw [(hjr.whenTaken trivial).1, hregisters, retiredReg_of_some hheld hk0]
  have hstatus : t3.status = s.status := hjr.control.status.trans (hcontrol.status.trans hmfc0.control.status)
  refine ⟨t1, t2, t3, _, h1, h2, h3, exec_rfe t3, by simp [htarget], by simp [htarget], by simp, fun k hk => ?_⟩
  rw [rfe_status_getLsbD, if_pos hk, hstatus]

/-- Settles O47, by what an instruction can do to the COP0 registers. -/
theorem everyInstructionCompletesOrIsPrecise : Obligations.EveryInstructionCompletesOrIsPrecise := by
  intro i s t h
  cases exec_control h with
  | exception c hc he =>
    refine .inl ⟨_, _, he, .inr (.inr ⟨?_, rfl⟩)⟩
    obtain rfl | rfl | rfl := hc
    · exact .inr (.inr rfl)
    · exact .inl rfl
    · exact .inr (.inl rfl)
  | addressError c addr hc he =>
    refine .inl ⟨_, _, he, ?_⟩
    obtain rfl | rfl := hc
    · exact .inl rfl
    · exact .inr (.inl rfl)
  | kept hk hpc =>
    exact .inr ⟨hk.epc, hk.badVaddr, hk.prid, hpc, fun k _ _ => by rw [hk.cause], fun _ k _ => by rw [hk.status]⟩
  | mtc0 rt rd hi ht =>
    subst hi ht
    refine .inr ⟨by simp, by simp, by simp, by simp, fun k h8 h9 => ?_, fun hnot k _ => ?_⟩
    · rw [writeCop0_cause_getLsbD, if_neg fun hw => hw.2.elim h8 h9, advance_cause]
    · have hrd : rd ≠ 12 := fun e => hnot rt (by rw [e])
      rw [writeCop0_status, if_neg hrd, advance_status]
  | rfe hi ht =>
    subst hi ht
    refine .inr ⟨by simp, by simp, by simp, by simp, fun k _ _ => by simp, fun _ k hk => ?_⟩
    rw [rfe_status_getLsbD, if_neg (by omega)]

/-- Settles O49: flipping bit 1 keeps bit 22, the only one an instruction reads. -/
theorem privilegeBitIsNotChecked : Obligations.PrivilegeBitIsNotChecked := by
  rintro i s _ hi rfl
  have hv : (s.status ^^^ 2#32).getLsbD 22 = s.status.getLsbD 22 := by
    rw [BitVec.getLsbD_xor, show (2#32).getLsbD 22 = false from rfl, Bool.xor_false]
  exact sameUpToStatus_outcomes (exec_sameUpToStatus hv i hi)

/-- Settles O52: the merged state is the model's, and the model's delivery test on it is the rule's condition. -/
theorem injectMergesAndDelivers : Obligations.InjectMergesAndDelivers := by
  intro s merged m hfield hrest hmerged
  rw [eq_mergePending hfield hrest] at hmerged
  obtain rfl : merged = withPending m s := hmerged
  have hdue := interruptTaken_iff (withPending m s)
  rw [show applyHostOp (.inject m) s = _ from hostInject_eq m s]
  refine ⟨fun henabled hpending => ?_, fun hnot => if_neg (mt hdue.1 hnot)⟩
  rw [if_pos (hdue.2 ⟨henabled, hpending⟩)]
  exact takeInterrupt_effect (withPending m s)

/-- Settles O53: each entry pushes once, and three pushes of a fixed word are computed. -/
theorem nestedEntriesLoseTheOldestPair : Obligations.NestedEntriesLoseTheOldestPair := by
  rintro s _ _ _ c1 c2 c3 a1 a2 a3 b1 b2 b3 hs rfl rfl rfl
  simp only [enterException_status, hs]
  decide

end Sys2Proof.Proofs
end

section
/-! The obligations of spec/70_reset_and_hazards.md: the state after reset, and the invariant under every move of the
environment. -/

namespace Sys2Proof.Machine

/-! ### The invariant, move by move -/

/-- The host's reset replaces everything the invariant looks at but memory, which it keeps (R380). -/
theorem hostReset_inv {s : State} (h : Inv s) : Inv (hostReset s) where
  memory := h.memory
  cache := reset_inv.cache
  zero := reset_inv.zero
  holder := reset_inv.holder
  processorId := reset_inv.processorId

/-- Merging pending bits reaches Cause alone, and interrupt entry keeps the invariant (R349). -/
theorem hostInject_inv {s : State} (m : BitVec 8) (h : Inv s) : Inv (hostInject m s) := by
  have hmerged : Inv (withPending m s) := inv_congr h rfl rfl rfl rfl rfl
  rw [hostInject_eq]
  split
  · exact takeInterrupt_inv hmerged
  · exact hmerged

/-- A move that replaces the cache by a canonical one keeps the invariant. -/
theorem inv_withCache {s : State} {c : ICache} (hc : ICache.wf c) (h : Inv s) : Inv { s with icache := c } :=
  ⟨h.memory, hc, h.zero, h.holder, h.processorId⟩

/-- Another master's write keeps memory canonical (R84). -/
theorem hostWriteByte_inv {s : State} (addr : Word) (b : Byte) (h : Inv s) : Inv (hostWriteByte addr b s) where
  memory := writeByte_wf s.mem addr.toNat b addr.isLt h.memory
  cache := h.cache
  zero := h.zero
  holder := h.holder
  processorId := h.processorId

end Sys2Proof.Machine

namespace Sys2Proof.Proofs

open Sys2Proof.Machine Sys2Proof.Claims

/-- Settles O55, one rule per move: an insertion, a removal and a byte write keep their list canonical, and the other moves
do not reach what the invariant looks at. -/
theorem everyHostOperationKeepsTheInvariant : Obligations.EveryHostOperationKeepsTheInvariant := by
  intro op s h
  cases op with
  | reset => exact hostReset_inv h
  | inject m => exact hostInject_inv m h
  | prefill addr w => exact inv_withCache (insertKey_rising s.icache addr.toNat w addr.isLt h.cache) h
  | invalidate | invalidateRange => exact inv_withCache (dropKeys_rising s.icache _ h.cache) h
  | writeByte addr b => exact hostWriteByte_inv addr b h
  | forceSetPc | setIrqInput | setBusFailures | setBusPolicy => exact inv_congr h rfl rfl rfl rfl rfl

/-- Settles O50: the two states agree in the core's own fields, and the host's reset keeps memory. -/
theorem resetStateIsAsStated : Obligations.ResetStateIsAsStated := by
  have hbits : Config.resetStatus.getLsbD 0 = false ∧ Config.resetStatus.getLsbD 1 = false ∧
      Config.resetStatus.getLsbD 22 = true := by decide
  obtain ⟨henable, hprivilege, hboot⟩ := hbits
  rintro s t (rfl | rfl) <;>
    exact ⟨rfl, rfl, rfl, rfl, rfl, henable, hprivilege, hboot, fun _ => rfl, rfl, fun _ => rfl⟩

end Sys2Proof.Proofs
end
